-- ==== Sys2Proof/Word.lean ====
section
/-! DEFINITION. The widths the spec names and the plain records the tables of the block are made of
(spec/00_scope.md R5, R6; spec/10_state.md R13 to R17). -/

namespace Sys2Proof

/-- A byte: a symbol, a character, an element of `IN` or `OUT` (R6). -/
abbrev Byte := BitVec 8

/-- A frequency, a key, a position or a length: `FREQ_W = POS_W = 64` (R5). -/
abbrev Word64 := BitVec 64

/-- A command word of format C (spec/30_encoding.md R60). -/
abbrev CommandWord := BitVec 96

/-- An index into the node arena, or the payload of a queue entry: 9 bits (R14, R15). -/
abbrev NodeIx := BitVec 9

/-- A code or a candidate: a bit-string, first bit first, `false` for 0 (left) and `true` for 1
(right). "A model may equally hold a code as a list of bits" (spec/30_encoding.md R67, R68). -/
abbrev Code := List Bool

/-- An entry of the priority queue (R14). -/
structure HeapEntry where
  /-- The frequency the queue is ordered by. -/
  key : Word64
  /-- The node carried, never compared. -/
  node : NodeIx
deriving DecidableEq, Repr, Inhabited

/-- An entry of the node arena (R15): the flag `leaf` is the constructor. -/
inductive Node where
  /-- A leaf holds one byte value and its frequency. -/
  | leaf (sym : Byte) (freq : Word64)
  /-- An internal node holds the combined frequency and the indices of its two children. -/
  | internal (freq : Word64) (left right : NodeIx)
deriving DecidableEq, Repr, Inhabited

/-- An entry of the reverse lookup table (R17). -/
structure RltEntry where
  /-- The key: the whole code. -/
  code : Code
  /-- The byte value it stands for. -/
  sym : Byte
deriving DecidableEq, Repr, Inhabited

/-- The frequency table `FREQ[0..255]` (R13). -/
abbrev FreqTable := Vector Word64 256

/-- The code table `CODE[0..255]`: `none` is an entry whose `valid` is 0 (R16, R130). -/
abbrev CodeTable := Vector (Option Code) 256

/-- The five phase flags of `STATUS` (R20, R26). -/
structure PhaseFlags where
  /-- `FREQ` holds the counts of the last `FREQ_COUNT`. -/
  freqValid : Bool
  /-- `NODE` holds a built tree not yet consumed. -/
  treeValid : Bool
  /-- `ROOT` names the root. -/
  rootValid : Bool
  /-- `CODE` holds a generated code table. -/
  ctValid : Bool
  /-- `RLT`, `MAXLEN` and `SEC_END` hold a parsed container. -/
  rltValid : Bool
deriving DecidableEq, Repr, Inhabited

end Sys2Proof
end

