-- ==== Sys2Proof/Syntax.lean ====
section
/-! DEFINITION. The fourteen commands of spec/30_encoding.md R61, the block's instruction set (R1). -/

namespace Sys2Proof

/-- One constructor per row of spec/opcode_table.json, in the table's order. An operand is a field of the
command word taken as an unsigned number (R62); the must-be-zero bits are no operands, so every term of
this type stands for exactly one legal word. -/
inductive Instr where
  /-- `CLR`, op 0x01 (R181). -/
  | clr
  /-- `IN_REWIND`, op 0x02 (R91). -/
  | inRewind
  /-- `PQ_INSERT key, node`, op 0x10: `key` is `a[63:0]`, `node` is `b[8:0]` (R103). -/
  | pqInsert (key : Word64) (node : NodeIx)
  /-- `PQ_EXTRACT_MIN`, op 0x11 (R104). -/
  | pqExtractMin
  /-- `PQ_PEEK`, op 0x12 (R105). -/
  | pqPeek
  /-- `FREQ_COUNT`, op 0x20 (R90). -/
  | freqCount
  /-- `TREE_BUILD`, op 0x21 (R121). -/
  | treeBuild
  /-- `CODE_GEN`, op 0x22 (R131). -/
  | codeGen
  /-- `EMIT`, op 0x23 (R141). -/
  | emit
  /-- `ENCODE`, op 0x2F (R142). -/
  | encode
  /-- `DEC_PARSE`, op 0x30 (R160). -/
  | decParse
  /-- `DEC_SCAN`, op 0x31 (R162). -/
  | decScan
  /-- `VM_PUSH ch`, op 0x32: `ch` is `b[7:0]` (R153). -/
  | vmPush (ch : Byte)
  /-- `DECODE`, op 0x3F (R163). -/
  | decode
deriving DecidableEq, Repr

end Sys2Proof
end

