-- ==== Sys2Proof/WellFormed.lean ====
section
/-! DEFINITION. Which command words are legal (spec/30_encoding.md R63), from the match and mask columns of
spec/opcode_table.json, written without the decoder. An `Instr` needs no check of its own: the widths of
its operands are their types, so every term is well formed. -/

namespace Sys2Proof

/-- A row of spec/opcode_table.json. -/
structure OpcodeRow where
  /-- The table's spelling. -/
  mnemonic : String
  /-- The value of the fixed bits. -/
  fixed : CommandWord
  /-- A 1 in every bit that is fixed, the must-be-zero bits included. -/
  mask : CommandWord
deriving DecidableEq, Repr

/-- spec/opcode_table.json, row for row. -/
def opcodeTable : List OpcodeRow :=
  [ ⟨"CLR",            0x010000000000000000000000#96, 0xFFFFFFFFFFFFFFFFFFFFFFFF#96⟩,
    ⟨"IN_REWIND",      0x020000000000000000000000#96, 0xFFFFFFFFFFFFFFFFFFFFFFFF#96⟩,
    ⟨"PQ_INSERT",      0x100000000000000000000000#96, 0xFFFFFE000000000000000000#96⟩,
    ⟨"PQ_EXTRACT_MIN", 0x110000000000000000000000#96, 0xFFFFFFFFFFFFFFFFFFFFFFFF#96⟩,
    ⟨"PQ_PEEK",        0x120000000000000000000000#96, 0xFFFFFFFFFFFFFFFFFFFFFFFF#96⟩,
    ⟨"FREQ_COUNT",     0x200000000000000000000000#96, 0xFFFFFFFFFFFFFFFFFFFFFFFF#96⟩,
    ⟨"TREE_BUILD",     0x210000000000000000000000#96, 0xFFFFFFFFFFFFFFFFFFFFFFFF#96⟩ ] ++
  [ ⟨"CODE_GEN",       0x220000000000000000000000#96, 0xFFFFFFFFFFFFFFFFFFFFFFFF#96⟩,
    ⟨"EMIT",           0x230000000000000000000000#96, 0xFFFFFFFFFFFFFFFFFFFFFFFF#96⟩,
    ⟨"ENCODE",         0x2F0000000000000000000000#96, 0xFFFFFFFFFFFFFFFFFFFFFFFF#96⟩,
    ⟨"DEC_PARSE",      0x300000000000000000000000#96, 0xFFFFFFFFFFFFFFFFFFFFFFFF#96⟩,
    ⟨"DEC_SCAN",       0x310000000000000000000000#96, 0xFFFFFFFFFFFFFFFFFFFFFFFF#96⟩,
    ⟨"VM_PUSH",        0x320000000000000000000000#96, 0xFFFFFF00FFFFFFFFFFFFFFFF#96⟩,
    ⟨"DECODE",         0x3F0000000000000000000000#96, 0xFFFFFFFFFFFFFFFFFFFFFFFF#96⟩ ]

/-- "`word & mask == match` is exactly legality for that row" (R63). -/
def OpcodeRow.admits (r : OpcodeRow) (w : CommandWord) : Bool := w &&& r.mask == r.fixed

/-- A word is legal when some row admits it (R63). -/
def legal (w : CommandWord) : Bool := opcodeTable.any (·.admits w)

/-- The mnemonic of spec/30_encoding.md R61, as the assembler syntax of R65 writes it. -/
def Instr.mnemonic : Instr → String
  | .clr => "CLR"
  | .inRewind => "IN_REWIND"
  | .pqInsert _ _ => "PQ_INSERT"
  | .pqExtractMin => "PQ_EXTRACT_MIN"
  | .pqPeek => "PQ_PEEK"
  | .freqCount => "FREQ_COUNT"
  | .treeBuild => "TREE_BUILD"
  | .codeGen => "CODE_GEN"
  | .emit => "EMIT"
  | .encode => "ENCODE"
  | .decParse => "DEC_PARSE"
  | .decScan => "DEC_SCAN"
  | .vmPush _ => "VM_PUSH"
  | .decode => "DECODE"

end Sys2Proof
end

