-- ==== Sys2Proof/Decode.lean ====
section
/-! DEFINITION. The decoder and the encoder of command words (spec/30_encoding.md R60 to R65), and the words
of the spec that show each constructor's decoding. -/

namespace Sys2Proof

/-! ## Fields of format C (R60) -/

/-- `op`, bits 95:88. -/
def opField (w : CommandWord) : Byte := w.extractLsb' 88 8

/-- `rsv`, bits 87:80. -/
def rsvField (w : CommandWord) : Byte := w.extractLsb' 80 8

/-- `b`, bits 79:64. -/
def bField (w : CommandWord) : BitVec 16 := w.extractLsb' 64 16

/-- `a`, bits 63:0. -/
def aField (w : CommandWord) : Word64 := w.extractLsb' 0 64

/-- Why a word is not legal (R63). -/
inductive DecodeError where
  /-- `op` is none of the fourteen opcodes of R61. -/
  | undefinedOpcode
  /-- `rsv` is not 0. -/
  | reservedNonzero
  /-- A must-be-zero bit of operand B is 1. -/
  | operandBNonzero
  /-- A must-be-zero bit of operand A is 1. -/
  | operandANonzero
deriving DecidableEq, Repr

/-- The command an opcode names, with its operands taken from the fields (R61, R62). -/
def instrOfOp (op : Byte) (b : BitVec 16) (a : Word64) : Option Instr :=
  if op = 0x01#8 then some .clr
  else if op = 0x02#8 then some .inRewind
  else if op = 0x10#8 then some (.pqInsert a (b.extractLsb' 0 9))
  else if op = 0x11#8 then some .pqExtractMin
  else if op = 0x12#8 then some .pqPeek
  else if op = 0x20#8 then some .freqCount
  else if op = 0x21#8 then some .treeBuild
  else if op = 0x22#8 then some .codeGen
  else if op = 0x23#8 then some .emit
  else if op = 0x2F#8 then some .encode
  else if op = 0x30#8 then some .decParse
  else if op = 0x31#8 then some .decScan
  else if op = 0x32#8 then some (.vmPush (b.extractLsb' 0 8))
  else if op = 0x3F#8 then some .decode
  else none

/-- The bits of operand B a command uses; every other bit of `b` must be 0 (R62). -/
def usedB : Instr → BitVec 16
  | .pqInsert _ _ => 0x01FF#16
  | .vmPush _ => 0x00FF#16
  | _ => 0#16

/-- Whether a command uses operand A; where it does not, all of `a` must be 0 (R62). -/
def usesA : Instr → Bool
  | .pqInsert _ _ => true
  | _ => false

/-- The decoder: total, refusing an illegal word by name (R61 to R64). -/
def decode (w : CommandWord) : Except DecodeError Instr :=
  match instrOfOp (opField w) (bField w) (aField w) with
  | none => .error .undefinedOpcode
  | some i =>
    if rsvField w ≠ 0#8 then .error .reservedNonzero
    else if bField w &&& ~~~ (usedB i) ≠ 0#16 then .error .operandBNonzero
    else if !usesA i && aField w ≠ 0#64 then .error .operandANonzero
    else .ok i

/-! ## The encoder -/

/-- The opcode of a command (R61). -/
def Instr.opcode : Instr → Byte
  | .clr => 0x01#8
  | .inRewind => 0x02#8
  | .pqInsert _ _ => 0x10#8
  | .pqExtractMin => 0x11#8
  | .pqPeek => 0x12#8
  | .freqCount => 0x20#8
  | .treeBuild => 0x21#8
  | .codeGen => 0x22#8
  | .emit => 0x23#8
  | .encode => 0x2F#8
  | .decParse => 0x30#8
  | .decScan => 0x31#8
  | .vmPush _ => 0x32#8
  | .decode => 0x3F#8

/-- Operand A of a command's word (R62). -/
def Instr.operandA : Instr → Word64
  | .pqInsert key _ => key
  | _ => 0#64

/-- Operand B of a command's word (R62). -/
def Instr.operandB : Instr → BitVec 16
  | .pqInsert _ node => node.setWidth 16
  | .vmPush ch => ch.setWidth 16
  | _ => 0#16

/-- The word of a command: `op`, `rsv = 0`, `b`, `a`, most significant first (R60). -/
def encode (i : Instr) : CommandWord := i.opcode ++ 0#8 ++ i.operandB ++ i.operandA

/-- The assembler line of a command (R65). -/
def Instr.asm : Instr → String
  | .pqInsert key node => "PQ_INSERT " ++ toString key.toNat ++ ", " ++ toString node.toNat
  | .vmPush ch => "VM_PUSH " ++ toString ch.toNat
  | i => i.mnemonic

/-- The word of a row of spec/opcode_table.json, as the table numbers its bits: bit 0 is the least
significant bit of the one 96-bit word; a bit above `nbits` is 0. -/
def tableWord (nbits w : Nat) : CommandWord := BitVec.ofNat 96 (w % 2 ^ nbits)

/-- What the decoder reads from an instruction whose bits are `w`. -/
def decodeTableWord (nbits w : Nat) : Option Instr := (decode (tableWord nbits w)).toOption

/-! ## The words of the spec (spec/95_test_vectors.md V10 to V31; spec/30_encoding.md R61), one or more per
constructor -/

theorem decode_word_clr : decode 0x010000000000000000000000#96 = .ok .clr := by decide
theorem decode_word_inRewind : decode 0x020000000000000000000000#96 = .ok .inRewind := by decide
theorem decode_word_pqInsert : decode 0x100000010000000000000003#96 = .ok (.pqInsert 3#64 1#9) := by decide
theorem decode_word_pqInsert_max :
    decode 0x100001FFFFFFFFFFFFFFFFFF#96 = .ok (.pqInsert 0xFFFFFFFFFFFFFFFF#64 511#9) := by decide
theorem decode_word_pqExtractMin : decode 0x110000000000000000000000#96 = .ok .pqExtractMin := by decide
theorem decode_word_pqPeek : decode 0x120000000000000000000000#96 = .ok .pqPeek := by decide
theorem decode_word_freqCount : decode 0x200000000000000000000000#96 = .ok .freqCount := by decide
theorem decode_word_treeBuild : decode 0x210000000000000000000000#96 = .ok .treeBuild := by decide
theorem decode_word_codeGen : decode 0x220000000000000000000000#96 = .ok .codeGen := by decide
theorem decode_word_emit : decode 0x230000000000000000000000#96 = .ok .emit := by decide
theorem decode_word_encode : decode 0x2F0000000000000000000000#96 = .ok .encode := by decide
theorem decode_word_decParse : decode 0x300000000000000000000000#96 = .ok .decParse := by decide
theorem decode_word_decScan : decode 0x310000000000000000000000#96 = .ok .decScan := by decide
theorem decode_word_vmPush : decode 0x320000310000000000000000#96 = .ok (.vmPush 0x31#8) := by decide
theorem decode_word_decode : decode 0x3F0000000000000000000000#96 = .ok .decode := by decide

end Sys2Proof
end

