-- ==== Sys2Proof/Config.lean ====
section
/-! DEFINITION. The values the spec leaves open, as constants without a body: no proof can see what they
are, so a claim that mentions one holds whatever it is. The two OPEN parameters of spec/00_scope.md R5
(`OUT_CAP`, `IN_FAULT`) are fields of the state instead, so that every claim about a state is a claim
about every value of them (log 2). -/

namespace Sys2Proof

/-- What spec/60_exceptions.md R202 leaves unspecified after a fault (log 5); its tables also serve as
the contents that spec/47_control.md R181 leaves unspecified after `CLR` (log 6). -/
structure Residue where
  inPos : Word64
  freq : FreqTable
  heap : List HeapEntry
  nodes : List Node
  root : NodeIx
  code : CodeTable
  ctCnt : BitVec 9
  rlt : List RltEntry
  maxLen : BitVec 8
  cand : Code
  secEnd : Word64
  flags : PhaseFlags
  resA : Word64
  resB : BitVec 16
deriving DecidableEq, Repr, Inhabited

/-- The `n`-th block of unspecified values a run meets: a FREE VALUE (log 5, log 6). -/
opaque Config.unspecified : Nat → Residue

/-- The sum of two weights that does not fit in 64 bits: "the wrap-around behaviour of 64-bit addition is
never reached and is not defined" (spec/40_frequency_counter.md R92). A FREE VALUE (log 7). -/
opaque Config.weightOverflow : Word64 → Word64 → Word64

end Sys2Proof
end

