-- ==== Sys2Proof/Machine/State.lean ====
section
/-! DEFINITION. The state of the block (spec/10_state.md R10 to R29), the moves of its host, the eight fault
kinds (spec/60_exceptions.md R190), and the state after reset. -/

namespace Sys2Proof.Machine

/-- A byte-addressed space (spec/20_memory.md R40): the bytes that hold a value, addresses strictly rising.
An unlisted address has no value (log 3). -/
abbrev Memory := List Host.Cell

/-- The output stream (R12): the space `OUT` and its length `OUT_LEN`. -/
structure OutStream where
  /-- `OUT`; bytes at or above `OUT_LEN` have no meaning. -/
  mem : Memory
  /-- `OUT_LEN`. -/
  len : Word64
deriving DecidableEq, Repr

/-- What the host does to the block between two commands (spec/47_control.md R185). Reading (`CsrRead`,
`HostReadOut`) changes nothing and is a function of the state (log 15). -/
inductive HostMove where
  /-- The host presents a 96-bit word at the command port (R180). -/
  | present (w : CommandWord)
  /-- `HostLoad(S)` (R183). -/
  | load (bytes : List Byte)
  /-- Hardware reset, between commands (spec/70_reset_and_hazards.md R220). -/
  | reset
deriving DecidableEq, Repr

/-- The kinds a command can raise (R190); the machine records one in `ERR` and goes on, so a raise is a
next state of the model, never its outcome `fault`. -/
inductive FaultKind where
  | ioFailure
  | capacityExceeded
  | emptyQueue
  | metadataMarkerNotFound
  | malformedStream
  | malformedMetadata
  | sequenceError
  | illegalCommand
deriving DecidableEq, Repr

/-- Why the MODEL stops. Each stands for an access the spec says no rule makes, or a tree it says cannot
be; none is met from a state a run reaches, and stopping is safe. -/
inductive Fault where
  /-- `MemRead` at or past `IN_LEN` (R43: "No rule calls `MemRead` with `addr >= IN_LEN`"). Raised by
  `memRead`; safe (log 13). -/
  | readOutsideInput
  /-- `MemRead` of a byte that nothing has loaded. Raised by `memRead`; safe (log 3). -/
  | readUnlistedInput
  /-- `MemWrite` past `OUT_CAP` (R43). Raised by `OutStream.put`; safe (log 13). -/
  | writeOutsideOutput
  /-- The arena is no tree of at most 256 levels (R15, R27, R134). Raised by `walk`; safe (log 12). -/
  | malformedTree
deriving DecidableEq, Repr

/-- What the model has no meaning for. -/
inductive Refusal where
  /-- An instruction that has no meaning yet. Raised by `exec`'s arm only; safe. -/
  | notModelled (mnemonic : String)
  /-- `HostLoad` while `ERR != 0`, or of 2^64 bytes or more (R183, and R185's row "never"). Raised by
  `hostLoad`; safe (log 14). -/
  | hostMoveNotAllowed
deriving DecidableEq, Repr

/-- The state of the block (R10), then the model's own four fields. -/
structure State where
  /-- `IN` (R11). -/
  inMem : Memory
  /-- `IN_LEN` (R11). -/
  inLen : Word64
  /-- `IN_POS` (R11). -/
  inPos : Word64
  /-- `OUT`, `OUT_LEN` (R12). -/
  out : OutStream
  /-- `FREQ` (R13). -/
  freq : FreqTable
  /-- `HEAP[0 .. PQ_SIZE-1]`; its length is `PQ_SIZE` (R14). -/
  heap : List HeapEntry
  /-- `NODE[0 .. NODE_CNT-1]`; its length is `NODE_CNT` (R15). -/
  nodes : List Node
  /-- `ROOT` (R15). -/
  root : NodeIx
  /-- `CODE` (R16). -/
  code : CodeTable
  /-- `CT_CNT` (R16). -/
  ctCnt : BitVec 9
  /-- `RLT[0 .. RLT_CNT-1]`; its length is `RLT_CNT` (R17). -/
  rlt : List RltEntry
  /-- `MAXLEN` (R17). -/
  maxLen : BitVec 8
  /-- `CAND`; its length is `CAND_LEN` (R18). -/
  cand : Code
  /-- `SEC_END` (R19). -/
  secEnd : Word64
  /-- The phase flags, `STATUS[6:2]` (R20). -/
  flags : PhaseFlags
  /-- `ERR` (R21). -/
  err : Byte
  /-- `ERR_INFO` (R21). -/
  errInfo : Word64
  /-- `RES_A` (R22). -/
  resA : Word64
  /-- `RES_B` (R22). -/
  resB : BitVec 16
  /-- The OPEN parameter `OUT_CAP` (R5); no step writes it (log 2). -/
  outCap : Word64
  /-- The OPEN parameter `IN_FAULT` (R5): the positions whose reading fails; no step writes it (log 2). -/
  inFault : List Word64
  /-- The moves the host is about to make, first to last (log 1). -/
  port : List HostMove
  /-- Counts the blocks of unspecified values met so far (log 5). -/
  freeCtr : Nat
deriving DecidableEq, Repr

/-- The empty output stream. -/
def OutStream.empty : OutStream := ⟨[], 0#64⟩

/-- All five phase flags clear. -/
def noFlags : PhaseFlags := ⟨false, false, false, false, false⟩

/-- The block right after hardware reset (R28, R220). The contents of `FREQ` and `CODE` are the model's
choice (log 4); the parameters have the defaults of R5 (log 2). -/
def State.reset : State where
  inMem := []
  inLen := 0#64
  inPos := 0#64
  out := OutStream.empty
  freq := Vector.replicate 256 0#64
  heap := []
  nodes := []
  root := 0#9
  code := Vector.replicate 256 none
  ctCnt := 0#9
  rlt := []
  maxLen := 0#8
  cand := []
  secEnd := 0#64
  flags := noFlags
  err := 0#8
  errInfo := 0#64
  resA := 0#64
  resB := 0#16
  outCap := 0xFFFFFFFFFFFFFFFF#64
  inFault := []
  port := []
  freeCtr := 0

end Sys2Proof.Machine
end

