-- ==== Sys2Proof/Machine/Operands.lean ====
section
/-! DEFINITION. The parameters, characters and fields that commands work with (spec/00_scope.md R5, R6;
spec/30_encoding.md R69, R72), reading and writing a 256-entry table, and assembling results. -/

namespace Sys2Proof.Machine

/-! ## Parameters (R5) -/

/-- `PQ_CAP`, the most entries the priority queue holds. -/
def pqCap : Nat := 256

/-- `CODE_MAX`, the longest code in bits. -/
def codeMax : Nat := 255

/-- `RLT_CAP`, the most entries of the reverse lookup table. -/
def rltCap : Nat := 256

/-! ## Characters (R69) -/

/-- `NL`, the one byte of a newline. -/
def charNL : Byte := 0x0A#8

/-- `'0'`, bit 0. -/
def charZero : Byte := 0x30#8

/-- `'1'`, bit 1. -/
def charOne : Byte := 0x31#8

/-- `':'`, the separator of a metadata record. -/
def charColon : Byte := 0x3A#8

/-- `MARKER`, the 22 bytes `---METADATA_SECTION---` (R72). -/
def marker : List Byte :=
  [0x2D#8, 0x2D#8, 0x2D#8, 0x4D#8, 0x45#8, 0x54#8, 0x41#8, 0x44#8, 0x41#8, 0x54#8, 0x41#8,
   0x5F#8, 0x53#8, 0x45#8, 0x43#8, 0x54#8, 0x49#8, 0x4F#8, 0x4E#8, 0x2D#8, 0x2D#8, 0x2D#8]

/-- The character of a bit: `'0' + c` (R7, R67). -/
def charOfBit (c : Bool) : Byte := if c then charOne else charZero

/-- The bit of a character, `none` for a character that is neither `'0'` nor `'1'` (R152). -/
def bitOfChar (ch : Byte) : Option Bool :=
  if ch = charZero then some false else if ch = charOne then some true else none

/-! ## Tables with one entry per byte value (R13, R16) -/

/-- `T[b]`. -/
def tget {α : Type} (t : Vector α 256) (b : Byte) : α := t[b.toNat]'b.isLt

/-- `T[b] <- v`. -/
def tset {α : Type} (t : Vector α 256) (b : Byte) (v : α) : Vector α 256 := t.set b.toNat v b.isLt

/-- The byte values in ascending order: "for b in 0..255" (R7). -/
def byteValues : List Byte := (List.range 256).map (BitVec.ofNat 8)

/-- A table as its pairs `(b, T[b])` in ascending order of `b`: what a loop "for b in 0..255" that only reads
`T[b]` goes through. -/
def entries {α : Type} (t : Vector α 256) : List (Byte × α) := byteValues.zip t.toList

/-! ## Fields of registers -/

/-- A fault's position with the direction in bit 63: `{write, pos[62:0]}` (R43, R45). -/
def ioInfo (write : Bool) (pos : Word64) : Word64 := BitVec.ofBool write ++ pos.extractLsb' 0 63

/-- `RES_B <- {7 zero bits, matched, sym}` of `VM_PUSH` (R153). -/
def matchResult : Option Byte → BitVec 16
  | none => 0#16
  | some sym => 0#7 ++ 1#1 ++ sym

end Sys2Proof.Machine
end

