-- ==== Sys2Proof/Machine/Flags.lean ====
section
/-! DEFINITION. The phase flags, what each command requires of them, sets and clears
(spec/10_state.md R26), and the register `STATUS` (R20). -/

namespace Sys2Proof.Machine

/-- A phase flag by name. -/
inductive PhaseFlag where
  | freq
  | tree
  | root
  | ct
  | rlt
deriving DecidableEq, Repr

/-- The value of a phase flag. -/
def phaseFlag (f : PhaseFlags) : PhaseFlag → Bool
  | .freq => f.freqValid
  | .tree => f.treeValid
  | .root => f.rootValid
  | .ct => f.ctValid
  | .rlt => f.rltValid

/-- The flag a command tests before it does anything: column "requires" of R26. -/
def requiredFlag : Instr → Option PhaseFlag
  | .treeBuild => some .freq
  | .codeGen => some .tree
  | .emit => some .ct
  | .decScan => some .rlt
  | .vmPush _ => some .rlt
  | .clr => none
  | .inRewind => none
  | .pqInsert _ _ => none
  | .pqExtractMin => none
  | .pqPeek => none
  | .freqCount => none
  | .encode => none
  | .decParse => none
  | .decode => none

/-- Whether the flag a command requires is set. -/
def phaseReady (i : Instr) (f : PhaseFlags) : Bool :=
  match requiredFlag i with
  | none => true
  | some p => phaseFlag f p

/-- `FREQ_COUNT` sets `FREQ_VALID` and clears `TREE_VALID`, `ROOT_VALID`, `CT_VALID`. -/
def flagsAfterCount (f : PhaseFlags) : PhaseFlags :=
  { f with freqValid := true, treeValid := false, rootValid := false, ctValid := false }

/-- `TREE_BUILD` sets `TREE_VALID`, clears `CT_VALID`, and sets or clears `ROOT_VALID`. -/
def flagsAfterBuild (hasRoot : Bool) (f : PhaseFlags) : PhaseFlags :=
  { f with treeValid := true, rootValid := hasRoot, ctValid := false }

/-- `CODE_GEN` sets `CT_VALID` and clears `TREE_VALID`, `ROOT_VALID`. -/
def flagsAfterGen (f : PhaseFlags) : PhaseFlags :=
  { f with treeValid := false, rootValid := false, ctValid := true }

/-- `DEC_PARSE` sets `RLT_VALID`. -/
def flagsAfterParse (f : PhaseFlags) : PhaseFlags := { f with rltValid := true }

/-- `STATUS` (R20): `BUSY` reads as 0, `ERRV` is 1 exactly when `ERR != 0`, bits 31:7 read as 0
(log 9). -/
def State.status (s : State) : BitVec 32 :=
  0#25 ++ BitVec.ofBool s.flags.rltValid ++ BitVec.ofBool s.flags.ctValid
    ++ BitVec.ofBool s.flags.rootValid ++ BitVec.ofBool s.flags.treeValid
    ++ BitVec.ofBool s.flags.freqValid ++ BitVec.ofBool (s.err != 0#8) ++ 0#1

end Sys2Proof.Machine
end

