-- ==== Sys2Proof/Machine/Ops.lean ====
section
/-! DEFINITION. The operations every command is made of: the two byte spaces (spec/20_memory.md), a fault
and the return from one (spec/60_exceptions.md R201 to R203, spec/47_control.md R181), and the common first
part of every command (spec/47_control.md R180). -/

namespace Sys2Proof.Machine

/-! ## Ending a command early -/

/-- How a command's pseudocode ends before its last line. -/
inductive Abort where
  /-- `raise X(info)`: the hardware records the fault (R201). -/
  | raise (k : FaultKind) (info : Word64)
  /-- The model has no meaning for what comes next and stops. -/
  | stop (f : Fault)
deriving DecidableEq, Repr

/-- The result of a piece of pseudocode. -/
abbrev Res (α : Type) := Except Abort α

/-- `raise X(info)` (R7). -/
def raise {α : Type} (k : FaultKind) (info : Word64) : Res α := .error (.raise k info)

/-- The model stops. -/
def stop {α : Type} (f : Fault) : Res α := .error (.stop f)

/-- What one step of the model answers. -/
abbrev Out := Host.Outcome State Fault Refusal

/-! ## The byte spaces -/

/-- The byte at an address, if one is listed. -/
def Memory.read : Memory → Nat → Option Byte
  | [], _ => none
  | c :: m, a => if c.1 = a then some c.2 else Memory.read m a

/-- Store a byte, keeping the addresses in rising order. -/
def Memory.write : Memory → Nat → Byte → Memory
  | [], a, v => [(a, v)]
  | c :: m, a, v =>
    if a < c.1 then (a, v) :: c :: m
    else if a = c.1 then (a, v) :: m
    else c :: Memory.write m a v

/-- The space that holds a byte sequence from index `base` on. -/
def Memory.ofBytesFrom (base : Nat) : List Byte → Memory
  | [] => []
  | b :: bs => (base, b) :: Memory.ofBytesFrom (base + 1) bs

/-- The space that holds exactly a byte sequence, from index 0. -/
def Memory.ofBytes (bs : List Byte) : Memory := Memory.ofBytesFrom 0 bs

/-- The canonical form: addresses strictly rising. An unlisted address has no value, so no listed byte can
equal what an unlisted one reads as. -/
def Memory.wf : Memory → Bool
  | [] => true
  | [_] => true
  | c :: d :: m => decide (c.1 < d.1) && Memory.wf (d :: m)

/-- `MemRead(addr, 1)` (R43). -/
def memRead (s : State) (addr : Word64) : Res Byte :=
  if s.inLen ≤ addr then stop .readOutsideInput
  else if s.inFault.contains addr then raise .ioFailure (ioInfo false addr)
  else match Memory.read s.inMem addr.toNat with
    | some b => .ok b
    | none => stop .readUnlistedInput

/-- `MemRead` at the parser's position `p` (R160). -/
def memReadAt (s : State) (p : Nat) : Res Byte := memRead s (BitVec.ofNat 64 p)

/-- `Out(v)` with the capacity `cap` (R45). -/
def OutStream.put (cap : Word64) (o : OutStream) (v : Byte) : Res OutStream :=
  if o.len = cap then raise .ioFailure (ioInfo true o.len)
  else if cap < o.len then stop .writeOutsideOutput
  else .ok { mem := Memory.write o.mem o.len.toNat v, len := o.len + 1#64 }

/-- `OUT_LEN <- 0`: the stream is emptied, its bytes are not touched (R12). -/
def OutStream.restart (o : OutStream) : OutStream := { o with len := 0#64 }

/-- `Out` of each byte of a sequence, first to last. -/
def OutStream.puts (cap : Word64) : OutStream → List Byte → Res OutStream
  | o, [] => .ok o
  | o, v :: vs =>
    match OutStream.put cap o v with
    | .error e => .error e
    | .ok o' => OutStream.puts cap o' vs

/-- `OutBits(c)` (R7). -/
def OutStream.putBits (cap : Word64) (o : OutStream) (c : Code) : Res OutStream :=
  OutStream.puts cap o (c.map charOfBit)

/-! ## Fault entry and return -/

/-- The number of a fault kind in `ERR` (R190). -/
def FaultKind.number : FaultKind → Byte
  | .ioFailure => 1#8
  | .capacityExceeded => 2#8
  | .emptyQueue => 3#8
  | .metadataMarkerNotFound => 4#8
  | .malformedStream => 5#8
  | .malformedMetadata => 6#8
  | .sequenceError => 7#8
  | .illegalCommand => 8#8

/-- Fault entry: `ERR`, `ERR_INFO` and with them `STATUS.ERRV` are written, `OUT_LEN` becomes 0 (R201);
`IN` and `IN_LEN` are unchanged; everything else is unspecified (R202), a free value (log 5). -/
def enterFault (s : State) (k : FaultKind) (info : Word64) : State :=
  let u := Config.unspecified s.freeCtr
  { s with
    inPos := u.inPos, out := OutStream.empty, freq := u.freq, heap := u.heap, nodes := u.nodes,
    root := u.root, code := u.code, ctCnt := u.ctCnt, rlt := u.rlt, maxLen := u.maxLen, cand := u.cand,
    secEnd := u.secEnd, flags := u.flags, err := k.number, errInfo := info, resA := u.resA, resB := u.resB,
    freeCtr := s.freeCtr + 1 }

/-- The return from a fault, and the effect of `CLR` (R181, R203): every piece of state takes its reset
value except `IN` and `IN_LEN`; the contents of `FREQ` and `CODE` become unspecified (log 6). -/
def clearAll (s : State) : State :=
  let u := Config.unspecified s.freeCtr
  { s with
    inPos := 0#64, out := OutStream.empty, freq := u.freq, heap := [], nodes := [], root := 0#9,
    code := u.code, ctCnt := 0#9, rlt := [], maxLen := 0#8, cand := [], secEnd := 0#64, flags := noFlags,
    err := 0#8, errInfo := 0#64, resA := 0#64, resB := 0#16, freeCtr := s.freeCtr + 1 }

/-! ## Dispatch (R180) -/

/-- The end of a command: its next state, or the faulted state, or the model's stop. -/
def settle (s : State) : Res State → Out
  | .ok t => .next t
  | .error (.raise k info) => .next (enterFault s k info)
  | .error (.stop f) => .fault f

/-- What R180 does with a legal word other than `CLR`, in its fixed order: a recorded fault discards the
word; then the required phase flag; then the command's own pseudocode. -/
def accept (i : Instr) (body : State → Res State) (s : State) : Out :=
  if s.err ≠ 0#8 then .next s
  else if !phaseReady i s.flags then .next (enterFault s .sequenceError (i.opcode.setWidth 64))
  else settle s (body s)

/-- What R180 does with a word that is not legal (R63, R198): `IllegalCommand(w[95:88])`, or nothing while a
fault is recorded. -/
def rejectWord (w : CommandWord) (s : State) : Out :=
  if s.err ≠ 0#8 then .next s
  else .next (enterFault s .illegalCommand ((opField w).setWidth 64))

end Sys2Proof.Machine
end

