-- ==== Sys2Proof/Machine/CodeTable.lean ====
section
/-! DEFINITION. code_table_rom and its generator: `CODE_GEN` (spec/43_code_table.md R130 to R132). -/

namespace Sys2Proof.Machine

/-- The read port `ct_lookup(b)` (R130). -/
def ctLookup (t : CodeTable) (b : Byte) : Option Code := tget t b

/-- `walk(n, acc)` (R131): the pairs it records, in order, left before right. The first argument bounds the
levels: "a traversal stack of at most 256 levels" (spec/10_state.md R27), so no code exceeds 255 bits. An
arena that is no such tree stops the model (log 12). -/
def walk (nodes : List Node) : Nat → NodeIx → Code → Res (List (Byte × Code))
  | 0, _, _ => stop .malformedTree
  | n + 1, ix, acc =>
    match nodes[ix.toNat]? with
    | none => stop .malformedTree
    | some (.leaf sym _) => .ok [(sym, acc)]
    | some (.internal _ l r) =>
      match walk nodes n l (acc ++ [false]) with
      | .error e => .error e
      | .ok xs =>
        match walk nodes n r (acc ++ [true]) with
        | .error e => .error e
        | .ok ys => .ok (xs ++ ys)

/-- What `CODE_GEN` records for the tree with the given root: a root that is a leaf gets the code `"0"`
(R132), any other tree is walked from the empty bit-string. -/
def treeRecords (nodes : List Node) (root : NodeIx) : Res (List (Byte × Code)) :=
  match nodes[root.toNat]? with
  | some (.leaf sym _) => .ok [(sym, [false])]
  | _ => walk nodes 256 root []

/-- `record(s, c)` for each pair (R131): the table and `CT_CNT`. -/
def recordAll : List (Byte × Code) → CodeTable → BitVec 9 → CodeTable × BitVec 9
  | [], t, n => (t, n)
  | r :: rs, t, n => recordAll rs (tset t r.1 (some r.2)) (n + 1#9)

/-- Every entry not valid. -/
def emptyCode : CodeTable := Vector.replicate 256 none

/-- The code table of a tree, or of no tree. -/
def codesOf (nodes : List Node) (root : Option NodeIx) : Res (CodeTable × BitVec 9) :=
  match root with
  | none => .ok (emptyCode, 0#9)
  | some ix =>
    match treeRecords nodes ix with
    | .error e => .error e
    | .ok rs => .ok (recordAll rs emptyCode 0#9)

/-- The body of `CODE_GEN` (R131): the tree is discarded. -/
def codeGenBody (s : State) : Res State :=
  match codesOf s.nodes (if s.flags.rootValid then some s.root else none) with
  | .error e => .error e
  | .ok (t, n) => .ok { s with code := t, ctCnt := n, nodes := [], flags := flagsAfterGen s.flags }

/-- The meaning of `CODE_GEN`. -/
def execCodeGen (s : State) : Out := accept .codeGen codeGenBody s

end Sys2Proof.Machine
end

