-- ==== Sys2Proof/Machine/Control.lean ====
section
/-! DEFINITION. `CLR`, the host's moves and the host's reads (spec/47_control.md R181 to R184;
spec/10_state.md R23; spec/70_reset_and_hazards.md R220). -/

namespace Sys2Proof.Machine

/-- The meaning of `CLR` (R181): accepted with and without a recorded fault. -/
def execClr (s : State) : Out := .next (clearAll s)

/-- `HostLoad(S)` (R183). The model has no move for a load while a fault is recorded or of 2^64 bytes or more
(log 14). -/
def hostLoad (bytes : List Byte) (s : State) : Out :=
  if s.err ≠ 0#8 ∨ 2 ^ 64 ≤ bytes.length then .refused .hostMoveNotAllowed
  else .next { s with
    inMem := Memory.ofBytes bytes, inLen := BitVec.ofNat 64 bytes.length, inPos := 0#64, flags := noFlags }

/-- Hardware reset between commands (R220): "`CLR` differs from hardware reset only in keeping `IN` and
`IN_LEN`" (R221). -/
def hardwareReset (s : State) : State := { clearAll s with inMem := [], inLen := 0#64 }

/-- What R180 does with a word, `run` being the meaning of a decoded command. -/
def acceptWord (run : Instr → State → Out) (w : CommandWord) (s : State) : Out :=
  match decode w with
  | .ok i => run i s
  | .error _ => rejectWord w s

/-- One move of the host. -/
def hostMove (run : Instr → State → Out) (m : HostMove) (s : State) : Out :=
  match m with
  | .present w => acceptWord run w s
  | .load bytes => hostLoad bytes s
  | .reset => .next (hardwareReset s)

/-- The block takes the host's next move; with none it is idle and keeps all state (R207, log 1). -/
def hostStep (run : Instr → State → Out) (s : State) : Out :=
  match s.port with
  | [] => .next s
  | m :: rest => hostMove run m { s with port := rest }

/-- `CsrRead(n)` (R182, R23): register `n` zero-extended to 64 bits, 0 for any other number. After a fault the
registers R23 leaves unspecified hold the free values of the faulted state (log 5). -/
def csrRead (s : State) : Nat → Word64
  | 0 => s.status.setWidth 64
  | 1 => s.err.setWidth 64
  | 2 => s.errInfo
  | 3 => s.resA
  | 4 => s.resB.setWidth 64
  | 5 => s.inLen
  | 6 => s.inPos
  | 7 => s.out.len
  | 8 => (BitVec.ofNat 9 s.heap.length).setWidth 64
  | 9 => (BitVec.ofNat 9 s.nodes.length).setWidth 64
  | 10 => s.root.setWidth 64
  | 11 => s.ctCnt.setWidth 64
  | 12 => (BitVec.ofNat 9 s.rlt.length).setWidth 64
  | 13 => s.maxLen.setWidth 64
  | 14 => (BitVec.ofNat 9 s.cand.length).setWidth 64
  | 15 => s.secEnd.setWidth 64
  | _ => 0#64

/-- `HostReadOut()` (R184): `OUT[0 .. OUT_LEN-1]`. -/
def hostReadOut (s : State) : List Byte :=
  (List.range s.out.len.toNat).filterMap (Memory.read s.out.mem)

end Sys2Proof.Machine
end

