-- ==== Sys2Proof/Machine/Matcher.lean ====
section
/-! DEFINITION. variable_length_code_matcher: the reverse lookup table, the candidate buffer and `VM_PUSH`
(spec/45_matcher.md R150 to R153). -/

namespace Sys2Proof.Machine

/-- `rlt_find(c)` (R150): the symbol of the entry whose whole key equals `c`. -/
def rltFind : List RltEntry → Code → Option Byte
  | [], _ => none
  | e :: t, c => if e.code = c then some e.sym else rltFind t c

/-- The reverse table while it is being loaded. -/
structure Rlt where
  /-- `RLT[0 .. RLT_CNT-1]`. -/
  entries : List RltEntry
  /-- `MAXLEN`. -/
  maxLen : BitVec 8
deriving DecidableEq, Repr

/-- `max(MAXLEN, |c|)` (R151), for `|c| <= 255`. -/
def maxLenWith (m : BitVec 8) (c : Code) : BitVec 8 :=
  if m.toNat < c.length then BitVec.ofNat 8 c.length else m

/-- `rlt_insert(c, s, p)` (R151), its tests in the order R200 gives. -/
def rltInsert (t : Rlt) (c : Code) (sym : Byte) (p : Nat) : Res Rlt :=
  if c = [] ∨ codeMax < c.length then raise .malformedMetadata (BitVec.ofNat 64 p)
  else if (rltFind t.entries c).isSome then raise .malformedMetadata (BitVec.ofNat 64 p)
  else if rltCap ≤ t.entries.length then raise .malformedMetadata (BitVec.ofNat 64 p)
  else .ok { entries := t.entries ++ [⟨c, sym⟩], maxLen := maxLenWith t.maxLen c }

/-- What one step of the scan changes, and its result. -/
structure Scan where
  /-- `CAND`. -/
  cand : Code
  /-- `OUT`, `OUT_LEN`. -/
  out : OutStream
  /-- The symbol matched by this step, if any. -/
  hit : Option Byte
deriving DecidableEq, Repr

/-- `vm_step(ch)` (R152) with the cursor at `pos`: the probe follows the append, a match is tried before the
length test (R200). -/
def vmStep (s : State) (pos : Word64) (cand : Code) (o : OutStream) (ch : Byte) : Res Scan :=
  match bitOfChar ch with
  | none => .ok ⟨cand, o, none⟩
  | some bit =>
    let c := cand ++ [bit]
    match rltFind s.rlt c with
    | some r =>
      match OutStream.put s.outCap o r with
      | .error e => .error e
      | .ok o' => .ok ⟨[], o', some r⟩
    | none =>
      if s.maxLen.toNat < c.length then raise .malformedStream pos
      else .ok ⟨c, o, none⟩

/-- The body of `VM_PUSH ch` (R153). -/
def vmPushBody (ch : Byte) (s : State) : Res State :=
  match vmStep s s.inPos s.cand s.out ch with
  | .error e => .error e
  | .ok r => .ok { s with cand := r.cand, out := r.out, resA := 0#64, resB := matchResult r.hit }

/-- The meaning of `VM_PUSH`. -/
def execVmPush (ch : Byte) (s : State) : Out := accept (.vmPush ch) (vmPushBody ch) s

end Sys2Proof.Machine
end

