-- ==== Sys2Proof/Machine/Decoder.lean ====
section
/-! DEFINITION. huffman_decoder: `DEC_PARSE`, `DEC_SCAN`, `DECODE` (spec/46_decoder.md R160 to R163). -/

namespace Sys2Proof.Machine

/-! ## Finding the marker (R161) -/

/-- `IN[p .. p+n-1]`, read in order. -/
def readSpan (s : State) : Nat → Nat → Res (List Byte)
  | 0, _ => .ok []
  | n + 1, p =>
    match memReadAt s p with
    | .error e => .error e
    | .ok b =>
      match readSpan s n (p + 1) with
      | .error e => .error e
      | .ok bs => .ok (b :: bs)

/-- The search from index `m` on, over the given number of window positions (log 11). -/
def markerFrom (s : State) : Nat → Nat → Res (Option Nat)
  | 0, _ => .ok none
  | n + 1, m =>
    match readSpan s marker.length m with
    | .error e => .error e
    | .ok w => if w = marker then .ok (some m) else markerFrom s n (m + 1)

/-- `find_marker()`: the least `m` with `m + 22 <= IN_LEN` where the marker stands. -/
def findMarker (s : State) : Res (Option Nat) :=
  markerFrom s (s.inLen.toNat + 1 - marker.length) 0

/-! ## Parsing the container (R160) -/

/-- `p < IN_LEN and MemRead(p, 1) = v`. -/
def nextIs (s : State) (p : Nat) (v : Byte) : Res Bool :=
  if p < s.inLen.toNat then
    match memReadAt s p with
    | .error e => .error e
    | .ok b => .ok (b == v)
  else .ok false

/-- The bit that stands at `p`; `none` at the end of the data and at any other character. -/
def nextBit (s : State) (p : Nat) : Res (Option Bool) :=
  if p < s.inLen.toNat then
    match memReadAt s p with
    | .error e => .error e
    | .ok b => .ok (bitOfChar b)
  else .ok none

/-- The inner loop of R160: the code bits from `p` on. The first argument is how many more bits the code may
have; one bit beyond `CODE_MAX` raises. -/
def readCode (s : State) : Nat → Nat → Code → Res (Code × Nat)
  | 0, p, c =>
    match nextBit s p with
    | .error e => .error e
    | .ok none => .ok (c, p)
    | .ok (some _) => raise .malformedMetadata (BitVec.ofNat 64 p)
  | n + 1, p, c =>
    match nextBit s p with
    | .error e => .error e
    | .ok none => .ok (c, p)
    | .ok (some bit) => readCode s n (p + 1) (c ++ [bit])

/-- One turn of the record loop of R160: the record at `p`, loaded into the table, and the position after
it. -/
def readRecord (s : State) (p : Nat) (t : Rlt) : Res (Rlt × Nat) := do
  let sym ← memReadAt s p
  if !(← nextIs s (p + 1) charColon) then raise .malformedMetadata (BitVec.ofNat 64 (p + 1))
  else
    let (c, q) ← readCode s codeMax (p + 2) []
    if !(← nextIs s q charNL) then raise .malformedMetadata (BitVec.ofNat 64 q)
    else
      let t' ← rltInsert t c sym q
      .ok (t', q + 1)

/-- The record loop of R160: `while p < IN_LEN`. The first argument bounds the turns: the bytes left. -/
def readRecords (s : State) : Nat → Nat → Rlt → Res Rlt
  | 0, _, t => .ok t
  | n + 1, p, t =>
    if p < s.inLen.toNat then
      match readRecord s p t with
      | .error e => .error e
      | .ok (t', q) => readRecords s n q t'
    else .ok t

/-- `SEC_END` for a marker at `m` (R160): a newline just before it is not part of the section. -/
def sectionEnd (s : State) (m : Nat) : Res Nat :=
  if m = 0 then .ok 0
  else match memReadAt s (m - 1) with
    | .error e => .error e
    | .ok b => .ok (if b = charNL then m - 1 else m)

/-- Where the records begin when the marker ends at `p` (R160): past the newline that must stand there. -/
def recordsStart (s : State) (p : Nat) : Res Nat :=
  if p < s.inLen.toNat then
    match memReadAt s p with
    | .error e => .error e
    | .ok b => if b = charNL then .ok (p + 1) else raise .malformedMetadata (BitVec.ofNat 64 p)
  else .ok p

/-- The container in `IN`: its table and `SEC_END` (R160). -/
def parseContainer (s : State) : Res (Rlt × Nat) := do
  match ← findMarker s with
  | none => raise .metadataMarkerNotFound s.inLen
  | some m =>
    let e ← sectionEnd s m
    let p ← recordsStart s (m + marker.length)
    let t ← readRecords s (s.inLen.toNat - p) p ⟨[], 0#8⟩
    .ok (t, e)

/-- The body of `DEC_PARSE` (R160). -/
def decParseBody (s : State) : Res State :=
  match parseContainer s with
  | .error e => .error e
  | .ok (t, e) =>
    .ok { s with
      inPos := 0#64, out := s.out.restart, rlt := t.entries, maxLen := t.maxLen, cand := [],
      secEnd := BitVec.ofNat 64 e, flags := flagsAfterParse s.flags }

/-! ## The scan (R162) -/

/-- The loop of `DEC_SCAN`: `while IN_POS < SEC_END`. The first argument bounds the turns. -/
def scanLoop (s : State) : Nat → Word64 → Code → OutStream → Res (Word64 × Code × OutStream)
  | 0, pos, c, o => .ok (pos, c, o)
  | n + 1, pos, c, o =>
    if pos < s.secEnd then
      match memRead s pos with
      | .error e => .error e
      | .ok ch =>
        match vmStep s (pos + 1#64) c o ch with
        | .error e => .error e
        | .ok r => scanLoop s n (pos + 1#64) r.cand r.out
    else .ok (pos, c, o)

/-- The body of `DEC_SCAN` (R162): bits left over at the end of the section are a malformed stream. -/
def decScanBody (s : State) : Res State :=
  match scanLoop s (s.secEnd.toNat - s.inPos.toNat) s.inPos s.cand s.out with
  | .error e => .error e
  | .ok (pos, c, o) =>
    if c ≠ [] then raise .malformedStream pos
    else .ok { s with inPos := pos, cand := c, out := o }

/-- The body of `DECODE` (R163, R66): `DEC_PARSE; DEC_SCAN` as one command. -/
def decodeBody (s : State) : Res State := do
  let s ← decParseBody s
  decScanBody s

/-! ## Commands -/

/-- The meaning of `DEC_PARSE`. -/
def execDecParse (s : State) : Out := accept .decParse decParseBody s

/-- The meaning of `DEC_SCAN`. -/
def execDecScan (s : State) : Out := accept .decScan decScanBody s

/-- The meaning of `DECODE`. -/
def execDecode (s : State) : Out := accept .decode decodeBody s

end Sys2Proof.Machine
end

