-- ==== Sys2Proof/Machine/Queue.lean ====
section
/-! DEFINITION. priority_queue_min_heap: `PQ_INSERT`, `PQ_EXTRACT_MIN`, `PQ_PEEK`
(spec/41_priority_queue.md R100 to R105). -/

namespace Sys2Proof.Machine

/-! ## Layout (R100) -/

/-- `parent(i) = floor((i - 1) / 2)`. -/
def parentIx (i : Nat) : Nat := (i - 1) / 2

/-- `left(i) = 2*i + 1`. -/
def leftIx (i : Nat) : Nat := 2 * i + 1

/-- `right(i) = 2*i + 2`. -/
def rightIx (i : Nat) : Nat := 2 * i + 2

/-- Exchange the entries at two positions of the queue. -/
def swapAt (h : List HeapEntry) (i j : Nat) : List HeapEntry :=
  match h[i]?, h[j]? with
  | some x, some y => (h.set i y).set j x
  | _, _ => h

/-! ## Procedures -/

/-- The loop of `pq_insert` (R101): the entry at `i` rises while its parent's key is strictly greater.
The first argument bounds the turns; a position is halved at each, so `i` itself is enough. -/
def siftUp : Nat → List HeapEntry → Nat → List HeapEntry
  | 0, h, _ => h
  | n + 1, h, i =>
    if i = 0 then h
    else match h[parentIx i]?, h[i]? with
      | some p, some e => if e.key < p.key then siftUp n (swapAt h (parentIx i) i) (parentIx i) else h
      | _, _ => h

/-- `pq_insert(key, node)` (R101). -/
def pqInsert (h : List HeapEntry) (e : HeapEntry) : Res (List HeapEntry) :=
  if pqCap ≤ h.length then raise .capacityExceeded 0#64
  else .ok (siftUp h.length (h ++ [e]) h.length)

/-- The child an entry at `i` may change places with (R102): the right one only when it exists and its key
is strictly smaller than the left one's; `none` when there is no child. -/
def smallerChild (h : List HeapEntry) (i : Nat) : Option Nat :=
  match h[leftIx i]? with
  | none => none
  | some l =>
    match h[rightIx i]? with
    | none => some (leftIx i)
    | some r => if r.key < l.key then some (rightIx i) else some (leftIx i)

/-- The loop of `pq_extract_min` (R102): the entry at `i` sinks while the chosen child's key is strictly
smaller. The first argument bounds the turns; a position at least doubles, so `PQ_SIZE` is enough. -/
def siftDown : Nat → List HeapEntry → Nat → List HeapEntry
  | 0, h, _ => h
  | n + 1, h, i =>
    match smallerChild h i with
    | none => h
    | some c =>
      match h[c]?, h[i]? with
      | some x, some e => if x.key < e.key then siftDown n (swapAt h c i) c else h
      | _, _ => h

/-- The queue without its root (R102): the last entry moves to the root and sinks. -/
def removeRoot (h : List HeapEntry) : List HeapEntry :=
  match h.getLast? with
  | none => []
  | some last =>
    let rest := h.dropLast
    siftDown rest.length (rest.set 0 last) 0

/-- `pq_extract_min()` (R102): the root and the queue that remains. -/
def pqExtract (h : List HeapEntry) : Res (HeapEntry × List HeapEntry) :=
  match h.head? with
  | none => raise .emptyQueue 0#64
  | some r => .ok (r, removeRoot h)

/-! ## Commands -/

/-- `PQ_INSERT key, node` (R103). -/
def pqInsertBody (key : Word64) (node : NodeIx) (s : State) : Res State :=
  match pqInsert s.heap ⟨key, node⟩ with
  | .error e => .error e
  | .ok h => .ok { s with heap := h }

/-- `PQ_EXTRACT_MIN` (R104). -/
def pqExtractMinBody (s : State) : Res State :=
  match pqExtract s.heap with
  | .error e => .error e
  | .ok (r, h) => .ok { s with heap := h, resA := r.key, resB := r.node.setWidth 16 }

/-- `PQ_PEEK` (R105). -/
def pqPeekBody (s : State) : Res State :=
  match s.heap.head? with
  | none => raise .emptyQueue 0#64
  | some r => .ok { s with resA := r.key, resB := r.node.setWidth 16 }

/-- The meaning of `PQ_INSERT`. -/
def execPqInsert (key : Word64) (node : NodeIx) (s : State) : Out :=
  accept (.pqInsert key node) (pqInsertBody key node) s

/-- The meaning of `PQ_EXTRACT_MIN`. -/
def execPqExtractMin (s : State) : Out := accept .pqExtractMin pqExtractMinBody s

/-- The meaning of `PQ_PEEK`. -/
def execPqPeek (s : State) : Out := accept .pqPeek pqPeekBody s

end Sys2Proof.Machine
end

