-- ==== Sys2Proof/Machine/Tree.lean ====
section
/-! DEFINITION. prefix_tree_builder: `IN_REWIND`, `FREQ_COUNT` (spec/40_frequency_counter.md R90, R91) and
`TREE_BUILD` (spec/42_tree_builder.md R120, R121). -/

namespace Sys2Proof.Machine

/-! ## The frequency counter -/

/-- `IN_POS <- 0` (R91). -/
def rewindBody (s : State) : Res State := .ok { s with inPos := 0#64 }

/-- `FREQ[b] <- FREQ[b] + 1` (R90). -/
def bump (f : FreqTable) (b : Byte) : FreqTable := tset f b (tget f b + 1#64)

/-- The loop of `FREQ_COUNT`: `while IN_POS < IN_LEN` (R90). The first argument bounds the turns: the
bytes from the cursor to the end. -/
def countLoop (s : State) : Nat → Word64 → FreqTable → Res (Word64 × FreqTable)
  | 0, pos, f => .ok (pos, f)
  | n + 1, pos, f =>
    if pos < s.inLen then
      match memRead s pos with
      | .error e => .error e
      | .ok b => countLoop s n (pos + 1#64) (bump f b)
    else .ok (pos, f)

/-- Every counter 0. -/
def zeroFreq : FreqTable := Vector.replicate 256 0#64

/-- The body of `FREQ_COUNT` (R90). -/
def freqCountBody (s : State) : Res State :=
  match countLoop s (s.inLen.toNat - s.inPos.toNat) s.inPos zeroFreq with
  | .error e => .error e
  | .ok (pos, f) => .ok { s with inPos := pos, freq := f, flags := flagsAfterCount s.flags }

/-! ## The tree builder -/

/-- `e1.key + e2.key` (R121, R92): exact while it fits in 64 bits, beyond that a free value (log 7). -/
def weightSum (x y : Word64) : Word64 :=
  if x.toNat + y.toNat < 2 ^ 64 then x + y else Config.weightOverflow x y

/-- The queue and the arena while a tree is being built. -/
structure Forest where
  /-- `HEAP`. -/
  heap : List HeapEntry
  /-- `NODE`. -/
  nodes : List Node
deriving DecidableEq, Repr

/-- Append a node to the arena and put it in the queue: the common end of R120 and R121. -/
def addNode (g : Forest) (n : Node) (weight : Word64) : Res Forest :=
  match pqInsert g.heap ⟨weight, BitVec.ofNat 9 g.nodes.length⟩ with
  | .error e => .error e
  | .ok h => .ok ⟨h, g.nodes ++ [n]⟩

/-- `load_leaves()` over the pairs `(b, FREQ[b])` that remain to be visited (R120). -/
def loadLeaves : List (Byte × Word64) → Forest → Res Forest
  | [], g => .ok g
  | (b, w) :: rest, g =>
    if w = 0#64 then loadLeaves rest g
    else match addNode g (.leaf b w) w with
      | .error e => .error e
      | .ok g' => loadLeaves rest g'

/-- One merge (R121): the first extracted is the left child, the second the right. -/
def mergeTwo (g : Forest) : Res Forest :=
  match pqExtract g.heap with
  | .error e => .error e
  | .ok (e1, h1) =>
    match pqExtract h1 with
    | .error e => .error e
    | .ok (e2, h2) =>
      let w := weightSum e1.key e2.key
      addNode ⟨h2, g.nodes⟩ (.internal w e1.node e2.node) w

/-- The loop of `TREE_BUILD` (R121): the arena, and the root's index when there is a tree. The first
argument bounds the turns; each merge lowers `PQ_SIZE` by one, so `PQ_SIZE` is enough. -/
def mergeLoop : Nat → Forest → Res (List Node × Option NodeIx)
  | 0, g => .ok (g.nodes, none)
  | n + 1, g =>
    match g.heap with
    | [] => .ok (g.nodes, none)
    | [e] => .ok (g.nodes, some e.node)
    | _ :: _ :: _ =>
      match mergeTwo g with
      | .error e => .error e
      | .ok g' => mergeLoop n g'

/-- The tree of a frequency table: a function of `FREQ` alone (R122). -/
def buildTree (f : FreqTable) : Res (List Node × Option NodeIx) :=
  match loadLeaves (entries f) ⟨[], []⟩ with
  | .error e => .error e
  | .ok g => mergeLoop g.heap.length g

/-- The body of `TREE_BUILD` (R121): the queue is emptied first and left empty. -/
def treeBuildBody (s : State) : Res State :=
  match buildTree s.freq with
  | .error e => .error e
  | .ok (nodes, root) =>
    .ok { s with heap := [], nodes := nodes, root := root.getD 0#9, flags := flagsAfterBuild root.isSome s.flags }

/-! ## Commands -/

/-- The meaning of `IN_REWIND`. -/
def execInRewind (s : State) : Out := accept .inRewind rewindBody s

/-- The meaning of `FREQ_COUNT`. -/
def execFreqCount (s : State) : Out := accept .freqCount freqCountBody s

/-- The meaning of `TREE_BUILD`. -/
def execTreeBuild (s : State) : Out := accept .treeBuild treeBuildBody s

end Sys2Proof.Machine
end

