-- ==== Sys2Proof/Machine/Encoder.lean ====
section
/-! DEFINITION. The bitstream encoder: `EMIT`, `ENCODE` (spec/44_encoder.md R140 to R142; the container of
spec/30_encoding.md R70, R71). -/

namespace Sys2Proof.Machine

/-- `emit_code(b)` (R140). -/
def emitCode (s : State) (o : OutStream) (b : Byte) : Res OutStream :=
  match ctLookup s.code b with
  | none => raise .sequenceError 0x23#64
  | some c => OutStream.putBits s.outCap o c

/-- The first loop of `EMIT`: `while IN_POS < IN_LEN` (R141). The first argument bounds the turns. -/
def emitLoop (s : State) : Nat → Word64 → OutStream → Res (Word64 × OutStream)
  | 0, pos, o => .ok (pos, o)
  | n + 1, pos, o =>
    if pos < s.inLen then
      match memRead s pos with
      | .error e => .error e
      | .ok b =>
        match emitCode s o b with
        | .error e => .error e
        | .ok o' => emitLoop s n (pos + 1#64) o'
    else .ok (pos, o)

/-- A metadata record (R71): the symbol, `':'`, the code, `NL`. -/
def recordBytes (sym : Byte) (c : Code) : List Byte :=
  sym :: charColon :: (c.map charOfBit ++ [charNL])

/-- The records of the valid ones among the given entries of `CODE`, in that order (R71, R141). -/
def tableBytes : List (Byte × Option Code) → List Byte
  | [] => []
  | (_, none) :: rest => tableBytes rest
  | (b, some c) :: rest => recordBytes b c ++ tableBytes rest

/-- What `EMIT` writes after the bit section: `NL`, the marker, `NL`, the records (R70, R141). -/
def trailerBytes (t : CodeTable) : List Byte :=
  charNL :: (marker ++ charNL :: tableBytes (entries t))

/-- The body of `EMIT` (R141). -/
def emitBody (s : State) : Res State :=
  match emitLoop s (s.inLen.toNat - s.inPos.toNat) s.inPos s.out.restart with
  | .error e => .error e
  | .ok (pos, o) =>
    match OutStream.puts s.outCap o (trailerBytes s.code) with
    | .error e => .error e
    | .ok o' => .ok { s with inPos := pos, out := o' }

/-- The body of `ENCODE` (R142, R66): `IN_REWIND; FREQ_COUNT; IN_REWIND; TREE_BUILD; CODE_GEN; EMIT` as one
command. -/
def encodeBody (s : State) : Res State := do
  let s ← rewindBody s
  let s ← freqCountBody s
  let s ← rewindBody s
  let s ← treeBuildBody s
  let s ← codeGenBody s
  emitBody s

/-- The meaning of `EMIT`. -/
def execEmit (s : State) : Out := accept .emit emitBody s

/-- The meaning of `ENCODE`. -/
def execEncode (s : State) : Out := accept .encode encodeBody s

end Sys2Proof.Machine
end

