-- ==== Sys2Proof/Machine/Dispatch.lean ====
section
/-! DEFINITION. The meaning of every command, one arm per constructor. -/

namespace Sys2Proof.Machine

def exec (i : Instr) (s : State) : Host.Outcome State Fault Refusal :=
  match i with
  | .clr => Sys2Proof.Machine.execClr s
  | .inRewind => Sys2Proof.Machine.execInRewind s
  | .pqInsert key node => Sys2Proof.Machine.execPqInsert key node s
  | .pqExtractMin => Sys2Proof.Machine.execPqExtractMin s
  | .pqPeek => Sys2Proof.Machine.execPqPeek s
  | .freqCount => Sys2Proof.Machine.execFreqCount s
  | .treeBuild => Sys2Proof.Machine.execTreeBuild s
  | .codeGen => Sys2Proof.Machine.execCodeGen s
  | .emit => Sys2Proof.Machine.execEmit s
  | .encode => Sys2Proof.Machine.execEncode s
  | .decParse => Sys2Proof.Machine.execDecParse s
  | .decScan => Sys2Proof.Machine.execDecScan s
  | .vmPush ch => Sys2Proof.Machine.execVmPush ch s
  | .decode => Sys2Proof.Machine.execDecode s

end Sys2Proof.Machine
end

