-- ==== Sys2Proof/Machine/Step.lean ====
section
/-! DEFINITION. One step of the block: it takes the host's next move (spec/47_control.md R180, R185), and how a
word is placed for the next step (log 1). -/

namespace Sys2Proof.Machine

/-- One step. -/
def step (s : State) : Host.Outcome State Fault Refusal := hostStep exec s

/-- The state in which the host is about to present the word `w` (as spec/opcode_table.json numbers its bits),
before the moves it had already planned. -/
def State.withFetchWord (s : State) (nbits w : Nat) : State :=
  { s with port := .present (tableWord nbits w) :: s.port }

end Sys2Proof.Machine
end

