-- ==== Sys2Proof/Safety.lean ====
section
/-! DEFINITION. The terms claims are stated in: what the streams hold, heap order (spec/41_priority_queue.md
R106), prefix codes (spec/43_code_table.md R133), trees (spec/10_state.md R15), the container
(spec/30_encoding.md R70, R71), and a good state (spec/10_state.md R29). -/

namespace Sys2Proof.Machine

/-! ## Streams -/

/-- `IN` holds the byte sequence `S` and `IN_LEN` its length, as `HostLoad(S)` leaves them (R183). -/
abbrev Loaded (s : State) (S : List Byte) : Prop :=
  s.inMem = Memory.ofBytes S ∧ s.inLen = BitVec.ofNat 64 S.length ∧ S.length < 2 ^ 64

/-- The host reports no failure for a position of `IN[lo .. hi-1]` (`IN_FAULT`, R5). -/
abbrev Readable (s : State) (lo hi : Word64) : Prop := ∀ a ∈ s.inFault, ¬ (lo ≤ a ∧ a < hi)

/-- Every byte of `OUT` below `OUT_LEN` holds a value, and `OUT` is a stretch of bytes from index 0. -/
abbrev OutFilled (o : OutStream) : Prop :=
  o.mem.map Prod.fst = List.range o.mem.length ∧ o.len.toNat ≤ o.mem.length

/-! ## Heap order (R106) -/

/-- The key at a position of the queue. -/
def keyAt (h : List HeapEntry) (i : Nat) : Word64 := (h[i]?.map HeapEntry.key).getD 0#64

/-- No entry's key is smaller than its parent's. -/
abbrev HeapOrdered (h : List HeapEntry) : Prop :=
  ∀ i < h.length, 0 < i → keyAt h (parentIx i) ≤ keyAt h i

/-- From the queue `g` to the queue `h` the entry `e` passes through the positions `q 0`, ..., `q k`: each entry
on the way moves one position back, `e` ends at the last, and every other position is as before. -/
def Passes (g h : List HeapEntry) (e : HeapEntry) (q : Nat → Nat) (k : Nat) : Prop :=
  (∀ j < k, h[q j]? = g[q (j + 1)]?) ∧ h[q k]? = some e ∧ ∀ i, (∀ j ≤ k, i ≠ q j) → h[i]? = g[i]?

/-- `e` enters the queue `g` as its last entry and rises past exactly the parents whose key is strictly greater
(R101). -/
def Rises (g h : List HeapEntry) (e : HeapEntry) : Prop :=
  ∃ (q : Nat → Nat) (k : Nat), q 0 = g.length ∧ Passes g h e q k ∧
    (∀ j < k, 0 < q j ∧ q (j + 1) = parentIx (q j) ∧ e.key < keyAt g (q (j + 1))) ∧
    (0 < q k → keyAt g (parentIx (q k)) ≤ e.key)

/-- The child an entry at `i` is compared with (R102): the right one when it is strictly smaller than the left,
otherwise the left. -/
def LesserChild (g : List HeapEntry) (i c : Nat) : Prop :=
  c < g.length ∧
  (c = leftIx i ∧ (rightIx i < g.length → keyAt g (leftIx i) ≤ keyAt g (rightIx i)) ∨
   c = rightIx i ∧ keyAt g (rightIx i) < keyAt g (leftIx i))

/-- `e` takes the place of the root of the queue `g` and sinks past exactly the lesser children whose key is
strictly smaller (R102). -/
def Sinks (g h : List HeapEntry) (e : HeapEntry) : Prop :=
  ∃ (q : Nat → Nat) (k : Nat), q 0 = 0 ∧ Passes g h e q k ∧
    (∀ j < k, LesserChild g (q j) (q (j + 1)) ∧ keyAt g (q (j + 1)) < e.key) ∧
    (∀ c, LesserChild g (q k) c → e.key ≤ keyAt g c)

/-- The entries in the order successive extractions return them (R102), at most `n` of them. -/
def drain : Nat → List HeapEntry → List HeapEntry
  | 0, _ => []
  | n + 1, h =>
    match pqExtract h with
    | .error _ => []
    | .ok (r, h') => r :: drain n h'

/-! ## Codes -/

/-- No code of the table is a prefix of another byte value's code (R133, R68). -/
def PrefixCode (t : CodeTable) : Prop :=
  ∀ b₁ b₂ c₁ c₂, b₁ ≠ b₂ → ctLookup t b₁ = some c₁ → ctLookup t b₂ = some c₂ → ¬ c₁ <+: c₂

/-- Every valid entry has `1 <= len <= 255` (R16, R134). -/
def CodeLengths (t : CodeTable) : Prop :=
  ∀ b c, ctLookup t b = some c → 1 ≤ c.length ∧ c.length ≤ 255

/-- No two entries hold the same key, and every key has 1 to 255 bits (R17). -/
abbrev RltKeys (t : List RltEntry) : Prop :=
  (t.map RltEntry.code).Nodup ∧ ∀ e ∈ t, 1 ≤ e.code.length ∧ e.code.length ≤ 255

/-- An entry of the reverse table of which no other key is a prefix, so that it can match; in a table that is a
prefix code every entry is one (R154). -/
abbrev Matchable (t : List RltEntry) (e : RltEntry) : Prop :=
  e ∈ t ∧ ∀ x ∈ t, x.code <+: e.code → x = e

/-- The longest key, 0 when there is none (R17). -/
def longestKey (t : List RltEntry) : Nat := (t.map fun e => e.code.length).foldr max 0

/-! ## Trees (R15, R67) -/

/-- The node reached from the node with index `ix` by the descents of a code: left for 0, right for 1. -/
def descend (nodes : List Node) (ix : NodeIx) : Code → Option Node
  | [] => nodes[ix.toNat]?
  | c :: cs =>
    match nodes[ix.toNat]? with
    | some (.internal _ l r) => descend nodes (if c then r else l) cs
    | _ => none

/-- The byte value of a leaf, `none` for an internal node. -/
def leafSym : Node → Option Byte
  | .leaf b _ => some b
  | .internal _ _ _ => none

/-- The weight of a node. -/
def nodeFreq : Node → Word64
  | .leaf _ f => f
  | .internal f _ _ => f

/-- The arena below the root is a tree of at most 256 levels whose leaves hold distinct byte values. -/
def TreeOk (nodes : List Node) (root : NodeIx) : Prop :=
  ∃ rs, treeRecords nodes root = .ok rs ∧ (rs.map Prod.fst).Nodup

/-- The byte values with a nonzero count, ascending (R120). -/
def presentBytes (f : FreqTable) : List Byte := byteValues.filter fun b => tget f b ≠ 0#64

/-- The number of bytes counted. -/
def totalCount (f : FreqTable) : Nat := (byteValues.map fun b => (tget f b).toNat).sum

/-! ## The container (R70, R71) -/

/-- The characters of a bit-string. -/
def bitChars (c : Code) : List Byte := c.map charOfBit

/-- The encoded bit section of `S` (R70): "one run per encoded byte, concatenated". -/
def bitSection (t : CodeTable) (S : List Byte) : List Byte :=
  S.flatMap fun b => bitChars ((ctLookup t b).getD [])

/-- One metadata record: symbol, `':'`, code, newline (R71). -/
def metadataRecord (b : Byte) (c : Code) : List Byte := [b, charColon] ++ bitChars c ++ [charNL]

/-- The metadata records of a code table in ascending order of byte value (R70, R71). -/
def metadataRecords (t : CodeTable) : List Byte :=
  byteValues.flatMap fun b =>
    match ctLookup t b with
    | none => []
    | some c => metadataRecord b c

/-- The container of `S` under the code table `t` (R70). -/
def container (t : CodeTable) (S : List Byte) : List Byte :=
  bitSection t S ++ [charNL] ++ marker ++ [charNL] ++ metadataRecords t

/-- What may follow the marker (R73): nothing, or a newline and the records. -/
def tailBytes : Option (List RltEntry) → List Byte
  | none => []
  | some recs => [charNL] ++ recs.flatMap fun e => metadataRecord e.sym e.code

/-- The newline that may stand before the marker (R73). -/
def sectionNL (nl : Bool) : List Byte := if nl then [charNL] else []

/-- A container as the decoder reads it (R73): section, a newline or none, marker, tail. -/
def containerForm (sec : List Byte) (nl : Bool) (tail : Option (List RltEntry)) : List Byte :=
  sec ++ sectionNL nl ++ marker ++ tailBytes tail

/-- What R73 asks of the records: at most 256, no code twice, 1 to 255 bits each. -/
abbrev RecordsOk (recs : List RltEntry) : Prop := recs.length ≤ 256 ∧ RltKeys recs

/-- The marker stands at index `m` of `S` (R161). -/
abbrev MarkerAt (S : List Byte) (m : Nat) : Prop := (S.drop m).take marker.length = marker

/-- The index `m` is the first at which the marker stands (R161). -/
abbrev FirstMarker (S : List Byte) (m : Nat) : Prop := MarkerAt S m ∧ ∀ k < m, ¬ MarkerAt S k

/-- The container of R73 is read one way only: a newline just before the marker is not part of the section, and
the marker meant is the first. -/
abbrev SectionMeant (sec : List Byte) (nl : Bool) (S : List Byte) : Prop :=
  (nl = false → sec.getLast? ≠ some charNL) ∧ FirstMarker S (sec ++ sectionNL nl).length

/-- The bits of a section, every byte other than `'0'` and `'1'` dropped (R73). -/
def sectionBits (sec : List Byte) : Code := sec.filterMap bitOfChar

/-! ## The scan (R152, R162) -/

/-- The reverse table holds distinct keys of 1 to `MAXLEN` bits, none a prefix of the candidate. -/
abbrev ScanReady (s : State) : Prop :=
  RltKeys s.rlt ∧ (∀ e ∈ s.rlt, e.code.length ≤ s.maxLen.toNat) ∧ ∀ e ∈ s.rlt, ¬ e.code <+: s.cand

/-- The characters of the encoded section from the cursor on (R162), where `IN` holds `S`. -/
def charsLeft (s : State) (S : List Byte) : List Byte := (S.take s.secEnd.toNat).drop s.inPos.toNat

/-- The candidate's bits and those of the characters `chars` are the keys of `syms` one after another and then
`rest`, which no key begins; the output has room for the symbols. -/
abbrev ScanSplit (s : State) (chars : List Byte) (syms : List RltEntry) (rest : Code) : Prop :=
  s.cand ++ sectionBits chars = syms.flatMap RltEntry.code ++ rest ∧ (∀ e ∈ syms, Matchable s.rlt e) ∧
  (∀ e ∈ s.rlt, ¬ e.code <+: rest) ∧ s.out.len.toNat + syms.length ≤ s.outCap.toNat

/-! ## Ends in a fault (R190, R201) -/

/-- A command from `s` ends with the fault of this number and `ERR_INFO`, no output, and the input as it was. -/
abbrev FaultsWith (o : Out) (s : State) (err : Byte) (info : Word64) : Prop :=
  ∃ t, o = .next t ∧ t.err = err ∧ t.errInfo = info ∧ t.out.len = 0#64 ∧ t.inMem = s.inMem ∧ t.inLen = s.inLen

/-- A command from `s` ends with `IOFailure`, whose `ERR_INFO` has the direction in bit 63 (0 read, 1 write) and
the position in bits 62:0 (R43, R45, R190), with no output and the input as it was. -/
abbrev IoFails (o : Out) (s : State) (write : Bool) (pos : Word64) : Prop :=
  ∃ info, FaultsWith o s 1#8 info ∧ info.getLsbD 63 = write ∧ info.toNat % 2 ^ 63 = pos.toNat % 2 ^ 63

/-- Commands issued one after another, up to the first that ends in a fault (R66). -/
def runParts : List Instr → State → Out
  | [], s => .next s
  | i :: is, s =>
    match exec i s with
    | .next t => if t.err = 0#8 then runParts is t else .next t
    | .fault f => .fault f
    | .refused r => .refused r

/-- The node made when the arena holds `n` is what the queue's commands give (R120, R121, R122), where `Q n` is the
queue at that time: a leaf is inserted by `PQ_INSERT`; an internal node's children are the nodes two
`PQ_EXTRACT_MIN` return, the first on the left, and it is inserted with their keys' sum (a sum that does not fit
is free, log 7). -/
def MadeByQueue (s : State) (Q : Nat → List HeapEntry) (n : Nat) : Node → Prop
  | .leaf _ w =>
    exec (.pqInsert w (BitVec.ofNat 9 n)) { s with heap := Q n } = .next { s with heap := Q (n + 1) }
  | .internal w l r =>
    ∃ u v, exec .pqExtractMin { s with heap := Q n } = .next u ∧ l = u.resB.setWidth 9 ∧
      exec .pqExtractMin u = .next v ∧ r = v.resB.setWidth 9 ∧
      (u.resA.toNat + v.resA.toNat < 2 ^ 64 → w = u.resA + v.resA) ∧
      exec (.pqInsert w (BitVec.ofNat 9 n)) v = .next { v with heap := Q (n + 1) }

/-! ## Good states (R29) -/

/-- The bounds of R29 on cursors and counts, with what R18 and R21 say of every state without a fault. -/
abbrev Bounds (s : State) : Prop :=
  s.inPos ≤ s.inLen ∧ s.out.len ≤ s.outCap ∧ s.heap.length ≤ 256 ∧ s.rlt.length ≤ 256 ∧
  (s.flags.rootValid = true → s.flags.treeValid = true) ∧
  (s.flags.rltValid = true → s.secEnd ≤ s.inLen) ∧ s.cand.length ≤ s.maxLen.toNat ∧ s.errInfo = 0#64

/-- The bounds of R29 on the arena and the count of the table made from it. -/
abbrev ArenaBounds (s : State) : Prop :=
  s.nodes.length ≤ 511 ∧ (s.flags.rootValid = true → s.root.toNat < s.nodes.length) ∧ s.ctCnt.toNat ≤ 256

/-- The streams are as the host and the block leave them. -/
def StreamsOk (s : State) : Prop := (∃ S, Loaded s S) ∧ OutFilled s.out

/-- What R29 says of every state with `ERR = 0` that a run reaches, with what it needs to be kept by every
step. -/
def Good (s : State) : Prop :=
  StreamsOk s ∧
  (s.err ≠ 0#8 → s.out.len = 0#64) ∧
  (s.err = 0#8 →
    Bounds s ∧ ArenaBounds s ∧ HeapOrdered s.heap ∧
    (s.flags.ctValid = true → PrefixCode s.code ∧ CodeLengths s.code) ∧
    (s.flags.rltValid = true → RltKeys s.rlt) ∧
    (s.flags.rootValid = true → TreeOk s.nodes s.root))

/-! ## Frames -/

/-- What a command that completes without a fault may write: `t` is `s` with the named pieces of state taken
from `t`, and nothing else (the rows "Writes" of the commands' rules). For `CLR` (R181) the pieces it zeroes
stand at 0, the arrays whose count is zeroed empty, the contents of `OUT`, `FREQ` and `CODE`, which become
unspecified, are left open, as is the model's own `freeCtr` (log 6). -/
def Frame (s t : State) : Instr → Prop
  | .clr => t = { s with
      inPos := 0#64, out := ⟨t.out.mem, 0#64⟩, freq := t.freq, heap := [], nodes := [], root := 0#9,
      code := t.code, ctCnt := 0#9, rlt := [], maxLen := 0#8, cand := [], secEnd := 0#64,
      flags := ⟨false, false, false, false, false⟩, err := 0#8, errInfo := 0#64, resA := 0#64, resB := 0#16,
      freeCtr := t.freeCtr }
  | .inRewind => t = { s with inPos := t.inPos }
  | .pqInsert _ _ => t = { s with heap := t.heap }
  | .pqExtractMin => t = { s with heap := t.heap, resA := t.resA, resB := t.resB }
  | .pqPeek => t = { s with resA := t.resA, resB := t.resB }
  | .freqCount => t = { s with
      inPos := t.inPos, freq := t.freq,
      flags := { s.flags with freqValid := true, treeValid := false, rootValid := false, ctValid := false } }
  | .treeBuild => t = { s with
      heap := [], nodes := t.nodes, root := t.root,
      flags := { s.flags with treeValid := true, rootValid := t.flags.rootValid, ctValid := false } }
  | .codeGen => t = { s with
      code := t.code, ctCnt := t.ctCnt, nodes := [],
      flags := { s.flags with treeValid := false, rootValid := false, ctValid := true } }
  | .emit => t = { s with inPos := t.inPos, out := t.out }
  | .encode => t = { s with
      inPos := t.inPos, out := t.out, freq := t.freq, heap := [], nodes := [], root := t.root,
      code := t.code, ctCnt := t.ctCnt,
      flags := { s.flags with freqValid := true, treeValid := false, rootValid := false, ctValid := true } }
  | .decParse => t = { s with
      inPos := t.inPos, out := t.out, rlt := t.rlt, maxLen := t.maxLen, cand := t.cand, secEnd := t.secEnd,
      flags := { s.flags with rltValid := true } }
  | .decScan => t = { s with inPos := t.inPos, out := t.out, cand := t.cand }
  | .vmPush _ => t = { s with out := t.out, cand := t.cand, resA := t.resA, resB := t.resB }
  | .decode => t = { s with
      inPos := t.inPos, out := t.out, rlt := t.rlt, maxLen := t.maxLen, cand := t.cand, secEnd := t.secEnd,
      flags := { s.flags with rltValid := true } }

/-- The index in `OUT` from which a command stores: 0 for a command that empties the stream first, `OUT_LEN` for
one that appends; the stored bytes end at the new `OUT_LEN`. `none`: the command stores nothing. -/
def storesFrom (s : State) : Instr → Option Nat
  | .emit => some 0
  | .encode => some 0
  | .decode => some 0
  | .decScan => some s.out.len.toNat
  | .vmPush _ => some s.out.len.toNat
  | .clr => none
  | .inRewind => none
  | .pqInsert _ _ => none
  | .pqExtractMin => none
  | .pqPeek => none
  | .freqCount => none
  | .treeBuild => none
  | .codeGen => none
  | .decParse => none

end Sys2Proof.Machine
end

