-- ==== Sys2Proof/Certificates/Slice0/Obligations.lean ====
section
/-! DEFINITION. The statements for the provers. Each cites the rules of spec/ it formalises; a clause that is the
model's own choice is marked MODEL'S CHOICE with its log entry. -/

open Sys2Proof Sys2Proof.Machine

/-! ## Encoding (spec/30_encoding.md) -/

/-- R60 to R62: the decoder gives back every command from its word, with every operand at every value. -/
def Obligations.DecodeOfEncode : Prop := ∀ i : Instr, decode (encode i) = .ok i

/-- R60 to R64: a word that decodes is the word of the command it decodes to, so no bit of it is dropped. -/
def Obligations.EncodeOfDecode : Prop := ∀ (w : CommandWord) (i : Instr), decode w = .ok i → encode i = w

/-- R63: the decoder accepts exactly the words that a row of the opcode table admits by its mask and match. -/
def Obligations.DecoderAcceptsExactlyLegalWords : Prop :=
  ∀ w : CommandWord, (∃ i, decode w = .ok i) ↔ legal w = true

/-- Words written out in spec/95_test_vectors.md and spec/45_matcher.md R153, one or more per unit. -/
def Obligations.SpecWordsDecode : Prop :=
  decode 0x010000000000000000000000#96 = .ok .clr ∧
  decode 0x020000000000000000000000#96 = .ok .inRewind ∧
  decode 0x100000010000000000000003#96 = .ok (.pqInsert 3#64 1#9) ∧
  decode 0x110000000000000000000000#96 = .ok .pqExtractMin ∧
  decode 0x210000000000000000000000#96 = .ok .treeBuild ∧
  decode 0x220000000000000000000000#96 = .ok .codeGen ∧
  decode 0x2F0000000000000000000000#96 = .ok .encode ∧
  decode 0x3F0000000000000000000000#96 = .ok .decode ∧
  decode 0x320000310000000000000000#96 = .ok (.vmPush 0x31#8) ∧
  decode 0x100002000000000000000005#96 = .error .operandBNonzero ∧
  decode 0x320000300000000000000001#96 = .error .operandANonzero ∧
  decode 0x010100000000000000000000#96 = .error .reservedNonzero ∧
  decode 0x030000000000000000000000#96 = .error .undefinedOpcode

/-! ## Dispatch, faults and return (spec/47_control.md, spec/60_exceptions.md) -/

/-- R180: a presented word that decodes to `i` is executed as `i`, the move being taken from the port; a word placed
by `withFetchWord` is the next one executed; and with no move of the host the block is idle and keeps all state
(R207). The port is MODEL'S CHOICE (log 1). -/
def Obligations.StepRunsDecodedCommand : Prop :=
  (∀ (s : State) (w : CommandWord) (i : Instr) (rest : List HostMove),
    s.port = .present w :: rest → decode w = .ok i → step s = exec i { s with port := rest }) ∧
  (∀ (s : State) (n w : Nat) (i : Instr),
    decodeTableWord n w = some i → step (s.withFetchWord n w) = exec i s) ∧
  (∀ s : State, s.port = [] → step s = .next s)

/-- R198, R63, R201, R202: a word that is not legal, presented with `ERR = 0`, raises `IllegalCommand` with its `op`
byte. That words are taken from the field `port`, and the clause on it, are MODEL'S CHOICE (log 1). -/
def Obligations.IllegalWordRaisesIllegalCommand : Prop :=
  ∀ (s : State) (w : CommandWord) (rest : List HostMove),
    s.port = .present w :: rest → s.err = 0#8 → legal w = false →
    ∃ t, step s = .next t ∧ t.err = 8#8 ∧ t.errInfo = (w.extractLsb' 88 8).setWidth 64 ∧
      t.out.len = 0#64 ∧ t.inMem = s.inMem ∧ t.inLen = s.inLen ∧ t.port = rest

/-- R204, R180: while a fault is recorded no word but `CLR` changes anything; `CLR` clears the fault. That words
are taken from the field `port`, which alone moves on, is MODEL'S CHOICE (log 1). -/
def Obligations.FaultedBlockDiscardsEveryWordButClr : Prop :=
  ∀ s : State, s.err ≠ 0#8 →
    (∀ i : Instr, i ≠ .clr → exec i s = .next s) ∧
    (∀ (w : CommandWord) (rest : List HostMove), s.port = .present w :: rest →
      w ≠ 0x010000000000000000000000#96 → step s = .next { s with port := rest }) ∧
    (∀ rest : List HostMove, s.port = .present 0x010000000000000000000000#96 :: rest →
      ∃ t, step s = .next t ∧ t.err = 0#8 ∧ t.errInfo = 0#64)

/-- R197, R26: each command that requires a phase flag raises `SequenceError` with its `op` when the flag is
clear. -/
def Obligations.ClearPhaseFlagRaisesSequenceError : Prop :=
  ∀ s : State, s.err = 0#8 →
    let faulted (i : Instr) (op : Byte) : Prop :=
      ∃ t, exec i s = .next t ∧ t.err = 7#8 ∧ t.errInfo = op.setWidth 64 ∧ t.out.len = 0#64 ∧
        t.inMem = s.inMem ∧ t.inLen = s.inLen
    (s.flags.freqValid = false → faulted .treeBuild 0x21#8) ∧
    (s.flags.treeValid = false → faulted .codeGen 0x22#8) ∧
    (s.flags.ctValid = false → faulted .emit 0x23#8) ∧
    (s.flags.rltValid = false → faulted .decScan 0x31#8 ∧ ∀ ch, faulted (.vmPush ch) 0x32#8)

/-- R201, with the numbers of R190: what a raise writes, in every state. -/
def Obligations.FaultEntryWritesFaultRegisters : Prop :=
  ∀ (s : State) (k : FaultKind) (info : Word64),
    ∃ t, settle s (raise k info) = .next t ∧
      t.err = (match k with
        | .ioFailure => 1#8
        | .capacityExceeded => 2#8
        | .emptyQueue => 3#8
        | .metadataMarkerNotFound => 4#8
        | .malformedStream => 5#8
        | .malformedMetadata => 6#8
        | .sequenceError => 7#8
        | .illegalCommand => 8#8) ∧
      t.errInfo = info ∧ t.status.getLsbD 1 = true ∧ t.status.getLsbD 0 = false ∧
      t.out.len = 0#64 ∧ hostReadOut t = []

/-- R201, R202: a command that ends in a fault leaves no output and the input as it was. -/
def Obligations.FaultingCommandLeavesNoOutput : Prop :=
  ∀ (i : Instr) (s t : State), exec i s = .next t → s.err = 0#8 → t.err ≠ 0#8 →
    t.out.len = 0#64 ∧ hostReadOut t = [] ∧ t.inMem = s.inMem ∧ t.inLen = s.inLen

/-- R190, column "raised by", R192, R193, R197: which commands raise which kind, when the queue's two are raised, and
the `op` byte of a `SequenceError`; no command raises `IllegalCommand`, which only a word that is not legal does. -/
def Obligations.EachFaultComesOnlyFromItsCommands : Prop :=
  ∀ (i : Instr) (s t : State), exec i s = .next t → s.err = 0#8 →
    (t.err = 1#8 → i = .freqCount ∨ i = .emit ∨ i = .encode ∨ i = .decParse ∨ i = .decScan ∨ i = .decode ∨
      ∃ ch, i = .vmPush ch) ∧
    (t.err = 2#8 → ∃ key node, i = .pqInsert key node ∧ 256 ≤ s.heap.length) ∧
    (t.err = 3#8 → (i = .pqExtractMin ∨ i = .pqPeek) ∧ s.heap = []) ∧
    (t.err = 4#8 → (i = .decParse ∨ i = .decode) ∧ t.errInfo = s.inLen) ∧
    (t.err = 5#8 → i = .decScan ∨ i = .decode ∨ ∃ ch, i = .vmPush ch) ∧
    (t.err = 6#8 → i = .decParse ∨ i = .decode) ∧
    (t.err = 7#8 → (i = .treeBuild ∨ i = .codeGen ∨ i = .emit ∨ i = .decScan ∨ ∃ ch, i = .vmPush ch) ∧
      t.errInfo = i.opcode.setWidth 64) ∧
    t.err.toNat ≤ 7

/-- R28, R220: every count, cursor, flag and register is 0 after reset, and so is every CSR. The values of the
model's own fields and the parameters' defaults are MODEL'S CHOICE (log 1, log 2). -/
def Obligations.ResetLeavesCountsAndRegistersZero : Prop :=
  State.reset.inLen = 0#64 ∧ State.reset.inPos = 0#64 ∧ State.reset.out.len = 0#64 ∧
  State.reset.secEnd = 0#64 ∧ State.reset.heap.length = 0 ∧ State.reset.nodes.length = 0 ∧
  State.reset.root = 0#9 ∧ State.reset.ctCnt = 0#9 ∧ State.reset.rlt.length = 0 ∧
  State.reset.maxLen = 0#8 ∧ State.reset.cand.length = 0 ∧ State.reset.status = 0#32 ∧
  State.reset.err = 0#8 ∧ State.reset.errInfo = 0#64 ∧ State.reset.resA = 0#64 ∧
  State.reset.resB = 0#16 ∧ ∀ n, csrRead State.reset n = 0#64

/-- R181, R203, R220, R221: `CLR` completes in every state, with or without a recorded fault, and gives every piece of
state its reset value except `IN` and `IN_LEN`; hardware reset between commands does the same and empties the
input as well. -/
def Obligations.ClrAndResetClearTheState : Prop :=
  let cleared (t : State) : Prop :=
    t.inPos = 0#64 ∧ t.out.len = 0#64 ∧ t.secEnd = 0#64 ∧ t.heap = [] ∧ t.nodes = [] ∧ t.root = 0#9 ∧
    t.ctCnt = 0#9 ∧ t.rlt = [] ∧ t.maxLen = 0#8 ∧ t.cand = [] ∧ t.status = 0#32 ∧ t.err = 0#8 ∧
    t.errInfo = 0#64 ∧ t.resA = 0#64 ∧ t.resB = 0#16
  (∀ s : State, ∃ t, exec .clr s = .next t ∧ cleared t ∧ t.inMem = s.inMem ∧ t.inLen = s.inLen ∧
    t.outCap = s.outCap ∧ t.inFault = s.inFault ∧ t.port = s.port) ∧
  (∀ (s : State) (rest : List HostMove), s.port = .reset :: rest →
    ∃ t, step s = .next t ∧ cleared t ∧ t.inLen = 0#64 ∧ t.outCap = s.outCap ∧ t.inFault = s.inFault ∧
      t.port = rest)

/-! ## The host's actions (spec/47_control.md R182 to R184, spec/10_state.md R20, R23) -/

/-- R183: `HostLoad(S)` with `ERR = 0` sets `IN`, `IN_LEN`, `IN_POS`, clears the five flags, changes nothing else, and
every loaded byte is read back; with `ERR != 0` there is no such move (MODEL'S CHOICE of a refusal, log 14). -/
def Obligations.HostLoadPlacesInput : Prop :=
  ∀ (s : State) (S : List Byte) (rest : List HostMove), s.port = .load S :: rest → S.length < 2 ^ 64 →
    (s.err = 0#8 →
      ∃ m, step s = .next { s with
          port := rest, inMem := m, inLen := BitVec.ofNat 64 S.length, inPos := 0#64,
          flags := ⟨false, false, false, false, false⟩ } ∧
        ∀ k, Memory.read m k = S[k]?) ∧
    (s.err ≠ 0#8 → step s = .refused .hostMoveNotAllowed)

/-- R182, R23, R20: the sixteen registers by number, 0 for any other number, and the bits of `STATUS`. -/
def Obligations.CsrReadReturnsTheNumberedRegister : Prop :=
  ∀ s : State,
    (csrRead s 0 = s.status.setWidth 64 ∧ csrRead s 1 = s.err.setWidth 64 ∧ csrRead s 2 = s.errInfo ∧
      csrRead s 3 = s.resA ∧ csrRead s 4 = s.resB.setWidth 64 ∧ csrRead s 5 = s.inLen ∧
      csrRead s 6 = s.inPos ∧ csrRead s 7 = s.out.len ∧
      (s.heap.length < 512 → (csrRead s 8).toNat = s.heap.length) ∧
      (s.nodes.length < 512 → (csrRead s 9).toNat = s.nodes.length) ∧
      csrRead s 10 = s.root.setWidth 64 ∧ csrRead s 11 = s.ctCnt.setWidth 64 ∧
      (s.rlt.length < 512 → (csrRead s 12).toNat = s.rlt.length) ∧
      csrRead s 13 = s.maxLen.setWidth 64 ∧
      (s.cand.length < 512 → (csrRead s 14).toNat = s.cand.length) ∧
      csrRead s 15 = s.secEnd ∧ ∀ n, 15 < n → csrRead s n = 0#64) ∧
    (s.status.getLsbD 0 = false ∧ (s.status.getLsbD 1 = true ↔ s.err ≠ 0#8) ∧
      s.status.getLsbD 2 = s.flags.freqValid ∧ s.status.getLsbD 3 = s.flags.treeValid ∧
      s.status.getLsbD 4 = s.flags.rootValid ∧ s.status.getLsbD 5 = s.flags.ctValid ∧
      s.status.getLsbD 6 = s.flags.rltValid ∧ ∀ k, 7 ≤ k → s.status.getLsbD k = false)

/-! ## The byte spaces (spec/20_memory.md R43, R45) -/

/-- R45: where there is room `Out` of a sequence appends it byte by byte, and every other byte of `OUT` is as
before. -/
def Obligations.OutAppendsWhereThereIsRoom : Prop :=
  ∀ (cap : Word64) (o : OutStream) (vs : List Byte), o.len.toNat + vs.length ≤ cap.toNat →
    ∃ o', OutStream.puts cap o vs = .ok o' ∧ o'.len.toNat = o.len.toNat + vs.length ∧
      (∀ k < vs.length, Memory.read o'.mem (o.len.toNat + k) = vs[k]?) ∧
      (∀ a, a < o.len.toNat ∨ o.len.toNat + vs.length ≤ a → Memory.read o'.mem a = Memory.read o.mem a)

/-! ## IN_REWIND, FREQ_COUNT (spec/40_frequency_counter.md) -/

/-- R91: `IN_REWIND` sets the cursor to 0 and writes nothing else. -/
def Obligations.InRewindSetsCursorToZero : Prop :=
  ∀ s : State, s.err = 0#8 → exec .inRewind s = .next { s with inPos := 0#64 }

/-- R90, R26: `FREQ_COUNT` counts the bytes from the cursor to the end, runs the cursor to `IN_LEN`, sets and
clears its flags, and writes nothing else. -/
def Obligations.FreqCountCountsRemainingBytes : Prop :=
  ∀ (s : State) (S : List Byte), s.err = 0#8 → Loaded s S → s.inPos ≤ s.inLen →
    Readable s s.inPos s.inLen →
    ∃ f, exec .freqCount s = .next { s with
        inPos := s.inLen, freq := f,
        flags := { s.flags with freqValid := true, treeValid := false, rootValid := false, ctValid := false } } ∧
      ∀ b, tget f b = BitVec.ofNat 64 ((S.drop s.inPos.toNat).count b)

/-- R43, R45, R190, R191: where the first position a command would read fails, or the output is full when it would
write, it ends with `IOFailure`, with the position read or `OUT_LEN = OUT_CAP`; for every command that reads or
writes a stream. That the search for the marker reads its windows whole and in ascending order, which decides
what a failing position before the marker's end does to `DEC_PARSE` and `DECODE`, is MODEL'S CHOICE (log 11). -/
def Obligations.StreamFailuresRaiseIoFailure : Prop :=
  -- a failing read: FREQ_COUNT, EMIT, ENCODE
  (∀ (s : State) (S : List Byte) (a : Word64), s.err = 0#8 → Loaded s S → a < s.inLen → a ∈ s.inFault →
    (s.inPos ≤ a → Readable s s.inPos a →
      IoFails (exec .freqCount s) s false a ∧
      (let before := (S.take a.toNat).drop s.inPos.toNat
       s.flags.ctValid = true → (∀ b ∈ before, (ctLookup s.code b).isSome = true) →
       (bitSection s.code before).length ≤ s.outCap.toNat → IoFails (exec .emit s) s false a)) ∧
    (Readable s 0#64 a → IoFails (exec .encode s) s false a)) ∧
  -- a full output: EMIT, ENCODE
  (∀ (s : State) (S : List Byte), s.err = 0#8 → Loaded s S →
    (s.flags.ctValid = true → s.inPos ≤ s.inLen → Readable s s.inPos s.inLen →
      (∀ b ∈ S.drop s.inPos.toNat, (ctLookup s.code b).isSome = true) →
      s.outCap.toNat < (container s.code (S.drop s.inPos.toNat)).length →
      IoFails (exec .emit s) s true s.outCap) ∧
    (∀ t, Readable s 0#64 s.inLen →
      runParts [.inRewind, .freqCount, .inRewind, .treeBuild, .codeGen] s = .next t → t.err = 0#8 →
      s.outCap.toNat < (container t.code S).length → IoFails (exec .encode s) s true s.outCap)) ∧
  -- a failing read: DEC_PARSE, DECODE
  (∀ (s : State) (sec : List Byte) (nl : Bool) (tail : Option (List RltEntry)) (a : Word64), s.err = 0#8 →
    Loaded s (containerForm sec nl tail) → SectionMeant sec nl (containerForm sec nl tail) →
    RecordsOk (tail.getD []) → a < s.inLen → a ∈ s.inFault → Readable s 0#64 a →
    IoFails (exec .decParse s) s false a ∧ IoFails (exec .decode s) s false a) ∧
  -- a full output: DECODE
  (∀ (s : State) (sec : List Byte) (nl : Bool) (tail : Option (List RltEntry)) (syms : List RltEntry),
    s.err = 0#8 → Loaded s (containerForm sec nl tail) → Readable s 0#64 s.inLen →
    SectionMeant sec nl (containerForm sec nl tail) → RecordsOk (tail.getD []) →
    (∀ e ∈ syms, Matchable (tail.getD []) e) →
    sectionBits sec = syms.flatMap RltEntry.code → s.outCap.toNat < syms.length →
    IoFails (exec .decode s) s true s.outCap) ∧
  -- a failing read, a full output: DEC_SCAN
  (∀ (s : State) (S : List Byte) (syms : List RltEntry), s.err = 0#8 → s.flags.rltValid = true → Loaded s S →
    s.secEnd ≤ s.inLen → ScanReady s →
    (∀ (a : Word64) (rest : Code), s.inPos ≤ a → a < s.secEnd → a ∈ s.inFault → Readable s s.inPos a →
      ScanSplit s ((S.take a.toNat).drop s.inPos.toNat) syms rest → rest.length ≤ s.maxLen.toNat →
      IoFails (exec .decScan s) s false a) ∧
    (s.inPos ≤ s.secEnd → Readable s s.inPos s.secEnd → (∀ e ∈ syms, Matchable s.rlt e) →
      s.cand ++ sectionBits (charsLeft s S) = syms.flatMap RltEntry.code →
      s.out.len ≤ s.outCap → s.outCap.toNat < s.out.len.toNat + syms.length →
      IoFails (exec .decScan s) s true s.outCap)) ∧
  -- a full output: VM_PUSH
  (∀ (s : State) (ch : Byte) (bit : Bool) (r : Byte), s.err = 0#8 → s.flags.rltValid = true →
    (ch = if bit then 0x31#8 else 0x30#8) → rltFind s.rlt (s.cand ++ [bit]) = some r →
    s.out.len = s.outCap → IoFails (exec (.vmPush ch) s) s true s.out.len)

/-! ## The priority queue (spec/41_priority_queue.md) -/

/-- R101, R103, R106: with room in the queue `PQ_INSERT` adds one entry, which from the last position rises past
exactly the parents whose key is strictly greater, so past no equal one; every other entry stays; heap order is
kept and nothing else is written. -/
def Obligations.PqInsertAddsEntryAndKeepsOrder : Prop :=
  ∀ (s : State) (key : Word64) (node : NodeIx), s.err = 0#8 → s.heap.length < 256 →
    ∃ h, exec (.pqInsert key node) s = .next { s with heap := h } ∧ h.Perm (⟨key, node⟩ :: s.heap) ∧
      Rises s.heap h ⟨key, node⟩ ∧ (HeapOrdered s.heap → HeapOrdered h)

/-- R192, R193: inserting into a queue of 256 entries raises `CapacityExceeded`; extracting from or peeking at an empty
queue raises `EmptyQueue`. -/
def Obligations.QueueBoundsFault : Prop :=
  ∀ s : State, s.err = 0#8 →
    (∀ key node, s.heap.length = 256 →
      ∃ t, exec (.pqInsert key node) s = .next t ∧ t.err = 2#8 ∧ t.errInfo = 0#64 ∧ t.out.len = 0#64) ∧
    (s.heap = [] →
      (∃ t, exec .pqExtractMin s = .next t ∧ t.err = 3#8 ∧ t.errInfo = 0#64 ∧ t.out.len = 0#64) ∧
      (∃ t, exec .pqPeek s = .next t ∧ t.err = 3#8 ∧ t.errInfo = 0#64 ∧ t.out.len = 0#64))

/-- R102, R104, R106: `PQ_EXTRACT_MIN` returns the root in `RES_A`, `RES_B`, keeps the other entries and heap order,
and in a queue in heap order the root is a minimum; the last entry takes the root's place and sinks past exactly the
lesser children whose key is strictly smaller, the left one of two equal; nothing else is written. -/
def Obligations.PqExtractMinReturnsMinimum : Prop :=
  ∀ (s : State) (r : HeapEntry) (rest : List HeapEntry), s.err = 0#8 → s.heap = r :: rest →
    ∃ h, exec .pqExtractMin s = .next { s with heap := h, resA := r.key, resB := r.node.setWidth 16 } ∧
      h.Perm rest ∧ (∀ init last, rest = init ++ [last] → Sinks (r :: init) h last) ∧
      (HeapOrdered s.heap → HeapOrdered h ∧ ∀ e ∈ s.heap, r.key ≤ e.key)

/-- R105: `PQ_PEEK` returns the root in `RES_A`, `RES_B` and writes nothing else. -/
def Obligations.PqPeekReturnsRoot : Prop :=
  ∀ (s : State) (r : HeapEntry) (rest : List HeapEntry), s.err = 0#8 → s.heap = r :: rest →
    exec .pqPeek s = .next { s with resA := r.key, resB := r.node.setWidth 16 }

/-- R106: successive extractions with no insert between return every entry once, keys never decreasing. -/
def Obligations.SuccessiveExtractionsAreSorted : Prop :=
  ∀ h : List HeapEntry, HeapOrdered h →
    (drain h.length h).Perm h ∧ (drain h.length h).Pairwise fun x y => x.key ≤ y.key

/-! ## TREE_BUILD (spec/42_tree_builder.md) -/

/-- R120, R121, R122, R123, R125, R26: with `k` byte values present, `TREE_BUILD` leaves `2k - 1` nodes (none for
`k = 0`), the leaves first in ascending order of symbol, the root last, the queue empty; each node is the one the
queue's own commands make, from an empty queue to the root's entry alone, so that ties are broken by the queue and
by nothing else; nothing else is written. A weight that does not fit in 64 bits is free (log 7). -/
def Obligations.TreeBuildShape : Prop :=
  ∀ s : State, s.err = 0#8 → s.flags.freqValid = true →
    let k := (presentBytes s.freq).length
    ∃ nodes root, exec .treeBuild s = .next { s with
        heap := [], nodes := nodes, root := root,
        flags := { s.flags with treeValid := true, rootValid := decide (0 < k), ctValid := false } } ∧
      (k = 0 → nodes = [] ∧ root = 0#9) ∧
      (0 < k → nodes.length = 2 * k - 1 ∧ root.toNat = 2 * k - 2 ∧
        nodes.take k = (presentBytes s.freq).map (fun b => .leaf b (tget s.freq b)) ∧
        ∀ n ∈ nodes.drop k, leafSym n = none) ∧
      ∃ Q : Nat → List HeapEntry, Q 0 = [] ∧ (∀ i n, nodes[i]? = some n → MadeByQueue s Q i n) ∧
        ∀ n, nodes[root.toNat]? = some n → Q nodes.length = [⟨nodeFreq n, root⟩]

/-- R124: with a total below 2^64, after `TREE_BUILD` every internal node weighs what its two children weigh together,
each child having a smaller index; every node weighs what the counts of the leaves below it add up to, the root what
was counted; the left child weighs at most what the right one weighs, and every node that was in the queue with them,
which is one made before the merge and no child of that or an earlier merge, at least that; and successive internal
nodes have non-decreasing weights. -/
def Obligations.TreeBuildWeights : Prop :=
  ∀ s t : State, s.err = 0#8 → s.flags.freqValid = true → totalCount s.freq < 2 ^ 64 →
    exec .treeBuild s = .next t →
    (∀ (ix : Nat) (f : Word64) (l r : NodeIx), t.nodes[ix]? = some (.internal f l r) →
      ∃ nl nr, t.nodes[l.toNat]? = some nl ∧ t.nodes[r.toNat]? = some nr ∧ l.toNat < ix ∧ r.toNat < ix ∧
        f.toNat = (nodeFreq nl).toNat + (nodeFreq nr).toNat ∧ nodeFreq nl ≤ nodeFreq nr ∧
        ∀ (j : Nat) (n : Node), j < ix → t.nodes[j]? = some n →
          (∀ i f' l' r', i ≤ ix → t.nodes[i]? = some (.internal f' l' r') → j ≠ l'.toNat ∧ j ≠ r'.toNat) →
          nodeFreq nr ≤ nodeFreq n) ∧
    (∀ (i j : Nat) (f f' : Word64) (l r l' r' : NodeIx), i ≤ j → t.nodes[i]? = some (.internal f l r) →
      t.nodes[j]? = some (.internal f' l' r') → f ≤ f') ∧
    (∀ (ix : NodeIx) (n : Node), t.nodes[ix.toNat]? = some n →
      ∃ rs, treeRecords t.nodes ix = .ok rs ∧
        (nodeFreq n).toNat = (rs.map fun x => (tget s.freq x.1).toNat).sum) ∧
    (t.flags.rootValid = true →
      ∃ n, t.nodes[t.root.toNat]? = some n ∧ (nodeFreq n).toNat = totalCount s.freq)

/-- R15: what `TREE_BUILD` leaves is a tree: walking it from the root meets exactly one leaf for each byte value
present. -/
def Obligations.TreeBuildLeavesATree : Prop :=
  ∀ s t : State, s.err = 0#8 → s.flags.freqValid = true → presentBytes s.freq ≠ [] →
    exec .treeBuild s = .next t →
    ∃ rs, treeRecords t.nodes t.root = .ok rs ∧ (rs.map Prod.fst).Perm (presentBytes s.freq)

/-! ## CODE_GEN (spec/43_code_table.md) -/

/-- R131, R67: over a tree whose root is internal, `CODE_GEN` records for a byte value exactly the path of descents
that reaches its leaf, counts the entries, discards the tree, and writes nothing else. -/
def Obligations.CodeGenRecordsPathsToLeaves : Prop :=
  ∀ (s : State) (f : Word64) (l r : NodeIx), s.err = 0#8 → s.flags.treeValid = true →
    s.flags.rootValid = true → s.nodes[s.root.toNat]? = some (.internal f l r) → TreeOk s.nodes s.root →
    ∃ code n, exec .codeGen s = .next { s with
        code := code, ctCnt := n, nodes := [],
        flags := { s.flags with treeValid := false, rootValid := false, ctValid := true } } ∧
      (∀ b c, ctLookup code b = some c ↔ ∃ w, descend s.nodes s.root c = some (.leaf b w)) ∧
      n.toNat = (byteValues.filter fun b => (ctLookup code b).isSome).length

/-- R131, R132: a tree that is a single leaf gives the one code `"0"`, no tree gives an empty table. -/
def Obligations.CodeGenSingleLeafAndEmptyTree : Prop :=
  ∀ s : State, s.err = 0#8 → s.flags.treeValid = true →
    (s.flags.rootValid = true → ∀ b w, s.nodes[s.root.toNat]? = some (.leaf b w) →
      ∃ code, exec .codeGen s = .next { s with
          code := code, ctCnt := 1#9, nodes := [],
          flags := { s.flags with treeValid := false, rootValid := false, ctValid := true } } ∧
        ∀ x, ctLookup code x = if x = b then some [false] else none) ∧
    (s.flags.rootValid = false →
      ∃ code, exec .codeGen s = .next { s with
          code := code, ctCnt := 0#9, nodes := [],
          flags := { s.flags with treeValid := false, rootValid := false, ctValid := true } } ∧
        ∀ x, ctLookup code x = none)

/-- R133: after `CODE_GEN` no code is a prefix of another byte value's code, whatever the arena held, so for every
tie-break. -/
def Obligations.CodeGenLeavesAPrefixCode : Prop :=
  ∀ s t : State, s.err = 0#8 → s.flags.treeValid = true → exec .codeGen s = .next t →
    ∀ b₁ b₂ c₁ c₂, b₁ ≠ b₂ → ctLookup t.code b₁ = some c₁ → ctLookup t.code b₂ = some c₂ → ¬ c₁ <+: c₂

/-- R134, R135: after `CODE_GEN` every code has 1 to 255 bits, and no two byte values share a code. -/
def Obligations.CodeGenLengthsAndUniqueness : Prop :=
  ∀ s t : State, s.err = 0#8 → s.flags.treeValid = true → exec .codeGen s = .next t →
    (∀ b c, ctLookup t.code b = some c → 1 ≤ c.length ∧ c.length ≤ 255) ∧
    (∀ b₁ b₂ c, ctLookup t.code b₁ = some c → ctLookup t.code b₂ = some c → b₁ = b₂)

/-- R136: of the commands that complete only `CODE_GEN`, `ENCODE` and `CLR` change the code table or its count;
`FREQ_COUNT`, `TREE_BUILD` and `HostLoad` clear `CT_VALID` without changing the table. -/
def Obligations.CodeTableIsWrittenOnce : Prop :=
  (∀ (i : Instr) (s t : State), exec i s = .next t → t.err = 0#8 →
    i ≠ .codeGen → i ≠ .encode → i ≠ .clr → t.code = s.code ∧ t.ctCnt = s.ctCnt) ∧
  (∀ (i : Instr) (s t : State), exec i s = .next t → t.err = 0#8 →
    (i = .freqCount ∨ i = .treeBuild) → t.flags.ctValid = false) ∧
  (∀ (S : List Byte) (s t : State), hostLoad S s = .next t →
    t.code = s.code ∧ t.ctCnt = s.ctCnt ∧ t.flags.ctValid = false)

/-! ## EMIT, ENCODE (spec/44_encoder.md) -/

/-- R141, R70, R71: from a table that has a code for every byte from the cursor on, with room for the container,
`EMIT` writes exactly the container of those bytes, runs the cursor to `IN_LEN`, and writes nothing else. -/
def Obligations.EmitWritesTheContainer : Prop :=
  ∀ (s : State) (S : List Byte), s.err = 0#8 → s.flags.ctValid = true → Loaded s S → s.inPos ≤ s.inLen →
    Readable s s.inPos s.inLen → (∀ b ∈ S.drop s.inPos.toNat, (ctLookup s.code b).isSome = true) →
    (container s.code (S.drop s.inPos.toNat)).length ≤ s.outCap.toNat →
    ∃ o, exec .emit s = .next { s with inPos := s.inLen, out := o } ∧
      o.len.toNat = (container s.code (S.drop s.inPos.toNat)).length ∧
      hostReadOut { s with inPos := s.inLen, out := o } = container s.code (S.drop s.inPos.toNat)

/-- R140: the first byte with no code, met before the output is full, raises `SequenceError(0x23)`. -/
def Obligations.EmitFaultsOnByteWithoutCode : Prop :=
  ∀ (s : State) (S pre post : List Byte) (b : Byte), s.err = 0#8 → s.flags.ctValid = true → Loaded s S →
    s.inPos ≤ s.inLen → Readable s s.inPos s.inLen → S.drop s.inPos.toNat = pre ++ b :: post →
    (∀ x ∈ pre, (ctLookup s.code x).isSome = true) → ctLookup s.code b = none →
    (bitSection s.code pre).length ≤ s.outCap.toNat →
    ∃ t, exec .emit s = .next t ∧ t.err = 7#8 ∧ t.errInfo = 0x23#64 ∧ t.out.len = 0#64

/-- R66, R142, R163: `ENCODE` is exactly `IN_REWIND; FREQ_COUNT; IN_REWIND; TREE_BUILD; CODE_GEN; EMIT`, and `DECODE`
exactly `DEC_PARSE; DEC_SCAN`; a fault in any part aborts the whole, with that part's `ERR` and `ERR_INFO`. -/
def Obligations.CompositesAreTheSequenceOfTheirParts : Prop :=
  ∀ s : State, s.err = 0#8 →
    let isSequence (i : Instr) (parts : List Instr) : Prop :=
      ∀ t, runParts parts s = .next t →
        (t.err = 0#8 → exec i s = .next t) ∧ (t.err ≠ 0#8 → FaultsWith (exec i s) s t.err t.errInfo)
    isSequence .encode [.inRewind, .freqCount, .inRewind, .treeBuild, .codeGen, .emit] ∧
    isSequence .decode [.decParse, .decScan]

/-- R142, R141, R133 to R135: from a readable input, with room for any container of it, `ENCODE` completes with the
flags, cursor, queue and arena R142 gives, a prefix code for exactly the byte values of the input, and the
container of the whole input in `OUT`. -/
def Obligations.EncodeWritesTheContainerOfItsInput : Prop :=
  ∀ (s : State) (S : List Byte), s.err = 0#8 → Loaded s S → Readable s 0#64 s.inLen →
    255 * S.length + 24 + 256 * 258 ≤ s.outCap.toNat →
    ∃ t, exec .encode s = .next t ∧ t.err = 0#8 ∧
      t.flags = { s.flags with freqValid := true, treeValid := false, rootValid := false, ctValid := true } ∧
      t.inPos = s.inLen ∧ t.heap = [] ∧ t.nodes = [] ∧
      (∀ b, (ctLookup t.code b).isSome = true ↔ b ∈ S) ∧ PrefixCode t.code ∧ CodeLengths t.code ∧
      hostReadOut t = container t.code S ∧ t.out.len.toNat = (container t.code S).length

/-- R143: the length of a container in terms of the code lengths. -/
def Obligations.ContainerLength : Prop :=
  ∀ (t : CodeTable) (S : List Byte),
    (container t S).length =
      (S.map fun b => ((ctLookup t b).getD []).length).sum + 24 +
      (byteValues.map fun b => match ctLookup t b with
        | none => 0
        | some c => 3 + c.length).sum

/-- R122, R144: the tree is a function of `FREQ` alone; and what `ENCODE` leaves in `OUT`, `ERR`, the counts and the
code table depends on the input, the read failures and the capacity alone. -/
def Obligations.TreeAndContainerDependOnTheInputOnly : Prop :=
  (∀ s₁ s₂ t₁ t₂ : State, s₁.err = 0#8 → s₂.err = 0#8 → s₁.flags.freqValid = true →
    s₂.flags.freqValid = true → s₁.freq = s₂.freq →
    exec .treeBuild s₁ = .next t₁ → exec .treeBuild s₂ = .next t₂ →
    t₁.nodes = t₂.nodes ∧ t₁.root = t₂.root ∧ t₁.flags.rootValid = t₂.flags.rootValid) ∧
  (∀ s₁ s₂ t₁ t₂ : State, s₁.err = 0#8 → s₂.err = 0#8 → s₁.inMem = s₂.inMem → s₁.inLen = s₂.inLen →
    s₁.inFault = s₂.inFault → s₁.outCap = s₂.outCap →
    exec .encode s₁ = .next t₁ → exec .encode s₂ = .next t₂ →
    t₁.err = t₂.err ∧ t₁.errInfo = t₂.errInfo ∧ t₁.out.len = t₂.out.len ∧
    hostReadOut t₁ = hostReadOut t₂ ∧ (t₁.err = 0#8 → t₁.code = t₂.code ∧ t₁.freq = t₂.freq))

/-! ## The matcher (spec/45_matcher.md) -/

/-- R150: in a table without repeated keys, looking up `c` finds the symbol of exactly the entry whose whole key is
`c`. -/
def Obligations.RltFindIsExactMatch : Prop :=
  ∀ (t : List RltEntry) (c : Code) (b : Byte), (t.map RltEntry.code).Nodup →
    (rltFind t c = some b ↔ (⟨c, b⟩ : RltEntry) ∈ t)

/-- R152, R153: a character that is not a bit changes nothing but the result registers. -/
def Obligations.VmPushSkipsNonBits : Prop :=
  ∀ (s : State) (ch : Byte), s.err = 0#8 → s.flags.rltValid = true → ch ≠ 0x30#8 → ch ≠ 0x31#8 →
    exec (.vmPush ch) s = .next { s with resA := 0#64, resB := 0#16 }

/-- R152, R153, R154: a bit that completes a key, with room in the output, appends the symbol to `OUT`, empties the
candidate, and reports the match in `RES_B`; nothing else is written. Where no key was a prefix of the candidate, no
other key is a prefix of the key that matches: of two such keys only the shorter ever matches. -/
def Obligations.VmPushEmitsOnMatch : Prop :=
  ∀ (s : State) (ch : Byte) (bit : Bool) (r : Byte), s.err = 0#8 → s.flags.rltValid = true →
    (ch = if bit then 0x31#8 else 0x30#8) → rltFind s.rlt (s.cand ++ [bit]) = some r →
    s.out.len < s.outCap →
    ∃ o, exec (.vmPush ch) s = .next { s with
        cand := [], out := o, resA := 0#64, resB := 0x100#16 ||| r.setWidth 16 } ∧
      o.len = s.out.len + 1#64 ∧ hostReadOut { s with out := o } = hostReadOut s ++ [r] ∧
      (∀ a, a ≠ s.out.len.toNat → Memory.read o.mem a = Memory.read s.out.mem a) ∧
      (RltKeys s.rlt → (∀ e ∈ s.rlt, ¬ e.code <+: s.cand) → Matchable s.rlt ⟨s.cand ++ [bit], r⟩)

/-- R152, R153, R154, R195: a bit that completes no key grows the candidate while it is no longer than the longest key,
and otherwise raises `MalformedStream` with the unchanged `IN_POS`. Where no key was a prefix of the candidate, none
is of the grown one. -/
def Obligations.VmPushGrowsOrFaultsWithoutMatch : Prop :=
  ∀ (s : State) (ch : Byte) (bit : Bool), s.err = 0#8 → s.flags.rltValid = true →
    (ch = if bit then 0x31#8 else 0x30#8) → rltFind s.rlt (s.cand ++ [bit]) = none →
    if s.cand.length + 1 ≤ s.maxLen.toNat then
      exec (.vmPush ch) s = .next { s with cand := s.cand ++ [bit], resA := 0#64, resB := 0#16 } ∧
      ((∀ e ∈ s.rlt, ¬ e.code <+: s.cand) → ∀ e ∈ s.rlt, ¬ e.code <+: s.cand ++ [bit])
    else
      ∃ t, exec (.vmPush ch) s = .next t ∧ t.err = 5#8 ∧ t.errInfo = s.inPos ∧ t.out.len = 0#64

/-! ## The decoder (spec/46_decoder.md) -/

/-- R161: `find_marker()` gives the least index at which the 22 bytes stand, and `none` exactly when there is
none. -/
def Obligations.FindMarkerIsTheFirstOccurrence : Prop :=
  ∀ (s : State) (S : List Byte), Loaded s S → Readable s 0#64 s.inLen →
    ∃ r, findMarker s = .ok r ∧ (∀ m, r = some m ↔ FirstMarker S m) ∧ (r = none ↔ ∀ m, ¬ MarkerAt S m)

/-- R160, R151, R194, R196, R199: an input without the marker makes `DEC_PARSE` and `DECODE` raise
`MetadataMarkerNotFound` with `IN_LEN`; each way the bytes after the marker can fail to be a tail of R73 raises
`MalformedMetadata` with the parser's position: a byte other than a newline after the marker; after records that
are in order, a record with no colon, with a code that no newline ends (both also where the data ends, the position
then being `IN_LEN`), with a 256th code bit, with an empty code, with a code an earlier record has, and a 257th
record. There is no output. -/
def Obligations.MissingMarkerOrNewlineFaults : Prop :=
  ∀ (s : State) (S : List Byte), s.err = 0#8 → Loaded s S → Readable s 0#64 s.inLen →
    let faulted (err : Byte) (info : Word64) : Prop :=
      FaultsWith (exec .decParse s) s err info ∧ FaultsWith (exec .decode s) s err info
    ((∀ m, ¬ MarkerAt S m) → faulted 4#8 s.inLen) ∧
    (∀ before after b, S = before ++ marker ++ b :: after → FirstMarker S before.length → b ≠ 0x0A#8 →
      faulted 6#8 (BitVec.ofNat 64 (before.length + 22))) ∧
    (∀ (before : List Byte) (recs : List RltEntry) (sym : Byte) (rest : List Byte),
      FirstMarker S before.length → RecordsOk recs →
      let good := before ++ marker ++ tailBytes (some recs)
      (S = good ++ sym :: rest → rest.head? ≠ some 0x3A#8 →
        faulted 6#8 (BitVec.ofNat 64 (good.length + 1))) ∧
      (∀ c : Code, S = good ++ [sym, 0x3A#8] ++ bitChars c ++ rest → c.length ≤ 255 →
        (rest.head? ≠ some 0x0A#8 → rest.head? ≠ some 0x30#8 → rest.head? ≠ some 0x31#8 →
          faulted 6#8 (BitVec.ofNat 64 (good.length + 2 + c.length))) ∧
        (c.length = 255 → (rest.head? = some 0x30#8 ∨ rest.head? = some 0x31#8) →
          faulted 6#8 (BitVec.ofNat 64 (good.length + 2 + 255))) ∧
        (rest.head? = some 0x0A#8 → (c = [] ∨ c ∈ recs.map RltEntry.code ∨ recs.length = 256) →
          faulted 6#8 (BitVec.ofNat 64 (good.length + 2 + c.length)))))

/-- R160, R73: every container of the grammar is parsed into its records, in order, with the longest code in
`MAXLEN` and the end of its section in `SEC_END`; nothing else is written. -/
def Obligations.DecParseReadsEveryContainer : Prop :=
  ∀ (s : State) (sec : List Byte) (nl : Bool) (tail : Option (List RltEntry)), s.err = 0#8 →
    Loaded s (containerForm sec nl tail) → Readable s 0#64 s.inLen →
    SectionMeant sec nl (containerForm sec nl tail) → RecordsOk (tail.getD []) →
    ∃ o, exec .decParse s = .next { s with
        inPos := 0#64, out := o, rlt := tail.getD [], maxLen := BitVec.ofNat 8 (longestKey (tail.getD [])),
        cand := [], secEnd := BitVec.ofNat 64 sec.length, flags := { s.flags with rltValid := true } } ∧
      o.len = 0#64 ∧ o.mem = s.out.mem

/-- R73, R160, R196: what `DEC_PARSE` accepts is a container of the grammar, and what it leaves is that container's
table and section. -/
def Obligations.DecParseAcceptsOnlyContainers : Prop :=
  ∀ (s t : State) (S : List Byte), s.err = 0#8 → Loaded s S → exec .decParse s = .next t → t.err = 0#8 →
    ∃ sec nl tail, S = containerForm sec nl tail ∧ SectionMeant sec nl S ∧ RecordsOk (tail.getD []) ∧
      t.rlt = tail.getD [] ∧ t.maxLen.toNat = longestKey (tail.getD []) ∧ t.secEnd.toNat = sec.length

/-- R162, R152, R154: a section whose bits, after those already in the candidate, are the keys of `syms` one after
another, is decoded to the symbols of `syms`, appended to `OUT`; the candidate ends empty, the cursor at `SEC_END`,
and nothing else is written. The table need be no prefix code: it is enough that no other key is a prefix of the keys
in `syms`. Over any table, where `VM_PUSH` of each character from the cursor on, in
turn, completes with an empty candidate, `DEC_SCAN` completes with the output those leave. With the cursor at or past
`SEC_END` and an empty candidate nothing is read and nothing is written. -/
def Obligations.DecScanDecodesConcatenatedCodes : Prop :=
  (∀ (s : State) (S : List Byte), s.err = 0#8 → s.flags.rltValid = true → Loaded s S →
    s.inPos ≤ s.secEnd → s.secEnd ≤ s.inLen → Readable s s.inPos s.secEnd →
    (∀ syms : List RltEntry, ScanReady s → (∀ e ∈ syms, Matchable s.rlt e) →
      s.cand ++ sectionBits (charsLeft s S) = syms.flatMap RltEntry.code →
      s.out.len.toNat + syms.length ≤ s.outCap.toNat →
      ∃ o, exec .decScan s = .next { s with inPos := s.secEnd, cand := [], out := o } ∧
        o.len.toNat = s.out.len.toNat + syms.length ∧
        hostReadOut { s with out := o } = hostReadOut s ++ syms.map RltEntry.sym ∧
        ∀ a, a < s.out.len.toNat ∨ o.len.toNat ≤ a → Memory.read o.mem a = Memory.read s.out.mem a) ∧
    (∀ t, runParts ((charsLeft s S).map .vmPush) s = .next t → t.err = 0#8 → t.cand = [] →
      exec .decScan s = .next { s with inPos := s.secEnd, cand := [], out := t.out })) ∧
  (∀ s : State, s.err = 0#8 → s.flags.rltValid = true → s.secEnd ≤ s.inPos → s.cand = [] →
    exec .decScan s = .next s)

/-- R162, R152, R195, R199: bits left in the candidate when the section has been read raise `MalformedStream` with
the cursor, which is `SEC_END`; when the cursor already stands at or past `SEC_END` nothing is read and it is the
cursor as it was. Inside the section a bit that makes the candidate longer than `MAXLEN`, after any number of
symbols that were decoded, raises it with that character's index plus 1. Over any table `DEC_SCAN` faults where
`VM_PUSH` of the characters in turn does, with the same `ERR`, and where it leaves bits. -/
def Obligations.DecScanFaultsOnLeftoverBits : Prop :=
  ∀ (s : State) (S : List Byte), s.err = 0#8 → s.flags.rltValid = true →
    (s.secEnd ≤ s.inPos → s.cand ≠ [] → FaultsWith (exec .decScan s) s 5#8 s.inPos) ∧
    (Loaded s S → s.secEnd ≤ s.inLen →
      (s.inPos ≤ s.secEnd → Readable s s.inPos s.secEnd →
       let bits := s.cand ++ sectionBits (charsLeft s S)
       bits ≠ [] → bits.length ≤ s.maxLen.toNat → (∀ e ∈ s.rlt, ¬ e.code <+: bits) →
       FaultsWith (exec .decScan s) s 5#8 s.secEnd) ∧
      (ScanReady s → ∀ (syms : List RltEntry) (rest : Code),
        (s.inPos ≤ s.secEnd → Readable s s.inPos s.secEnd → rest ≠ [] → rest.length ≤ s.maxLen.toNat →
         ScanSplit s (charsLeft s S) syms rest →
         FaultsWith (exec .decScan s) s 5#8 s.secEnd) ∧
        (∀ (a : Word64) (ch : Byte), s.inPos ≤ a → a < s.secEnd → Readable s s.inPos (a + 1#64) →
         S[a.toNat]? = some ch → ch = 0x30#8 ∨ ch = 0x31#8 →
         ScanSplit s ((S.take a.toNat).drop s.inPos.toNat) syms rest → rest.length = s.maxLen.toNat →
         FaultsWith (exec .decScan s) s 5#8 (a + 1#64))) ∧
      (s.inPos ≤ s.secEnd → Readable s s.inPos s.secEnd → ∀ t,
        (runParts ((charsLeft s S).map .vmPush) s = .next t → t.err = 0#8 → t.cand ≠ [] →
         FaultsWith (exec .decScan s) s 5#8 s.secEnd) ∧
        (∀ pre ch post u, charsLeft s S = pre ++ ch :: post →
         runParts (pre.map .vmPush) s = .next u → u.err = 0#8 → exec (.vmPush ch) u = .next t → t.err ≠ 0#8 →
         FaultsWith (exec .decScan s) s t.err
           (if t.err = 5#8 then s.inPos + BitVec.ofNat 64 (pre.length + 1) else t.errInfo))))

/-- R163, R165, R154: a container whose section is the keys of `syms` one after another is decoded to the symbols of
`syms`, whichever encoder wrote it; its table need be no prefix code, so long as no other key is a prefix of the keys
in `syms`. -/
def Obligations.DecodeReadsEveryContainer : Prop :=
  ∀ (s : State) (sec : List Byte) (nl : Bool) (tail : Option (List RltEntry)) (syms : List RltEntry),
    s.err = 0#8 → Loaded s (containerForm sec nl tail) → Readable s 0#64 s.inLen →
    SectionMeant sec nl (containerForm sec nl tail) → RecordsOk (tail.getD []) →
    (∀ e ∈ syms, Matchable (tail.getD []) e) →
    sectionBits sec = syms.flatMap RltEntry.code → syms.length ≤ s.outCap.toNat →
    ∃ t, exec .decode s = .next t ∧ t.err = 0#8 ∧ t.flags = { s.flags with rltValid := true } ∧
      t.inPos = t.secEnd ∧ t.secEnd = BitVec.ofNat 64 sec.length ∧ t.cand = [] ∧ t.rlt = tail.getD [] ∧
      hostReadOut t = syms.map RltEntry.sym ∧ t.out.len.toNat = syms.length

/-- R164: decoding what `ENCODE` wrote gives back the input, for every byte sequence, the empty one, a repeated byte
and all 256 values among them, with streams that do not fail and room for the output. -/
def Obligations.RoundTrip : Prop :=
  ∀ (s : State) (S : List Byte), s.err = 0#8 → Loaded s S → s.inFault = [] →
    255 * S.length + 24 + 256 * 258 ≤ s.outCap.toNat →
    ∃ t u v, exec .encode s = .next t ∧ t.err = 0#8 ∧
      hostLoad (hostReadOut t) t = .next u ∧
      exec .decode u = .next v ∧ v.err = 0#8 ∧ hostReadOut v = S

/-! ## Every command: what it leaves alone -/

/-- R11, R40: no command writes `IN` or `IN_LEN`, nor the parameters and the port (the last three are fields of the
model's own, log 1, log 2), whether it completes or faults. -/
def Obligations.NoCommandWritesTheInput : Prop :=
  ∀ (i : Instr) (s t : State), exec i s = .next t →
    t.inMem = s.inMem ∧ t.inLen = s.inLen ∧ t.outCap = s.outCap ∧ t.inFault = s.inFault ∧ t.port = s.port

/-- R26 and the rows "Writes" of R90, R91, R103 to R105, R121, R131, R141, R142, R153, R160, R162, R163, R181: a command
that completes writes only the state those rows name, and sets and clears only the flags R26 names. For `CLR` that
is: `IN` and `IN_LEN` kept, every count, cursor, flag and register of R181's list at 0, the contents of `OUT`, `FREQ`
and `CODE` open; that the other arrays are empty lists and that the parameters and the port are kept is MODEL'S
CHOICE (log 6). -/
def Obligations.CommandsWriteOnlyWhatTheirRulesName : Prop :=
  ∀ (i : Instr) (s t : State), exec i s = .next t → t.err = 0#8 → Frame s t i

/-- R12, R45: a command that completes changes no byte of `OUT` outside the bytes it stores: from index 0 on for a
command that empties the stream first, from `OUT_LEN` on for one that appends, none for the others (`CLR`, which
leaves `OUT` unspecified, apart). -/
def Obligations.CommandsStoreOnlyTheirOutput : Prop :=
  ∀ (i : Instr) (s t : State), exec i s = .next t → s.err = 0#8 → t.err = 0#8 → i ≠ .clr →
    ∀ a, (∀ b, storesFrom s i = some b → a < b ∨ t.out.len.toNat ≤ a) →
      Memory.read t.out.mem a = Memory.read s.out.mem a

/-! ## Invariants (spec/10_state.md R29) -/

/-- Every step keeps both memories in their canonical form, addresses strictly rising (the form is MODEL'S CHOICE, log 3). -/
def Obligations.StepKeepsMemoryForm : Prop :=
  ∀ s t : State, step s = .next t → Memory.wf s.inMem = true → Memory.wf s.out.mem = true →
    Memory.wf t.inMem = true ∧ Memory.wf t.out.mem = true

/-- R184, R185: `OUT_LEN = 0` in every faulted state: every step keeps it. -/
def Obligations.StepKeepsFaultedOutputEmpty : Prop :=
  ∀ s t : State, step s = .next t → (s.err ≠ 0#8 → s.out.len = 0#64) → (t.err ≠ 0#8 → t.out.len = 0#64)

/-- R29, with R18 and R21: every step keeps the bounds on cursors and counts, the candidate no longer than `MAXLEN`, and
`ERR_INFO = 0` while no fault is recorded. -/
def Obligations.StepKeepsBounds : Prop :=
  ∀ s t : State, step s = .next t → (s.err = 0#8 → Bounds s) → (t.err = 0#8 → Bounds t)

/-- R29, R106: every step keeps the queue in heap order. -/
def Obligations.StepKeepsHeapOrder : Prop :=
  ∀ s t : State, step s = .next t → (s.err = 0#8 → HeapOrdered s.heap) → (t.err = 0#8 → HeapOrdered t.heap)

/-- R29, R133: every step keeps the code table, while valid, a prefix code. -/
def Obligations.StepKeepsPrefixCode : Prop :=
  ∀ s t : State, step s = .next t →
    (s.err = 0#8 → s.flags.ctValid = true → PrefixCode s.code ∧ CodeLengths s.code) →
    (t.err = 0#8 → t.flags.ctValid = true → PrefixCode t.code ∧ CodeLengths t.code)

/-- R8, R29: from a good state every step ends in a good state, or the host made a move R183 does not allow, a
`HostLoad` while a fault is recorded or of 2^64 bytes or more: there is no stuck state, and none of the model's
stops is ever met. That such a move is refused is MODEL'S CHOICE (log 14), that moves are taken from the field
`port` MODEL'S CHOICE (log 1). -/
def Obligations.GoodStatesNeverStop : Prop :=
  ∀ s : State, Good s →
    (∃ t, step s = .next t ∧ Good t) ∨
    (∃ (S : List Byte) (rest : List HostMove), s.port = .load S :: rest ∧ (s.err ≠ 0#8 ∨ 2 ^ 64 ≤ S.length) ∧
      step s = .refused .hostMoveNotAllowed)

/-- R29: the state after reset is good. -/
def Obligations.ResetIsGood : Prop := Good State.reset
end

