-- ==== Sys2Proof/Laws/State.lean ====
section
/-! SUPPORT. What each named update of the state does to each field: true by rfl, so that no proof unfolds a
record update. -/

namespace Sys2Proof.Laws

open Sys2Proof.Machine

/-! ## A fault (spec/60_exceptions.md R201, R202) -/

@[simp] theorem enterFault_inMem (s : State) (k : FaultKind) (info : Word64) :
    (enterFault s k info).inMem = s.inMem := rfl
@[simp] theorem enterFault_inLen (s : State) (k : FaultKind) (info : Word64) :
    (enterFault s k info).inLen = s.inLen := rfl
@[simp] theorem enterFault_inPos (s : State) (k : FaultKind) (info : Word64) :
    (enterFault s k info).inPos = (Config.unspecified s.freeCtr).inPos := rfl
@[simp] theorem enterFault_out (s : State) (k : FaultKind) (info : Word64) :
    (enterFault s k info).out = OutStream.empty := rfl
@[simp] theorem enterFault_freq (s : State) (k : FaultKind) (info : Word64) :
    (enterFault s k info).freq = (Config.unspecified s.freeCtr).freq := rfl
@[simp] theorem enterFault_heap (s : State) (k : FaultKind) (info : Word64) :
    (enterFault s k info).heap = (Config.unspecified s.freeCtr).heap := rfl
@[simp] theorem enterFault_nodes (s : State) (k : FaultKind) (info : Word64) :
    (enterFault s k info).nodes = (Config.unspecified s.freeCtr).nodes := rfl
@[simp] theorem enterFault_root (s : State) (k : FaultKind) (info : Word64) :
    (enterFault s k info).root = (Config.unspecified s.freeCtr).root := rfl
@[simp] theorem enterFault_code (s : State) (k : FaultKind) (info : Word64) :
    (enterFault s k info).code = (Config.unspecified s.freeCtr).code := rfl
@[simp] theorem enterFault_ctCnt (s : State) (k : FaultKind) (info : Word64) :
    (enterFault s k info).ctCnt = (Config.unspecified s.freeCtr).ctCnt := rfl
@[simp] theorem enterFault_rlt (s : State) (k : FaultKind) (info : Word64) :
    (enterFault s k info).rlt = (Config.unspecified s.freeCtr).rlt := rfl
@[simp] theorem enterFault_maxLen (s : State) (k : FaultKind) (info : Word64) :
    (enterFault s k info).maxLen = (Config.unspecified s.freeCtr).maxLen := rfl
@[simp] theorem enterFault_cand (s : State) (k : FaultKind) (info : Word64) :
    (enterFault s k info).cand = (Config.unspecified s.freeCtr).cand := rfl
@[simp] theorem enterFault_secEnd (s : State) (k : FaultKind) (info : Word64) :
    (enterFault s k info).secEnd = (Config.unspecified s.freeCtr).secEnd := rfl
@[simp] theorem enterFault_flags (s : State) (k : FaultKind) (info : Word64) :
    (enterFault s k info).flags = (Config.unspecified s.freeCtr).flags := rfl
@[simp] theorem enterFault_err (s : State) (k : FaultKind) (info : Word64) :
    (enterFault s k info).err = k.number := rfl
@[simp] theorem enterFault_errInfo (s : State) (k : FaultKind) (info : Word64) :
    (enterFault s k info).errInfo = info := rfl
@[simp] theorem enterFault_resA (s : State) (k : FaultKind) (info : Word64) :
    (enterFault s k info).resA = (Config.unspecified s.freeCtr).resA := rfl
@[simp] theorem enterFault_resB (s : State) (k : FaultKind) (info : Word64) :
    (enterFault s k info).resB = (Config.unspecified s.freeCtr).resB := rfl
@[simp] theorem enterFault_outCap (s : State) (k : FaultKind) (info : Word64) :
    (enterFault s k info).outCap = s.outCap := rfl
@[simp] theorem enterFault_inFault (s : State) (k : FaultKind) (info : Word64) :
    (enterFault s k info).inFault = s.inFault := rfl
@[simp] theorem enterFault_port (s : State) (k : FaultKind) (info : Word64) :
    (enterFault s k info).port = s.port := rfl
@[simp] theorem enterFault_freeCtr (s : State) (k : FaultKind) (info : Word64) :
    (enterFault s k info).freeCtr = s.freeCtr + 1 := rfl

/-! ## `CLR` (spec/47_control.md R181) -/

@[simp] theorem clearAll_inMem (s : State) : (clearAll s).inMem = s.inMem := rfl
@[simp] theorem clearAll_inLen (s : State) : (clearAll s).inLen = s.inLen := rfl
@[simp] theorem clearAll_inPos (s : State) : (clearAll s).inPos = 0#64 := rfl
@[simp] theorem clearAll_out (s : State) : (clearAll s).out = OutStream.empty := rfl
@[simp] theorem clearAll_freq (s : State) : (clearAll s).freq = (Config.unspecified s.freeCtr).freq := rfl
@[simp] theorem clearAll_heap (s : State) : (clearAll s).heap = [] := rfl
@[simp] theorem clearAll_nodes (s : State) : (clearAll s).nodes = [] := rfl
@[simp] theorem clearAll_root (s : State) : (clearAll s).root = 0#9 := rfl
@[simp] theorem clearAll_code (s : State) : (clearAll s).code = (Config.unspecified s.freeCtr).code := rfl
@[simp] theorem clearAll_ctCnt (s : State) : (clearAll s).ctCnt = 0#9 := rfl
@[simp] theorem clearAll_rlt (s : State) : (clearAll s).rlt = [] := rfl
@[simp] theorem clearAll_maxLen (s : State) : (clearAll s).maxLen = 0#8 := rfl
@[simp] theorem clearAll_cand (s : State) : (clearAll s).cand = [] := rfl
@[simp] theorem clearAll_secEnd (s : State) : (clearAll s).secEnd = 0#64 := rfl
@[simp] theorem clearAll_flags (s : State) : (clearAll s).flags = noFlags := rfl
@[simp] theorem clearAll_err (s : State) : (clearAll s).err = 0#8 := rfl
@[simp] theorem clearAll_errInfo (s : State) : (clearAll s).errInfo = 0#64 := rfl
@[simp] theorem clearAll_resA (s : State) : (clearAll s).resA = 0#64 := rfl
@[simp] theorem clearAll_resB (s : State) : (clearAll s).resB = 0#16 := rfl
@[simp] theorem clearAll_outCap (s : State) : (clearAll s).outCap = s.outCap := rfl
@[simp] theorem clearAll_inFault (s : State) : (clearAll s).inFault = s.inFault := rfl
@[simp] theorem clearAll_port (s : State) : (clearAll s).port = s.port := rfl
@[simp] theorem clearAll_freeCtr (s : State) : (clearAll s).freeCtr = s.freeCtr + 1 := rfl

/-! ## Hardware reset (spec/70_reset_and_hazards.md R220, R221) -/

@[simp] theorem hardwareReset_inMem (s : State) : (hardwareReset s).inMem = [] := rfl
@[simp] theorem hardwareReset_inLen (s : State) : (hardwareReset s).inLen = 0#64 := rfl
@[simp] theorem hardwareReset_inPos (s : State) : (hardwareReset s).inPos = (clearAll s).inPos := rfl
@[simp] theorem hardwareReset_out (s : State) : (hardwareReset s).out = (clearAll s).out := rfl
@[simp] theorem hardwareReset_freq (s : State) : (hardwareReset s).freq = (clearAll s).freq := rfl
@[simp] theorem hardwareReset_heap (s : State) : (hardwareReset s).heap = (clearAll s).heap := rfl
@[simp] theorem hardwareReset_nodes (s : State) : (hardwareReset s).nodes = (clearAll s).nodes := rfl
@[simp] theorem hardwareReset_root (s : State) : (hardwareReset s).root = (clearAll s).root := rfl
@[simp] theorem hardwareReset_code (s : State) : (hardwareReset s).code = (clearAll s).code := rfl
@[simp] theorem hardwareReset_ctCnt (s : State) : (hardwareReset s).ctCnt = (clearAll s).ctCnt := rfl
@[simp] theorem hardwareReset_rlt (s : State) : (hardwareReset s).rlt = (clearAll s).rlt := rfl
@[simp] theorem hardwareReset_maxLen (s : State) : (hardwareReset s).maxLen = (clearAll s).maxLen := rfl
@[simp] theorem hardwareReset_cand (s : State) : (hardwareReset s).cand = (clearAll s).cand := rfl
@[simp] theorem hardwareReset_secEnd (s : State) : (hardwareReset s).secEnd = (clearAll s).secEnd := rfl
@[simp] theorem hardwareReset_flags (s : State) : (hardwareReset s).flags = (clearAll s).flags := rfl
@[simp] theorem hardwareReset_err (s : State) : (hardwareReset s).err = (clearAll s).err := rfl
@[simp] theorem hardwareReset_errInfo (s : State) : (hardwareReset s).errInfo = (clearAll s).errInfo := rfl
@[simp] theorem hardwareReset_resA (s : State) : (hardwareReset s).resA = (clearAll s).resA := rfl
@[simp] theorem hardwareReset_resB (s : State) : (hardwareReset s).resB = (clearAll s).resB := rfl
@[simp] theorem hardwareReset_outCap (s : State) : (hardwareReset s).outCap = (clearAll s).outCap := rfl
@[simp] theorem hardwareReset_inFault (s : State) : (hardwareReset s).inFault = (clearAll s).inFault := rfl
@[simp] theorem hardwareReset_port (s : State) : (hardwareReset s).port = (clearAll s).port := rfl
@[simp] theorem hardwareReset_freeCtr (s : State) : (hardwareReset s).freeCtr = (clearAll s).freeCtr := rfl

/-! ## Placing a word at the port -/

@[simp] theorem withFetchWord_inMem (s : State) (n w : Nat) : (s.withFetchWord n w).inMem = s.inMem := rfl
@[simp] theorem withFetchWord_inLen (s : State) (n w : Nat) : (s.withFetchWord n w).inLen = s.inLen := rfl
@[simp] theorem withFetchWord_inPos (s : State) (n w : Nat) : (s.withFetchWord n w).inPos = s.inPos := rfl
@[simp] theorem withFetchWord_out (s : State) (n w : Nat) : (s.withFetchWord n w).out = s.out := rfl
@[simp] theorem withFetchWord_freq (s : State) (n w : Nat) : (s.withFetchWord n w).freq = s.freq := rfl
@[simp] theorem withFetchWord_heap (s : State) (n w : Nat) : (s.withFetchWord n w).heap = s.heap := rfl
@[simp] theorem withFetchWord_nodes (s : State) (n w : Nat) : (s.withFetchWord n w).nodes = s.nodes := rfl
@[simp] theorem withFetchWord_root (s : State) (n w : Nat) : (s.withFetchWord n w).root = s.root := rfl
@[simp] theorem withFetchWord_code (s : State) (n w : Nat) : (s.withFetchWord n w).code = s.code := rfl
@[simp] theorem withFetchWord_ctCnt (s : State) (n w : Nat) : (s.withFetchWord n w).ctCnt = s.ctCnt := rfl
@[simp] theorem withFetchWord_rlt (s : State) (n w : Nat) : (s.withFetchWord n w).rlt = s.rlt := rfl
@[simp] theorem withFetchWord_maxLen (s : State) (n w : Nat) : (s.withFetchWord n w).maxLen = s.maxLen := rfl
@[simp] theorem withFetchWord_cand (s : State) (n w : Nat) : (s.withFetchWord n w).cand = s.cand := rfl
@[simp] theorem withFetchWord_secEnd (s : State) (n w : Nat) : (s.withFetchWord n w).secEnd = s.secEnd := rfl
@[simp] theorem withFetchWord_flags (s : State) (n w : Nat) : (s.withFetchWord n w).flags = s.flags := rfl
@[simp] theorem withFetchWord_err (s : State) (n w : Nat) : (s.withFetchWord n w).err = s.err := rfl
@[simp] theorem withFetchWord_errInfo (s : State) (n w : Nat) : (s.withFetchWord n w).errInfo = s.errInfo := rfl
@[simp] theorem withFetchWord_resA (s : State) (n w : Nat) : (s.withFetchWord n w).resA = s.resA := rfl
@[simp] theorem withFetchWord_resB (s : State) (n w : Nat) : (s.withFetchWord n w).resB = s.resB := rfl
@[simp] theorem withFetchWord_outCap (s : State) (n w : Nat) : (s.withFetchWord n w).outCap = s.outCap := rfl
@[simp] theorem withFetchWord_inFault (s : State) (n w : Nat) : (s.withFetchWord n w).inFault = s.inFault := rfl
@[simp] theorem withFetchWord_port (s : State) (n w : Nat) : (s.withFetchWord n w).port = .present (tableWord n w) :: s.port := rfl
@[simp] theorem withFetchWord_freeCtr (s : State) (n w : Nat) : (s.withFetchWord n w).freeCtr = s.freeCtr := rfl

/-! ## The output stream and the phase flags -/

@[simp] theorem restart_mem (o : OutStream) : o.restart.mem = o.mem := rfl
@[simp] theorem restart_len (o : OutStream) : o.restart.len = 0#64 := rfl
@[simp] theorem empty_mem : OutStream.empty.mem = [] := rfl
@[simp] theorem empty_len : OutStream.empty.len = 0#64 := rfl

@[simp] theorem flagsAfterCount_freqValid (f : PhaseFlags) : (flagsAfterCount f).freqValid = true := rfl
@[simp] theorem flagsAfterCount_treeValid (f : PhaseFlags) : (flagsAfterCount f).treeValid = false := rfl
@[simp] theorem flagsAfterCount_rootValid (f : PhaseFlags) : (flagsAfterCount f).rootValid = false := rfl
@[simp] theorem flagsAfterCount_ctValid (f : PhaseFlags) : (flagsAfterCount f).ctValid = false := rfl
@[simp] theorem flagsAfterCount_rltValid (f : PhaseFlags) : (flagsAfterCount f).rltValid = f.rltValid := rfl
@[simp] theorem flagsAfterBuild_freqValid (r : Bool) (f : PhaseFlags) : (flagsAfterBuild r f).freqValid = f.freqValid := rfl
@[simp] theorem flagsAfterBuild_treeValid (r : Bool) (f : PhaseFlags) : (flagsAfterBuild r f).treeValid = true := rfl
@[simp] theorem flagsAfterBuild_rootValid (r : Bool) (f : PhaseFlags) : (flagsAfterBuild r f).rootValid = r := rfl
@[simp] theorem flagsAfterBuild_ctValid (r : Bool) (f : PhaseFlags) : (flagsAfterBuild r f).ctValid = false := rfl
@[simp] theorem flagsAfterBuild_rltValid (r : Bool) (f : PhaseFlags) : (flagsAfterBuild r f).rltValid = f.rltValid := rfl
@[simp] theorem flagsAfterGen_freqValid (f : PhaseFlags) : (flagsAfterGen f).freqValid = f.freqValid := rfl
@[simp] theorem flagsAfterGen_treeValid (f : PhaseFlags) : (flagsAfterGen f).treeValid = false := rfl
@[simp] theorem flagsAfterGen_rootValid (f : PhaseFlags) : (flagsAfterGen f).rootValid = false := rfl
@[simp] theorem flagsAfterGen_ctValid (f : PhaseFlags) : (flagsAfterGen f).ctValid = true := rfl
@[simp] theorem flagsAfterGen_rltValid (f : PhaseFlags) : (flagsAfterGen f).rltValid = f.rltValid := rfl
@[simp] theorem flagsAfterParse_freqValid (f : PhaseFlags) : (flagsAfterParse f).freqValid = f.freqValid := rfl
@[simp] theorem flagsAfterParse_treeValid (f : PhaseFlags) : (flagsAfterParse f).treeValid = f.treeValid := rfl
@[simp] theorem flagsAfterParse_rootValid (f : PhaseFlags) : (flagsAfterParse f).rootValid = f.rootValid := rfl
@[simp] theorem flagsAfterParse_ctValid (f : PhaseFlags) : (flagsAfterParse f).ctValid = f.ctValid := rfl
@[simp] theorem flagsAfterParse_rltValid (f : PhaseFlags) : (flagsAfterParse f).rltValid = true := rfl
@[simp] theorem noFlags_freqValid : noFlags.freqValid = false := rfl
@[simp] theorem noFlags_treeValid : noFlags.treeValid = false := rfl
@[simp] theorem noFlags_rootValid : noFlags.rootValid = false := rfl
@[simp] theorem noFlags_ctValid : noFlags.ctValid = false := rfl
@[simp] theorem noFlags_rltValid : noFlags.rltValid = false := rfl

end Sys2Proof.Laws
end

