-- ==== Sys2Proof/Laws/Dispatch.lean ====
section
/-! SUPPORT. What the common first part of every command, and the end of one, can do
(spec/47_control.md R180, spec/60_exceptions.md R200, R201). -/

namespace Sys2Proof.Laws

open Sys2Proof.Machine

theorem number_ne_zero (k : FaultKind) : k.number ≠ 0#8 := by cases k <;> decide

@[simp] theorem settle_ok (s t : State) : settle s (.ok t) = .next t := rfl
@[simp] theorem settle_raise (s : State) (k : FaultKind) (info : Word64) :
    settle s (raise k info) = .next (enterFault s k info) := rfl
@[simp] theorem settle_stop (s : State) (f : Fault) : settle s (stop f) = .fault f := rfl

/-- A raise ends a command in the fault raised, with no output and the input as it was (R201, R202). -/
theorem faultsWith_raise (s : State) (k : FaultKind) (info : Word64) :
    FaultsWith (settle s (raise k info)) s k.number info := ⟨_, settle_raise s k info, rfl, rfl, rfl, rfl, rfl⟩

/-- If a command ends in a next state, its pseudocode completed or raised a fault. -/
theorem settle_next {s t : State} {r : Res State} (h : settle s r = .next t) :
    r = .ok t ∨ ∃ k info, r = raise k info ∧ t = enterFault s k info := by
  match r, h with
  | .ok u, h => exact Or.inl (by simpa [settle] using h)
  | .error (.raise k info), h => exact Or.inr ⟨k, info, rfl, by simpa [settle] using h.symm⟩

/-- While a fault is recorded the word is discarded (R180, R204). -/
theorem accept_faulted (i : Instr) (body : State → Res State) {s : State} (h : s.err ≠ 0#8) :
    accept i body s = .next s := by simp [accept, h]

/-- A clear phase flag raises `SequenceError` (R197). -/
theorem accept_unready {i : Instr} (body : State → Res State) {s : State} (h : s.err = 0#8)
    (hp : phaseReady i s.flags = false) :
    accept i body s = .next (enterFault s .sequenceError (i.opcode.setWidth 64)) := by simp [accept, h, hp]

/-- With no fault recorded and the phase reached, the command's pseudocode decides. -/
theorem accept_ready {i : Instr} (body : State → Res State) {s : State} (h : s.err = 0#8)
    (hp : phaseReady i s.flags = true) : accept i body s = settle s (body s) := by simp [accept, h, hp]

/-- Everything a command can end in, when it ends in a next state: the word was discarded, or a fault was
raised, or its pseudocode completed. -/
theorem accept_cases {i : Instr} {body : State → Res State} {s t : State} (h : accept i body s = .next t) :
    (s.err ≠ 0#8 ∧ t = s) ∨
    (s.err = 0#8 ∧ ∃ k info, t = enterFault s k info) ∨
    (s.err = 0#8 ∧ phaseReady i s.flags = true ∧ body s = .ok t) := by
  by_cases he : s.err = 0#8
  · by_cases hp : phaseReady i s.flags = true
    · rw [accept_ready body he hp] at h
      rcases settle_next h with h | ⟨k, info, _, h⟩
      · exact Or.inr (Or.inr ⟨he, hp, h⟩)
      · exact Or.inr (Or.inl ⟨he, k, info, h⟩)
    · rw [accept_unready body he (by simpa using hp)] at h
      exact Or.inr (Or.inl ⟨he, _, _, by simpa using h.symm⟩)
  · rw [accept_faulted i body he] at h
    exact Or.inl ⟨he, by simpa using h.symm⟩

/-- A command that ends with no fault recorded completed its pseudocode. -/
theorem accept_completed {i : Instr} {body : State → Res State} {s t : State} (h : accept i body s = .next t)
    (ht : t.err = 0#8) : s.err = 0#8 ∧ phaseReady i s.flags = true ∧ body s = .ok t := by
  rcases accept_cases h with ⟨h1, rfl⟩ | ⟨_, k, info, rfl⟩ | h
  · exact absurd ht h1
  · exact absurd ht (number_ne_zero k)
  · exact h

/-- One part of a sequence, with no fault recorded and its phase reached: the rest follows when the part completes
without one (R66). -/
theorem runParts_accept {i : Instr} {body : State → Res State} {s : State} (is : List Instr)
    (hx : exec i s = accept i body s) (h : s.err = 0#8) (hp : phaseReady i s.flags = true)
    (hb : ∀ t, body s = .ok t → t.err = 0#8) :
    runParts (i :: is) s =
      match body s with
      | .ok t => runParts is t
      | .error (.raise k info) => .next (enterFault s k info)
      | .error (.stop f) => .fault f := by
  rw [runParts, hx, accept_ready body h hp]
  match hr : body s with
  | .ok t => simp [settle, hb t hr]
  | .error (.raise k info) => simp [settle, enterFault, number_ne_zero k]
  | .error (.stop f) => simp [settle]

/-- What a word that is not legal does (R63, R198). -/
theorem rejectWord_cases (w : CommandWord) (s : State) :
    (s.err ≠ 0#8 ∧ rejectWord w s = .next s) ∨
    (s.err = 0#8 ∧ rejectWord w s = .next (enterFault s .illegalCommand ((opField w).setWidth 64))) := by
  by_cases h : s.err = 0#8
  · exact Or.inr ⟨h, by simp [rejectWord, h]⟩
  · exact Or.inl ⟨h, by simp [rejectWord, h]⟩

end Sys2Proof.Laws
end

