-- ==== Sys2Proof/Laws/Bodies.lean ====
section
/-! SUPPORT. What each command's pseudocode may write when it completes: the rows "Writes" of the commands'
rules, one lemma per command. -/

namespace Sys2Proof.Laws

open Sys2Proof.Machine

theorem rewindBody_ok {s t : State} (h : rewindBody s = .ok t) : t = { s with inPos := 0#64 } := by
  simpa [rewindBody] using h.symm

theorem freqCountBody_ok {s t : State} (h : freqCountBody s = .ok t) :
    countLoop s (s.inLen.toNat - s.inPos.toNat) s.inPos zeroFreq = .ok (t.inPos, t.freq) ∧
    t = { s with inPos := t.inPos, freq := t.freq, flags := flagsAfterCount s.flags } := by
  unfold freqCountBody at h
  split at h
  · cases h
  · rename_i pos f e
    cases h
    exact ⟨e, rfl⟩

theorem pqInsertBody_ok {key : Word64} {node : NodeIx} {s t : State} (h : pqInsertBody key node s = .ok t) :
    pqInsert s.heap ⟨key, node⟩ = .ok t.heap ∧ t = { s with heap := t.heap } := by
  unfold pqInsertBody at h
  split at h
  · cases h
  · rename_i e
    cases h
    exact ⟨e, rfl⟩

theorem pqExtractMinBody_ok {s t : State} (h : pqExtractMinBody s = .ok t) :
    ∃ r, pqExtract s.heap = .ok (r, t.heap) ∧
      t = { s with heap := t.heap, resA := r.key, resB := r.node.setWidth 16 } := by
  unfold pqExtractMinBody at h
  split at h
  · cases h
  · rename_i r _ e
    cases h
    exact ⟨r, e, rfl⟩

theorem pqPeekBody_ok {s t : State} (h : pqPeekBody s = .ok t) :
    ∃ r, s.heap.head? = some r ∧ t = { s with resA := r.key, resB := r.node.setWidth 16 } := by
  unfold pqPeekBody at h
  split at h
  · cases h
  · rename_i r e
    cases h
    exact ⟨r, e, rfl⟩

theorem treeBuildBody_ok {s t : State} (h : treeBuildBody s = .ok t) :
    ∃ root, buildTree s.freq = .ok (t.nodes, root) ∧
      t = { s with
        heap := [], nodes := t.nodes, root := root.getD 0#9, flags := flagsAfterBuild root.isSome s.flags } := by
  unfold treeBuildBody at h
  split at h
  · cases h
  · rename_i root e
    cases h
    exact ⟨root, e, rfl⟩

theorem codeGenBody_ok {s t : State} (h : codeGenBody s = .ok t) :
    codesOf s.nodes (if s.flags.rootValid then some s.root else none) = .ok (t.code, t.ctCnt) ∧
    t = { s with code := t.code, ctCnt := t.ctCnt, nodes := [], flags := flagsAfterGen s.flags } := by
  unfold codeGenBody at h
  split at h
  · cases h
  · rename_i e
    cases h
    exact ⟨e, rfl⟩

theorem emitBody_ok {s t : State} (h : emitBody s = .ok t) :
    ∃ o, emitLoop s (s.inLen.toNat - s.inPos.toNat) s.inPos s.out.restart = .ok (t.inPos, o) ∧
      OutStream.puts s.outCap o (trailerBytes s.code) = .ok t.out ∧
      t = { s with inPos := t.inPos, out := t.out } := by
  unfold emitBody at h
  split at h
  · cases h
  · rename_i e
    split at h
    · cases h
    · rename_i e'
      cases h
      exact ⟨_, e, e', rfl⟩

/-- The parts `ENCODE` went through (R142). -/
theorem encodeBody_ok {s t : State} (h : encodeBody s = .ok t) :
    ∃ s₂ s₄ s₅, freqCountBody { s with inPos := 0#64 } = .ok s₂ ∧
      treeBuildBody { s₂ with inPos := 0#64 } = .ok s₄ ∧ codeGenBody s₄ = .ok s₅ ∧ emitBody s₅ = .ok t := by
  unfold encodeBody rewindBody at h
  simp only [bind, Except.bind] at h
  split at h
  · cases h
  · rename_i s₂ e₂
    split at h
    · cases h
    · rename_i s₄ e₄
      split at h
      · cases h
      · rename_i s₅ e₅
        exact ⟨s₂, s₄, s₅, e₂, e₄, e₅, h⟩

theorem vmPushBody_ok {ch : Byte} {s t : State} (h : vmPushBody ch s = .ok t) :
    ∃ r, vmStep s s.inPos s.cand s.out ch = .ok r ∧
      t = { s with cand := r.cand, out := r.out, resA := 0#64, resB := matchResult r.hit } := by
  unfold vmPushBody at h
  split at h
  · cases h
  · rename_i r e
    cases h
    exact ⟨r, e, rfl⟩

theorem decParseBody_ok {s t : State} (h : decParseBody s = .ok t) :
    ∃ e, parseContainer s = .ok (⟨t.rlt, t.maxLen⟩, e) ∧
      t = { s with
        inPos := 0#64, out := s.out.restart, rlt := t.rlt, maxLen := t.maxLen, cand := [],
        secEnd := BitVec.ofNat 64 e, flags := flagsAfterParse s.flags } := by
  unfold decParseBody at h
  split at h
  · cases h
  · rename_i x e eq
    cases h
    exact ⟨e, eq, rfl⟩

theorem decScanBody_ok {s t : State} (h : decScanBody s = .ok t) :
    scanLoop s (s.secEnd.toNat - s.inPos.toNat) s.inPos s.cand s.out = .ok (t.inPos, [], t.out) ∧
    t = { s with inPos := t.inPos, cand := [], out := t.out } := by
  unfold decScanBody at h
  split at h
  · cases h
  · rename_i pos c o e
    split at h
    · cases h
    · rename_i hc
      obtain rfl : c = [] := by simpa using hc
      cases h
      exact ⟨e, rfl⟩

/-- The parts `DECODE` went through (R163). -/
theorem decodeBody_ok {s t : State} (h : decodeBody s = .ok t) :
    ∃ u, decParseBody s = .ok u ∧ decScanBody u = .ok t := by
  unfold decodeBody at h
  simp only [bind, Except.bind] at h
  split at h
  · cases h
  · rename_i u e
    exact ⟨u, e, h⟩

end Sys2Proof.Laws
end

