-- ==== Sys2Proof/Laws/Queue.lean ====
section
/-! SUPPORT. What the queue's procedures do to the entries held, and which they move (spec/41_priority_queue.md R101, R102, R106). -/

namespace Sys2Proof.Laws

open Sys2Proof.Machine

/-! ## Exchanging two entries -/

@[simp] theorem length_swapAt (h : List HeapEntry) (i j : Nat) : (swapAt h i j).length = h.length := by
  unfold swapAt; split <;> simp

/-- Exchanging two entries keeps the multiset of entries. -/
theorem perm_swapAt (h : List HeapEntry) (i j : Nat) : (swapAt h i j).Perm h := by
  unfold swapAt
  split
  · rename_i x y hx hy
    obtain ⟨hi, rfl⟩ := List.getElem?_eq_some_iff.1 hx
    obtain ⟨hj, rfl⟩ := List.getElem?_eq_some_iff.1 hy
    exact List.set_set_perm hi hj
  · exact List.Perm.refl _

/-- The entry at each position after an exchange. -/
theorem getElem?_swapAt {h : List HeapEntry} {i j : Nat} (hi : i < h.length) (hj : j < h.length) (k : Nat) :
    (swapAt h i j)[k]? = if k = j then h[i]? else if k = i then h[j]? else h[k]? := by
  unfold swapAt
  rw [List.getElem?_eq_getElem hi, List.getElem?_eq_getElem hj]
  simp only [List.getElem?_set, List.length_set]
  by_cases h1 : k = j
  · subst h1; simp [hj]
  · by_cases h2 : k = i
    · subst h2; simp [h1, hi, Ne.symm h1]
    · simp [h1, h2, Ne.symm h1, Ne.symm h2]

theorem keyAt_swapAt {h : List HeapEntry} {i j : Nat} (hi : i < h.length) (hj : j < h.length) (k : Nat) :
    keyAt (swapAt h i j) k = if k = j then keyAt h i else if k = i then keyAt h j else keyAt h k := by
  unfold keyAt
  rw [getElem?_swapAt hi hj]
  split_ifs <;> rfl

theorem keyAt_getElem {h : List HeapEntry} {i : Nat} (hi : i < h.length) : keyAt h i = h[i].key := by
  simp [keyAt, hi]

/-! ## The loops keep the entries -/

theorem perm_siftUp (n : Nat) (h : List HeapEntry) (i : Nat) : (siftUp n h i).Perm h := by
  induction n generalizing h i with
  | zero => exact List.Perm.refl _
  | succ n ih =>
    unfold siftUp
    split_ifs
    · exact List.Perm.refl _
    · split
      · split_ifs
        · exact (ih _ _).trans (perm_swapAt _ _ _)
        · exact List.Perm.refl _
      · exact List.Perm.refl _

theorem perm_siftDown (n : Nat) (h : List HeapEntry) (i : Nat) : (siftDown n h i).Perm h := by
  induction n generalizing h i with
  | zero => exact List.Perm.refl _
  | succ n ih =>
    unfold siftDown
    split
    · exact List.Perm.refl _
    · split
      · split_ifs
        · exact (ih _ _).trans (perm_swapAt _ _ _)
        · exact List.Perm.refl _
      · exact List.Perm.refl _

/-- Everything `pq_insert` can do (R101): a full queue raises; any other holds the new entry and the old
ones. -/
theorem pqInsert_cases (h : List HeapEntry) (e : HeapEntry) :
    (256 ≤ h.length ∧ pqInsert h e = raise .capacityExceeded 0#64) ∨
    (h.length < 256 ∧ ∃ h', pqInsert h e = .ok h' ∧ h'.Perm (e :: h) ∧ h'.length = h.length + 1) := by
  unfold pqInsert pqCap
  by_cases hc : 256 ≤ h.length
  · exact Or.inl ⟨hc, by simp [hc]⟩
  · have hp : (siftUp h.length (h ++ [e]) h.length).Perm (e :: h) :=
      (perm_siftUp _ _ _).trans (List.perm_append_singleton e h)
    exact Or.inr ⟨by omega, _, by simp [hc], hp, by rw [hp.length_eq, List.length_cons]⟩

/-- Without its root a queue holds the other entries (R102). -/
theorem perm_removeRoot (r : HeapEntry) (rest : List HeapEntry) : (removeRoot (r :: rest)).Perm rest := by
  unfold removeRoot
  rcases List.eq_nil_or_concat rest with rfl | ⟨init, last, rfl⟩
  · exact List.Perm.refl _
  · have h1 : (r :: (init ++ [last])).getLast? = some last := by simp [List.getLast?_cons]
    have h2 : (r :: (init ++ [last])).dropLast = r :: init := by
      rw [← List.cons_append, List.dropLast_concat]
    simp only [List.concat_eq_append, h1, h2, List.set_cons_zero]
    exact (perm_siftDown _ _ _).trans (List.perm_append_singleton last init).symm

/-- Everything `pq_extract_min` can do (R102): an empty queue raises; any other gives its root, and the other
entries remain. -/
theorem pqExtract_cases (h : List HeapEntry) :
    (h = [] ∧ pqExtract h = raise .emptyQueue 0#64) ∨
    (∃ r rest, h = r :: rest ∧ pqExtract h = .ok (r, removeRoot h) ∧ (removeRoot h).Perm rest) := by
  cases h with
  | nil => exact Or.inl ⟨rfl, rfl⟩
  | cons r rest => exact Or.inr ⟨r, rest, rfl, rfl, perm_removeRoot r rest⟩

/-! ## Which entries the loops move -/

theorem parentIx_lt {i : Nat} (h : 0 < i) : parentIx i < i := by unfold parentIx; omega

/-- A position before the others of a path. -/
def consPath (i : Nat) (q : Nat → Nat) : Nat → Nat
  | 0 => i
  | j + 1 => q j

@[simp] theorem consPath_zero (i : Nat) (q : Nat → Nat) : consPath i q 0 = i := rfl
@[simp] theorem consPath_succ (i : Nat) (q : Nat → Nat) (j : Nat) : consPath i q (j + 1) = q j := rfl

/-- An exchange and a passage from there on are a passage. -/
theorem passes_cons {h h' : List HeapEntry} {e : HeapEntry} {q : Nat → Nat} {k i p : Nat} (hq : q 0 = p)
    (hi : i < h.length) (hpl : p < h.length) (hp : Passes (swapAt h p i) h' e q k) (hne : ∀ j ≤ k, q j ≠ i)
    (hne0 : ∀ j < k, q (j + 1) ≠ p) : Passes h h' e (consPath i q) (k + 1) := by
  obtain ⟨h1, h2, h3⟩ := hp
  refine ⟨fun j hj => ?_, h2, fun x hx => ?_⟩
  · cases j with
    | zero =>
      rw [consPath_zero, consPath_succ, h3 i (fun j hj => (hne j hj).symm), getElem?_swapAt hpl hi, if_pos rfl, hq]
    | succ j =>
      rw [consPath_succ, consPath_succ, h1 j (by omega), getElem?_swapAt hpl hi, if_neg (hne _ (by omega)),
        if_neg (hne0 j (by omega))]
  · have hx' : ∀ j ≤ k, x ≠ q j := fun j hj => hx (j + 1) (by omega)
    have hx0 : x ≠ i := hx 0 (by omega)
    rw [h3 x hx', getElem?_swapAt hpl hi, if_neg hx0, if_neg (hq ▸ hx' 0 (by omega))]

/-- An entry that stays is a passage of no steps. -/
theorem passes_refl {h : List HeapEntry} {e : HeapEntry} {i : Nat} (hi : h[i]? = some e) :
    Passes h h e (fun _ => i) 0 := ⟨fun _ hj => absurd hj (by omega), hi, fun _ _ => rfl⟩

/-- What a passage looks like from a queue that differs at the first position only. -/
theorem passes_congr {g g' h : List HeapEntry} {e : HeapEntry} {q : Nat → Nat} {k : Nat} (hp : Passes g h e q k)
    (hne : ∀ j < k, q (j + 1) ≠ q 0) (hg : ∀ x, x ≠ q 0 → g[x]? = g'[x]?) : Passes g' h e q k :=
  ⟨fun j hj => by rw [hp.1 j hj, hg _ (hne j hj)], hp.2.1, fun x hx => by rw [hp.2.2 x hx, hg _ (hx 0 (by omega))]⟩

theorem keyAt_congr {g g' : List HeapEntry} {i : Nat} (h : g[i]? = g'[i]?) : keyAt g i = keyAt g' i := by
  unfold keyAt; rw [h]

/-- What the loop of `pq_insert` moves (R101). -/
theorem siftUp_passes (n : Nat) {h : List HeapEntry} {i : Nat} {e : HeapEntry} (hn : i ≤ n) (hi : h[i]? = some e) :
    ∃ q k, q 0 = i ∧ Passes h (siftUp n h i) e q k ∧
      (∀ j < k, 0 < q j ∧ q (j + 1) = parentIx (q j) ∧ e.key < keyAt h (q (j + 1))) ∧
      (0 < q k → keyAt h (parentIx (q k)) ≤ e.key) ∧ ∀ j ≤ k, q j ≤ i ∧ (0 < j → q j < i) := by
  induction n generalizing h i with
  | zero =>
    obtain rfl : i = 0 := by omega
    exact ⟨fun _ => 0, 0, rfl, passes_refl hi, fun _ hj => absurd hj (by omega), fun h => absurd h (Nat.lt_irrefl 0),
      fun j hj => ⟨Nat.le_refl _, fun h => absurd h (by omega)⟩⟩
  | succ n ih =>
    rw [siftUp]
    by_cases h0 : i = 0
    · rw [if_pos h0]
      exact ⟨fun _ => i, 0, rfl, passes_refl hi, fun _ hj => absurd hj (by omega), fun h => absurd h h0.not_gt,
        fun j hj => ⟨Nat.le_refl _, fun h => absurd h (by omega)⟩⟩
    obtain ⟨hil, hie⟩ := List.getElem?_eq_some_iff.1 hi
    have hp := parentIx_lt (i := i) (by omega)
    have hpl : parentIx i < h.length := by omega
    rw [if_neg h0, List.getElem?_eq_getElem hpl, hi]
    simp only
    rw [← keyAt_getElem hpl]
    by_cases hk : e.key < keyAt h (parentIx i)
    · rw [if_pos hk]
      obtain ⟨q, k, hq0, hpass, hstep, hend, hle⟩ := ih (h := swapAt h (parentIx i) i) (i := parentIx i) (by omega)
        (by rw [getElem?_swapAt hpl hil, if_neg (by omega), if_pos rfl, hi])
      have hkey : ∀ x < parentIx i, keyAt (swapAt h (parentIx i) i) x = keyAt h x := fun x hx => by
        rw [keyAt_swapAt hpl hil, if_neg (by omega), if_neg (by omega)]
      refine ⟨consPath i q, k + 1, rfl, ?_, fun j hj => ?_, fun hpos => ?_, fun j hj => ?_⟩
      · refine passes_cons hq0 hil hpl hpass (fun j hj => ?_) fun j hj => ?_
        · have := (hle j hj).1; omega
        · have := (hle (j + 1) (by omega)).2 (by omega); omega
      · cases j with
        | zero => exact ⟨by simp; omega, by simp [hq0], by simpa [hq0] using hk⟩
        | succ j =>
          obtain ⟨a, b, c⟩ := hstep j (by omega)
          refine ⟨a, b, ?_⟩
          rwa [hkey _ ((hle (j + 1) (by omega)).2 (by omega))] at c
      · rw [consPath_succ] at hpos ⊢
        have h1 := hend hpos
        have := parentIx_lt hpos
        have := (hle k (by omega)).1
        rwa [hkey _ (by omega)] at h1
      · cases j with
        | zero => exact ⟨Nat.le_refl _, fun h => by omega⟩
        | succ j =>
          have := (hle j (by omega)).1
          simp only [consPath_succ]; omega
    · rw [if_neg hk]
      refine ⟨fun _ => i, 0, rfl, passes_refl hi, fun _ hj => absurd hj (by omega), fun _ => ?_,
        fun j hj => ⟨Nat.le_refl _, fun h => absurd h (by omega)⟩⟩
      rw [BitVec.lt_def] at hk
      exact BitVec.le_def.2 (Nat.not_lt.1 hk)

/-- What `pq_insert` moves (R101). -/
theorem pqInsert_rises {h h' : List HeapEntry} {e : HeapEntry} (hi : pqInsert h e = .ok h') : Rises h h' e := by
  unfold pqInsert at hi
  split_ifs at hi
  · cases hi
  · obtain rfl : siftUp h.length (h ++ [e]) h.length = h' := by simpa using hi
    obtain ⟨q, k, hq0, hpass, hstep, hend, hle⟩ :=
      siftUp_passes h.length (h := h ++ [e]) (i := h.length) (e := e) (Nat.le_refl _) (by simp)
    have hg : ∀ x, x ≠ h.length → (h ++ [e])[x]? = h[x]? := fun x hx => by
      by_cases hl : x < h.length
      · exact List.getElem?_append_left hl
      · rw [List.getElem?_eq_none (by simp; omega), List.getElem?_eq_none (by omega)]
    refine ⟨q, k, hq0, passes_congr hpass (fun j hj => ?_) (by rwa [hq0]), fun j hj => ?_, fun hpos => ?_⟩
    · have := (hle (j + 1) (by omega)).2 (by omega); omega
    · obtain ⟨a, b, c⟩ := hstep j hj
      have := (hle (j + 1) (by omega)).2 (by omega)
      exact ⟨a, b, by rwa [keyAt_congr (hg _ (by omega))] at c⟩
    · have h1 := hend hpos
      have := parentIx_lt hpos
      have := (hle k (by omega)).1
      rwa [keyAt_congr (hg _ (by omega))] at h1

/-- The child an entry is compared with (R102). -/
theorem smallerChild_eq_some {h : List HeapEntry} {i c : Nat} :
    smallerChild h i = some c ↔ LesserChild h i c := by
  unfold smallerChild LesserChild
  have hlr : rightIx i = leftIx i + 1 := rfl
  by_cases hl : leftIx i < h.length
  · rw [List.getElem?_eq_getElem hl]
    by_cases hr : rightIx i < h.length
    · rw [List.getElem?_eq_getElem hr]
      simp only
      rw [← keyAt_getElem hl, ← keyAt_getElem hr]
      by_cases hk : keyAt h (rightIx i) < keyAt h (leftIx i)
      · rw [if_pos hk]
        have hk' := hk
        rw [BitVec.lt_def] at hk'
        constructor
        · rintro ⟨⟩; exact ⟨hr, .inr ⟨rfl, hk⟩⟩
        · rintro ⟨_, ⟨rfl, h1⟩ | ⟨rfl, _⟩⟩
          · have := BitVec.le_def.1 (h1 hr); omega
          · rfl
      · rw [if_neg hk]
        have hk' := hk
        rw [BitVec.lt_def] at hk'
        constructor
        · rintro ⟨⟩; exact ⟨hl, .inl ⟨rfl, fun _ => BitVec.le_def.2 (by omega)⟩⟩
        · rintro ⟨_, ⟨rfl, h1⟩ | ⟨rfl, h1⟩⟩
          · rfl
          · exact absurd h1 hk
    · rw [List.getElem?_eq_none (by omega)]
      simp only
      constructor
      · rintro ⟨⟩; exact ⟨hl, .inl ⟨rfl, fun h => absurd h hr⟩⟩
      · rintro ⟨hc, ⟨rfl, _⟩ | ⟨rfl, _⟩⟩
        · rfl
        · exact absurd hc hr
  · rw [List.getElem?_eq_none (by omega)]
    simp only
    constructor
    · intro h; cases h
    · rintro ⟨hc, ⟨rfl, _⟩ | ⟨rfl, _⟩⟩ <;> omega

/-- A child lies in the queue, after its parent. -/
theorem lesserChild_bounds {h : List HeapEntry} {i c : Nat} (hc : LesserChild h i c) : i < c ∧ c < h.length := by
  obtain ⟨h1, ⟨rfl, _⟩ | ⟨rfl, _⟩⟩ := hc <;> simp only [leftIx, rightIx] at * <;> omega

/-- Which child it is depends on the keys after the parent only. -/
theorem lesserChild_congr {g g' : List HeapEntry} {i c : Nat} (hl : g.length = g'.length)
    (hk : ∀ x, i < x → keyAt g x = keyAt g' x) : LesserChild g i c ↔ LesserChild g' i c := by
  unfold LesserChild
  rw [hl, hk (leftIx i) (by unfold leftIx; omega), hk (rightIx i) (by unfold rightIx; omega)]

/-- What the loop of `pq_extract_min` moves (R102). -/
theorem siftDown_passes (n : Nat) {h : List HeapEntry} {i : Nat} {e : HeapEntry} (hn : h.length ≤ n + i)
    (hi : h[i]? = some e) :
    ∃ q k, q 0 = i ∧ Passes h (siftDown n h i) e q k ∧
      (∀ j < k, LesserChild h (q j) (q (j + 1)) ∧ keyAt h (q (j + 1)) < e.key) ∧
      (∀ c, LesserChild h (q k) c → e.key ≤ keyAt h c) ∧ ∀ j ≤ k, i ≤ q j ∧ (0 < j → i < q j) := by
  obtain ⟨hil, hie⟩ := List.getElem?_eq_some_iff.1 hi
  induction n generalizing h i with
  | zero => omega
  | succ n ih =>
    rw [siftDown]
    have stay : (∀ c, LesserChild h i c → e.key ≤ keyAt h c) → ∃ q k, q 0 = i ∧ Passes h h e q k ∧
        (∀ j < k, LesserChild h (q j) (q (j + 1)) ∧ keyAt h (q (j + 1)) < e.key) ∧
        (∀ c, LesserChild h (q k) c → e.key ≤ keyAt h c) ∧ ∀ j ≤ k, i ≤ q j ∧ (0 < j → i < q j) := fun hc =>
      ⟨fun _ => i, 0, rfl, passes_refl hi, fun _ hj => absurd hj (by omega), hc, fun j hj => ⟨Nat.le_refl _, fun h => absurd h (by omega)⟩⟩
    cases hs : smallerChild h i with
    | none =>
      exact stay fun c hc => by rw [smallerChild_eq_some.2 hc] at hs; cases hs
    | some c =>
      have hlc := smallerChild_eq_some.1 hs
      obtain ⟨hic, hcl⟩ := lesserChild_bounds hlc
      simp only
      rw [List.getElem?_eq_getElem hcl, hi]
      simp only
      rw [← keyAt_getElem hcl]
      by_cases hk : keyAt h c < e.key
      · rw [if_pos hk]
        have hc' : (swapAt h c i)[c]? = some e := by
          rw [getElem?_swapAt hcl hil, if_neg (by omega), if_pos rfl, hi]
        obtain ⟨q, k, hq0, hpass, hstep, hend, hle⟩ := ih (h := swapAt h c i) (i := c) (by rw [length_swapAt]; omega)
          hc' (by rw [length_swapAt]; omega) (List.getElem?_eq_some_iff.1 hc').2
        have hkey : ∀ x, c < x → keyAt (swapAt h c i) x = keyAt h x := fun x hx => by
          rw [keyAt_swapAt hcl hil, if_neg (by omega), if_neg (by omega)]
        have hsame : ∀ j ≤ k, ∀ x, LesserChild (swapAt h c i) (q j) x ↔ LesserChild h (q j) x := fun j hj x =>
          lesserChild_congr (length_swapAt _ _ _) fun y hy => hkey y (by have := (hle j hj).1; omega)
        refine ⟨consPath i q, k + 1, rfl, ?_, fun j hj => ?_, fun x hx => ?_, fun j hj => ?_⟩
        · refine passes_cons hq0 hil hcl hpass (fun j hj => ?_) fun j hj => ?_
          · have := (hle j hj).1; omega
          · have := (hle (j + 1) (by omega)).2 (by omega); omega
        · cases j with
          | zero => simpa [hq0] using And.intro hlc hk
          | succ j =>
            obtain ⟨a, b⟩ := hstep j (by omega)
            refine ⟨(hsame j (by omega) _).1 a, ?_⟩
            rwa [hkey _ ((hle (j + 1) (by omega)).2 (by omega))] at b
        · rw [consPath_succ] at hx
          have h1 := hend x ((hsame k (by omega) x).2 hx)
          have := lesserChild_bounds hx
          have := (hle k (by omega)).1
          rwa [hkey _ (by omega)] at h1
        · cases j with
          | zero => exact ⟨Nat.le_refl _, fun h => by omega⟩
          | succ j =>
            have := (hle j (by omega)).1
            simp only [consPath_succ]; omega
      · rw [if_neg hk]
        refine stay fun x hx => ?_
        rw [smallerChild_eq_some.2 hx, Option.some.injEq] at hs
        subst hs
        rw [BitVec.lt_def] at hk
        rw [BitVec.le_def]; omega

/-- What `pq_extract_min` moves (R102). -/
theorem removeRoot_sinks (r : HeapEntry) (init : List HeapEntry) (last : HeapEntry) :
    Sinks (r :: init) (removeRoot (r :: (init ++ [last]))) last := by
  have h1 : (r :: (init ++ [last])).getLast? = some last := by simp [List.getLast?_cons]
  have h2 : (r :: (init ++ [last])).dropLast = r :: init := by
    rw [← List.cons_append, List.dropLast_concat]
  have h3 : removeRoot (r :: (init ++ [last])) = siftDown (r :: init).length (last :: init) 0 := by
    simp only [removeRoot, h1, h2, List.set_cons_zero]
  rw [h3]
  obtain ⟨q, k, hq0, hpass, hstep, hend, hle⟩ :=
    siftDown_passes (r :: init).length (h := last :: init) (i := 0) (e := last) (by simp) rfl
  have hg : ∀ x, x ≠ 0 → (last :: init)[x]? = (r :: init)[x]? := fun x hx => by
    obtain ⟨y, rfl⟩ : ∃ y, x = y + 1 := ⟨x - 1, by omega⟩
    rw [List.getElem?_cons_succ, List.getElem?_cons_succ]
  have hsame : ∀ i c, LesserChild (last :: init) i c ↔ LesserChild (r :: init) i c := fun i c =>
    lesserChild_congr rfl fun x hx => keyAt_congr (hg x (by omega))
  refine ⟨q, k, hq0, passes_congr hpass (fun j hj => ?_) (by rwa [hq0]), fun j hj => ?_, fun c hc => ?_⟩
  · have := (hle (j + 1) (by omega)).2 (by omega); omega
  · obtain ⟨a, b⟩ := hstep j hj
    have := (hle (j + 1) (by omega)).2 (by omega)
    exact ⟨(hsame _ _).1 a, by rwa [keyAt_congr (hg _ (by omega))] at b⟩
  · have h4 := hend c ((hsame _ _).2 hc)
    have := lesserChild_bounds hc
    rwa [keyAt_congr (hg _ (by omega))] at h4

end Sys2Proof.Laws
end

