-- ==== Sys2Proof/Laws/Tables.lean ====
section
/-! SUPPORT. The tables with one entry per byte value: reading after writing, and the pairs a loop over a table
goes through (spec/10_state.md R13, R16). -/

namespace Sys2Proof.Laws

open Sys2Proof.Machine

/-- Reading an entry after writing one. -/
theorem tget_tset {α : Type} (t : Vector α 256) (b : Byte) (v : α) (x : Byte) :
    tget (tset t b v) x = if b = x then v else tget t x := by
  unfold tget tset
  rw [Vector.getElem_set]
  by_cases h : b = x
  · simp [h]
  · have h' : b.toNat ≠ x.toNat := fun e => h (BitVec.eq_of_toNat_eq e)
    simp [h, h']

@[simp] theorem tget_replicate {α : Type} (v : α) (b : Byte) : tget (Vector.replicate 256 v) b = v := by
  unfold tget; exact Vector.getElem_replicate _

/-- Two tables with the same entries are the same table. -/
theorem table_ext {α : Type} {t u : Vector α 256} (h : ∀ b, tget t b = tget u b) : t = u := by
  apply Vector.ext
  intro i hi
  have := h (BitVec.ofNat 8 i)
  unfold tget at this
  have hi' : (BitVec.ofNat 8 i).toNat = i := by rw [BitVec.toNat_ofNat]; omega
  simpa [hi'] using this

theorem length_byteValues : byteValues.length = 256 := by simp [byteValues]

theorem getElem_byteValues {i : Nat} (h : i < byteValues.length) : byteValues[i] = BitVec.ofNat 8 i := by
  simp [byteValues]

/-- Every byte value is visited. -/
theorem mem_byteValues (b : Byte) : b ∈ byteValues :=
  List.mem_map.2 ⟨b.toNat, List.mem_range.2 b.isLt, by simp⟩

/-- No byte value is visited twice. -/
theorem nodup_byteValues : byteValues.Nodup := by
  rw [byteValues, List.nodup_map_iff_inj_on List.nodup_range]
  intro x hx y hy h
  have hx' := List.mem_range.1 hx
  have hy' := List.mem_range.1 hy
  have := congrArg BitVec.toNat h
  rw [BitVec.toNat_ofNat, BitVec.toNat_ofNat] at this
  omega

/-- The loop over a table visits each byte value once, in ascending order, with its entry. -/
theorem entries_eq {α : Type} (t : Vector α 256) : entries t = byteValues.map fun b => (b, tget t b) := by
  apply List.ext_getElem
  · simp [entries, length_byteValues]
  · intro i h1 h2
    have hi : i < 256 := by simpa [entries, length_byteValues] using h1
    have hb : (BitVec.ofNat 8 i).toNat = i := by rw [BitVec.toNat_ofNat]; omega
    simp [entries, getElem_byteValues, tget, hb]

/-- One more of a counter, the others as they were (R90). -/
theorem tget_bump (f : FreqTable) (b x : Byte) :
    tget (bump f b) x = if b = x then tget f b + 1#64 else tget f x := by
  rw [bump, tget_tset]

@[simp] theorem ctLookup_emptyCode (b : Byte) : ctLookup emptyCode b = none := tget_replicate none b

/-- What a table holds after `record` of each pair: the last pair of a symbol wins (R131). -/
theorem ctLookup_recordAll (rs : List (Byte × Code)) (t : CodeTable) (n : BitVec 9) (b : Byte) :
    ctLookup (recordAll rs t n).1 b =
      match (rs.reverse.find? fun r => r.1 = b) with
      | some r => some r.2
      | none => ctLookup t b := by
  induction rs generalizing t n with
  | nil => rfl
  | cons r rs ih =>
    rw [recordAll, ih, List.reverse_cons, List.find?_append]
    cases h : rs.reverse.find? (fun r => r.1 = b) with
    | some x => simp
    | none =>
      by_cases hb : r.1 = b
      · simp [hb, ctLookup, tget_tset]
      · simp [hb, ctLookup, tget_tset]

/-- `CT_CNT` counts the pairs recorded (R131). -/
theorem recordAll_count (rs : List (Byte × Code)) (t : CodeTable) (n : BitVec 9) :
    (recordAll rs t n).2 = n + BitVec.ofNat 9 rs.length := by
  induction rs generalizing t n with
  | nil => simp [recordAll]
  | cons r rs ih =>
    rw [recordAll, ih, List.length_cons, BitVec.add_assoc]
    congr 1
    apply BitVec.eq_of_toNat_eq
    simp [BitVec.toNat_add]
    omega

/-- When the symbols recorded are distinct, the table holds exactly the pairs. -/
theorem ctLookup_recordAll_nodup {rs : List (Byte × Code)} (h : (rs.map Prod.fst).Nodup) (n : BitVec 9) (b : Byte)
    (c : Code) : ctLookup (recordAll rs emptyCode n).1 b = some c ↔ (b, c) ∈ rs := by
  rw [ctLookup_recordAll, ctLookup_emptyCode]
  have hr : (rs.reverse.map Prod.fst).Nodup := by rw [List.map_reverse]; exact List.nodup_reverse.2 h
  rw [← List.mem_reverse (as := rs)]
  generalize rs.reverse = us at hr
  induction us with
  | nil => simp
  | cons r us ih =>
    simp only [List.map_cons, List.nodup_cons] at hr
    rw [List.find?_cons]
    by_cases hb : r.1 = b
    · subst hb
      simp only [decide_true, List.mem_cons]
      constructor
      · rintro h
        left; ext <;> simp_all
      · rintro (h | h)
        · rw [← h]
        · exact absurd (List.mem_map.2 ⟨_, h, rfl⟩) hr.1
    · simp only [hb, decide_false, List.mem_cons]
      refine (ih hr.2).trans ⟨Or.inr, ?_⟩
      rintro (h | h)
      · exact absurd (by rw [← h]) hb
      · exact h

/-- Every entry of the table comes from some pair recorded. -/
theorem mem_of_ctLookup_recordAll {rs : List (Byte × Code)} {n : BitVec 9} {b : Byte} {c : Code}
    (h : ctLookup (recordAll rs emptyCode n).1 b = some c) : (b, c) ∈ rs := by
  rw [ctLookup_recordAll, ctLookup_emptyCode] at h
  split at h
  · rename_i r hr
    have h1 := List.mem_of_find?_eq_some hr
    have h2 := List.find?_some hr
    simp at h1 h2 h
    rw [← h2, ← h]; exact h1
  · cases h

/-- The records written are those of the specification's loop (R70, R71). -/
theorem tableBytes_entries (t : CodeTable) : tableBytes (entries t) = metadataRecords t := by
  rw [entries_eq, metadataRecords]
  induction byteValues with
  | nil => rfl
  | cons b bs ih =>
    simp only [List.map_cons, List.flatMap_cons, ctLookup] at ih ⊢
    cases tget t b with
    | none => simpa [tableBytes] using ih
    | some c => simp [tableBytes, ih, recordBytes, metadataRecord, bitChars]

/-- What `EMIT` writes after the bit section is the rest of the container (R70). -/
theorem trailerBytes_eq (t : CodeTable) :
    trailerBytes t = [charNL] ++ marker ++ [charNL] ++ metadataRecords t := by
  rw [trailerBytes, tableBytes_entries]; simp

end Sys2Proof.Laws
end

