-- ==== Sys2Proof/Laws/Trees.lean ====
section
/-! SUPPORT. Trees in the node arena: what `walk` records of one (spec/43_code_table.md R131 to R134,
spec/10_state.md R15). -/

namespace Sys2Proof.Laws

open Sys2Proof.Machine

/-- A tree, apart from the arena that holds it. -/
inductive HTree where
  | leaf (sym : Byte) (freq : Word64)
  | node (freq : Word64) (left right : HTree)

/-- The byte values of the leaves, left before right. -/
def HTree.leaves : HTree → List Byte
  | .leaf b _ => [b]
  | .node _ l r => l.leaves ++ r.leaves

/-- The number of descents to the deepest leaf. -/
def HTree.height : HTree → Nat
  | .leaf _ _ => 0
  | .node _ l r => max l.height r.height + 1

/-- What a walk records: each leaf with the descents that reach it. -/
def HTree.records : HTree → Code → List (Byte × Code)
  | .leaf b _, acc => [(b, acc)]
  | .node _ l r, acc => l.records (acc ++ [false]) ++ r.records (acc ++ [true])

/-- The arena holds a tree at an index. -/
inductive Rep (nodes : List Node) : NodeIx → HTree → Prop where
  | leaf {ix : NodeIx} {b : Byte} {w : Word64} (h : nodes[ix.toNat]? = some (.leaf b w)) : Rep nodes ix (.leaf b w)
  | node {ix l r : NodeIx} {w : Word64} {L R : HTree} (h : nodes[ix.toNat]? = some (.internal w l r))
      (hl : Rep nodes l L) (hr : Rep nodes r R) : Rep nodes ix (.node w L R)

/-- The root of a tree of the arena is in it. -/
theorem Rep.lt {nodes : List Node} {ix : NodeIx} {T : HTree} (h : Rep nodes ix T) : ix.toNat < nodes.length := by
  cases h with
  | leaf h => exact (List.getElem?_eq_some_iff.1 h).1
  | node h _ _ => exact (List.getElem?_eq_some_iff.1 h).1

/-- A tree stays where it is when the arena grows. -/
theorem Rep.append {nodes : List Node} {ix : NodeIx} {T : HTree} (h : Rep nodes ix T) (more : List Node) :
    Rep (nodes ++ more) ix T := by
  have grow : ∀ {k : Nat} {n : Node}, nodes[k]? = some n → (nodes ++ more)[k]? = some n := fun hk => by
    obtain ⟨hlt, rfl⟩ := List.getElem?_eq_some_iff.1 hk
    rw [List.getElem?_append_left hlt, List.getElem?_eq_getElem hlt]
  induction h with
  | leaf h => exact .leaf (grow h)
  | node h _ _ ihl ihr => exact .node (grow h) ihl ihr

theorem HTree.leaves_ne_nil (T : HTree) : T.leaves ≠ [] := by
  induction T with
  | leaf b w => simp [leaves]
  | node w l r ihl ihr => simp [leaves, ihl]

/-- A tree with `k` leaves has at most `k - 1` levels below its root. -/
theorem HTree.height_lt_leaves (T : HTree) : T.height < T.leaves.length := by
  induction T with
  | leaf b w => simp [leaves, height]
  | node w l r ihl ihr =>
    have h1 := List.length_pos_of_ne_nil l.leaves_ne_nil
    have h2 := List.length_pos_of_ne_nil r.leaves_ne_nil
    simp only [leaves, height, List.length_append]
    omega

/-- The symbols recorded are those of the leaves, in order. -/
theorem HTree.map_fst_records (T : HTree) (acc : Code) : (T.records acc).map Prod.fst = T.leaves := by
  induction T generalizing acc with
  | leaf b w => rfl
  | node w l r ihl ihr => simp [records, leaves, ihl, ihr]

/-- Every code recorded continues the descents made so far, by at most the height. -/
theorem HTree.mem_records {T : HTree} {acc : Code} {x : Byte × Code} (h : x ∈ T.records acc) :
    ∃ p, x.2 = acc ++ p ∧ p.length ≤ T.height := by
  induction T generalizing acc with
  | leaf b w =>
    rw [records, List.mem_singleton] at h
    exact ⟨[], by simp [h], by simp [height]⟩
  | node w l r ihl ihr =>
    simp only [height]
    rcases List.mem_append.1 h with h | h
    · obtain ⟨p, hp, hl⟩ := ihl h
      exact ⟨false :: p, by simp [hp], by simp; omega⟩
    · obtain ⟨p, hp, hl⟩ := ihr h
      exact ⟨true :: p, by simp [hp], by simp; omega⟩

/-- Below an internal node every code has at least one bit. -/
theorem HTree.one_le_of_mem_records {w : Word64} {l r : HTree} {x : Byte × Code}
    (h : x ∈ (HTree.node w l r).records []) : 1 ≤ x.2.length := by
  rcases List.mem_append.1 h with h | h <;> obtain ⟨p, hp, _⟩ := HTree.mem_records h <;> simp [hp]

/-- No code recorded is a prefix of another (R133). -/
theorem HTree.records_pairwise (T : HTree) (acc : Code) :
    (T.records acc).Pairwise fun x y => ¬ x.2 <+: y.2 ∧ ¬ y.2 <+: x.2 := by
  induction T generalizing acc with
  | leaf b w => simp [records]
  | node w l r ihl ihr =>
    rw [records, List.pairwise_append]
    refine ⟨ihl _, ihr _, fun x hx y hy => ?_⟩
    obtain ⟨p, hp, _⟩ := HTree.mem_records hx
    obtain ⟨q, hq, _⟩ := HTree.mem_records hy
    rw [hp, hq, List.append_assoc, List.append_assoc, List.prefix_append_right_inj, List.prefix_append_right_inj]
    simp

/-- A walk of a tree that fits the stack records the tree's codes. -/
theorem walk_of_rep {nodes : List Node} {ix : NodeIx} {T : HTree} (h : Rep nodes ix T) (n : Nat) (acc : Code)
    (hn : T.height < n) : walk nodes n ix acc = .ok (T.records acc) := by
  induction h generalizing n acc with
  | leaf h =>
    obtain ⟨n, rfl⟩ : ∃ k, n = k + 1 := ⟨n - 1, by omega⟩
    simp [walk, h, HTree.records]
  | node h _ _ ihl ihr =>
    obtain ⟨n, rfl⟩ : ∃ k, n = k + 1 := ⟨n - 1, by omega⟩
    simp only [HTree.height] at hn
    simp only [walk, h, ihl n (acc ++ [false]) (by omega), ihr n (acc ++ [true]) (by omega), HTree.records]

/-- A walk that succeeds has walked a tree. -/
theorem rep_of_walk {nodes : List Node} (n : Nat) {ix : NodeIx} {acc : Code} {rs : List (Byte × Code)}
    (h : walk nodes n ix acc = .ok rs) : ∃ T, Rep nodes ix T ∧ rs = T.records acc ∧ T.height < n := by
  induction n generalizing ix acc rs with
  | zero => cases h
  | succ n ih =>
    rw [walk] at h
    split at h
    · cases h
    · rename_i b w hx
      cases h
      exact ⟨.leaf b w, .leaf hx, rfl, by simp [HTree.height]⟩
    · rename_i w l r hx
      split at h
      · cases h
      · rename_i xs hxs
        split at h
        · cases h
        · rename_i ys hys
          cases h
          obtain ⟨L, hL, rfl, hlL⟩ := ih hxs
          obtain ⟨R, hR, rfl, hlR⟩ := ih hys
          exact ⟨.node w L R, .node hx hL hR, rfl, by simp only [HTree.height]; omega⟩

/-- The descents of a code lead to a leaf exactly when the walk records that code for it. -/
theorem mem_records_iff_descend {nodes : List Node} {ix : NodeIx} {T : HTree} (h : Rep nodes ix T) (acc c : Code)
    (b : Byte) : (b, acc ++ c) ∈ T.records acc ↔ ∃ w, descend nodes ix c = some (.leaf b w) := by
  induction h generalizing acc c with
  | @leaf ix b' w h =>
    cases c with
    | nil => simp [HTree.records, descend, h, eq_comm]
    | cons x c => simp [HTree.records, descend, h]
  | @node ix l r w L R h _ _ ihl ihr =>
    cases c with
    | nil =>
      simp only [HTree.records, List.mem_append, descend, h, List.append_nil]
      constructor
      · rintro (hm | hm) <;> obtain ⟨p, hp, _⟩ := HTree.mem_records hm <;> simp at hp
      · rintro ⟨w', hw⟩; simp at hw
    | cons x c =>
      simp only [HTree.records, List.mem_append, descend, h]
      cases x with
      | false =>
        rw [if_neg (by simp), ← ihl (acc ++ [false]) c]
        constructor
        · rintro (hm | hm)
          · simpa using hm
          · obtain ⟨p, hp, _⟩ := HTree.mem_records hm; simp at hp
        · intro hm; exact .inl (by simpa using hm)
      | true =>
        rw [if_pos rfl, ← ihr (acc ++ [true]) c]
        constructor
        · rintro (hm | hm)
          · obtain ⟨p, hp, _⟩ := HTree.mem_records hm; simp at hp
          · simpa using hm
        · intro hm; exact .inr (by simpa using hm)

/-- Everything `CODE_GEN` can record of an arena (R131, R132): the code `"0"` for a lone leaf, the paths of a tree
otherwise. -/
theorem treeRecords_ok {nodes : List Node} {root : NodeIx} {rs : List (Byte × Code)}
    (h : treeRecords nodes root = .ok rs) :
    (∃ b w, nodes[root.toNat]? = some (.leaf b w) ∧ rs = [(b, [false])]) ∨
    (∃ w L R, Rep nodes root (.node w L R) ∧ (HTree.node w L R).height < 256 ∧ rs = (HTree.node w L R).records []) := by
  unfold treeRecords at h
  split at h
  · rename_i b w hx
    cases h
    exact .inl ⟨b, w, hx, rfl⟩
  · rename_i hx
    obtain ⟨T, hT, rfl, hn⟩ := rep_of_walk _ h
    cases hT with
    | leaf h' => exact absurd h' (hx _ _)
    | node h' hl hr => exact .inr ⟨_, _, _, .node h' hl hr, hn, rfl⟩

/-- The codes of a tree of at most 256 levels are recorded. -/
theorem treeRecords_of_rep {nodes : List Node} {root : NodeIx} {T : HTree} (h : Rep nodes root T)
    (hn : T.height < 256) : ∃ rs, treeRecords nodes root = .ok rs ∧ rs.map Prod.fst = T.leaves := by
  cases h with
  | leaf h' => exact ⟨_, by rw [treeRecords, h'], rfl⟩
  | node h' hl hr =>
    refine ⟨_, ?_, HTree.map_fst_records _ []⟩
    rw [treeRecords, h']
    exact walk_of_rep (.node h' hl hr) 256 [] hn

end Sys2Proof.Laws
end

