-- ==== Sys2Proof/Laws/Build.lean ====
section
/-! SUPPORT. Building the tree: what the queue and the arena hold while it is built (spec/42_tree_builder.md R120,
R121, R123). -/

namespace Sys2Proof.Laws

open Sys2Proof.Machine

/-- Adding a node to a forest with room in the queue. -/
theorem addNode_ok (g : Forest) (n : Node) (w : Word64) (h : g.heap.length < 256) :
    ∃ h', addNode g n w = .ok ⟨h', g.nodes ++ [n]⟩ ∧ h'.Perm (⟨w, BitVec.ofNat 9 g.nodes.length⟩ :: g.heap) := by
  unfold addNode
  rcases pqInsert_cases g.heap ⟨w, BitVec.ofNat 9 g.nodes.length⟩ with ⟨h', _⟩ | ⟨_, h', e, hp, _⟩
  · omega
  · exact ⟨h', by rw [e], hp⟩

/-- What adding a node has done, when it succeeds. -/
theorem addNode_eq_ok {g g' : Forest} {n : Node} {w : Word64} (h : addNode g n w = .ok g') :
    ∃ h', pqInsert g.heap ⟨w, BitVec.ofNat 9 g.nodes.length⟩ = .ok h' ∧ g' = ⟨h', g.nodes ++ [n]⟩ := by
  unfold addNode at h
  split at h
  · cases h
  · rename_i h' e; cases h; exact ⟨_, e, rfl⟩

/-- What a merge has done, when it succeeds (R121): two extractions and the addition of the parent. -/
theorem mergeTwo_eq_ok {g g' : Forest} (h : mergeTwo g = .ok g') :
    ∃ e1 h1 e2 h2, pqExtract g.heap = .ok (e1, h1) ∧ pqExtract h1 = .ok (e2, h2) ∧
      addNode ⟨h2, g.nodes⟩ (.internal (weightSum e1.key e2.key) e1.node e2.node) (weightSum e1.key e2.key) =
        .ok g' := by
  unfold mergeTwo at h
  split at h
  · cases h
  · rename_i e1 h1 a
    split at h
    · cases h
    · rename_i e2 h2 b; exact ⟨e1, h1, e2, h2, a, b, h⟩

/-- What merging two of a forest's trees does (R121): the roots of the queue go, their parent comes. -/
theorem mergeTwo_ok (g : Forest) (h2 : 2 ≤ g.heap.length) (hc : g.heap.length ≤ 256) :
    ∃ e1 e2 rest h', g.heap.Perm (e1 :: e2 :: rest) ∧
      mergeTwo g =
        .ok ⟨h', g.nodes ++ [.internal (weightSum e1.key e2.key) e1.node e2.node]⟩ ∧
      h'.Perm (⟨weightSum e1.key e2.key, BitVec.ofNat 9 g.nodes.length⟩ :: rest) := by
  rcases pqExtract_cases g.heap with ⟨h, _⟩ | ⟨e1, r1, h, x1, p1⟩
  · rw [h] at h2; simp at h2
  have hl1 : (removeRoot g.heap).length = r1.length := p1.length_eq
  have hl : g.heap.length = r1.length + 1 := by rw [h]; rfl
  rcases pqExtract_cases (removeRoot g.heap) with ⟨h', _⟩ | ⟨e2, r2, h', x2, p2⟩
  · rw [h'] at hl1; simp at hl1; omega
  have hl2 : (removeRoot (removeRoot g.heap)).length = r2.length := p2.length_eq
  have hl3 : r1.length = r2.length + 1 := by rw [← hl1, h']; rfl
  obtain ⟨h'', a, b⟩ := addNode_ok ⟨removeRoot (removeRoot g.heap), g.nodes⟩
    (.internal (weightSum e1.key e2.key) e1.node e2.node) (weightSum e1.key e2.key) (by simp only; omega)
  refine ⟨e1, e2, r2, h'', ?_, by simp only [mergeTwo, x1, x2, a], b.trans (List.Perm.cons _ p2)⟩
  rw [h]
  exact List.Perm.cons _ (p1.symm.trans (by rw [h']))

/-- The value of a node index that fits the arena. -/
theorem toNat_nodeIx {n : Nat} (h : n < 512) : (BitVec.ofNat 9 n).toNat = n := by
  rw [BitVec.toNat_ofNat]; omega

/-- Taking one element out of a list whose images are known up to order. -/
theorem perm_map_cons {α β : Type} {f : α → β} {ts : List α} {a : β} {l : List β} (h : (ts.map f).Perm (a :: l)) :
    ∃ x us, ts.Perm (x :: us) ∧ f x = a ∧ (us.map f).Perm l := by
  obtain ⟨x, hx, hf⟩ := List.mem_map.1 (h.mem_iff.2 List.mem_cons_self)
  obtain ⟨s1, s2, rfl⟩ := List.append_of_mem hx
  refine ⟨x, s1 ++ s2, List.perm_middle, hf, ?_⟩
  have h2 : (f x :: (s1 ++ s2).map f).Perm (a :: l) := by
    refine List.Perm.trans ?_ h
    simpa using (List.perm_middle (a := x) (l₁ := s1) (l₂ := s2)).symm.map f
  rw [hf] at h2
  exact h2.cons_inv

/-- Each queue entry stands for a tree of the arena, and the leaves of all of them are `L`. -/
def ForestOk (g : Forest) (L : List Byte) : Prop :=
  ∃ ts : List (HeapEntry × HTree), (ts.map Prod.fst).Perm g.heap ∧ (∀ x ∈ ts, Rep g.nodes x.1.node x.2) ∧
    (ts.flatMap fun x => x.2.leaves).Perm L

/-- A new leaf. -/
theorem ForestOk.addLeaf {g : Forest} {L : List Byte} (h : ForestOk g L) (hn : g.nodes.length < 512) {b : Byte}
    {w : Word64} {h' : List HeapEntry} (hp : h'.Perm (⟨w, BitVec.ofNat 9 g.nodes.length⟩ :: g.heap)) :
    ForestOk ⟨h', g.nodes ++ [.leaf b w]⟩ (b :: L) := by
  obtain ⟨ts, h1, h2, h3⟩ := h
  refine ⟨(⟨w, BitVec.ofNat 9 g.nodes.length⟩, .leaf b w) :: ts, ?_, ?_, ?_⟩
  · exact (List.Perm.cons _ h1).trans hp.symm
  · intro x hx
    rcases List.mem_cons.1 hx with rfl | hx
    · exact .leaf (by simp [toNat_nodeIx hn])
    · exact (h2 x hx).append _
  · simpa [HTree.leaves] using h3

/-- A merge. -/
theorem ForestOk.merge {g : Forest} {L : List Byte} (h : ForestOk g L) (hn : g.nodes.length < 512)
    {e1 e2 : HeapEntry} {rest h' : List HeapEntry} {w : Word64} (hp : g.heap.Perm (e1 :: e2 :: rest))
    (hp' : h'.Perm (⟨w, BitVec.ofNat 9 g.nodes.length⟩ :: rest)) :
    ForestOk ⟨h', g.nodes ++ [.internal w e1.node e2.node]⟩ L := by
  obtain ⟨ts, h1, h2, h3⟩ := h
  obtain ⟨x1, t1, q1, rfl, r1⟩ := perm_map_cons (h1.trans hp)
  obtain ⟨x2, t2, q2, rfl, r2⟩ := perm_map_cons r1
  have q : ts.Perm (x1 :: x2 :: t2) := q1.trans (List.Perm.cons _ q2)
  refine ⟨(⟨w, BitVec.ofNat 9 g.nodes.length⟩, .node w x1.2 x2.2) :: t2, ?_, ?_, ?_⟩
  · exact (List.Perm.cons _ r2).trans hp'.symm
  · intro x hx
    rcases List.mem_cons.1 hx with rfl | hx
    · exact .node (l := x1.1.node) (r := x2.1.node) (by simp [toNat_nodeIx hn])
        ((h2 x1 (q.mem_iff.2 (by simp))).append _) ((h2 x2 (q.mem_iff.2 (by simp))).append _)
    · exact (h2 x (q.mem_iff.2 (by simp [hx]))).append _
  · refine List.Perm.trans ?_ h3
    have := (q.flatMap_right fun x => x.2.leaves).symm
    simpa [HTree.leaves, List.append_assoc] using this

/-- The byte values of some pairs `(b, FREQ[b])` whose count is not 0. -/
def presentOf (es : List (Byte × Word64)) : List (Byte × Word64) := es.filter fun x => x.2 ≠ 0#64

/-- Loading leaves (R120): one node and one queue entry for each nonzero count, in order. -/
theorem loadLeaves_ok (es : List (Byte × Word64)) (g : Forest) (L : List Byte) (h : ForestOk g L)
    (hn : g.nodes.length = g.heap.length) (hc : g.heap.length + (presentOf es).length ≤ 256) :
    ∃ h', loadLeaves es g = .ok ⟨h', g.nodes ++ (presentOf es).map fun x => .leaf x.1 x.2⟩ ∧
      h'.length = g.heap.length + (presentOf es).length ∧
      ForestOk ⟨h', g.nodes ++ (presentOf es).map fun x => .leaf x.1 x.2⟩ (((presentOf es).map Prod.fst).reverse ++ L) ∧
      (h'.map HeapEntry.key).Perm ((presentOf es).map Prod.snd ++ g.heap.map HeapEntry.key) := by
  induction es generalizing g L with
  | nil => exact ⟨g.heap, by simp [loadLeaves, presentOf], by simp [presentOf], by simpa [presentOf] using h,
      by simp [presentOf]⟩
  | cons x es ih =>
    obtain ⟨b, w⟩ := x
    by_cases hw : w = 0#64
    · have hp : presentOf ((b, w) :: es) = presentOf es := by simp [presentOf, hw]
      rw [hp] at hc ⊢
      rw [loadLeaves, if_pos hw]
      exact ih g L h hn hc
    · have hp : presentOf ((b, w) :: es) = (b, w) :: presentOf es := by simp [presentOf, hw]
      rw [hp] at hc ⊢
      simp only [List.length_cons] at hc
      obtain ⟨h1, e1, p1⟩ := addNode_ok g (.leaf b w) w (by omega)
      have hl1 : h1.length = g.heap.length + 1 := p1.length_eq
      obtain ⟨h2, e2, l2, f2, k2⟩ := ih ⟨h1, g.nodes ++ [.leaf b w]⟩ (b :: L) (h.addLeaf (by omega) p1)
        (by simp [hl1, hn]) (by simp only [hl1]; omega)
      refine ⟨h2, ?_, ?_, ?_, ?_⟩
      · rw [loadLeaves, if_neg hw, e1]
        simpa using e2
      · simp only [List.length_cons, hl1] at l2 ⊢; omega
      · simpa using f2
      · refine k2.trans ?_
        have := p1.map HeapEntry.key
        simp only [List.map_cons] at this ⊢
        exact (List.Perm.append_left _ this).trans List.perm_middle

/-- Merging (R121): from `k` trees, `k - 1` internal nodes are appended to the arena, and the last one made is the root
of a tree with all the leaves. -/
theorem mergeLoop_ok (n : Nat) (g : Forest) (L : List Byte) (h : ForestOk g L) (hn : n = g.heap.length)
    (h1 : 1 ≤ g.heap.length) (hc : g.heap.length ≤ 256) (ha : g.nodes.length + g.heap.length ≤ 512)
    (hroot : ∀ e, g.heap = [e] → e.node.toNat + 1 = g.nodes.length) :
    ∃ more root T, mergeLoop n g = .ok (g.nodes ++ more, some root) ∧ more.length + 1 = g.heap.length ∧
      (∀ m ∈ more, leafSym m = none) ∧ root.toNat + 1 = g.nodes.length + more.length ∧
      Rep (g.nodes ++ more) root T ∧ T.leaves.Perm L := by
  induction n generalizing g with
  | zero => omega
  | succ n ih =>
    rw [mergeLoop]
    cases hh : g.heap with
    | nil => rw [hh] at h1; simp at h1
    | cons e tl =>
      cases tl with
      | nil =>
        obtain ⟨ts, t1, t2, t3⟩ := h
        rw [hh] at t1
        obtain ⟨x, us, q, rfl, r⟩ := perm_map_cons t1
        have hus : us = [] := by simpa using r.length_eq
        subst hus
        have hx := t2 x (q.mem_iff.2 (by simp))
        refine ⟨[], x.1.node, x.2, by simp, by simp, by simp, ?_, by simpa using hx, ?_⟩
        · have := hroot _ hh; simpa using this
        · refine List.Perm.trans ?_ t3
          simpa using (q.flatMap_right fun x => x.2.leaves).symm
      | cons e' tl =>
        have hl : g.heap.length = tl.length + 2 := by rw [hh]; rfl
        obtain ⟨e1, e2, rest, h', p1, x, p2⟩ := mergeTwo_ok g (by omega) hc
        have hl2 : h'.length + 1 = g.heap.length := by
          rw [p2.length_eq, p1.length_eq]; rfl
        simp only [x]
        obtain ⟨more, root, T, g1, g2, g3, g4, g5, g6⟩ := ih _ (h.merge (w := weightSum e1.key e2.key) (by omega) p1 p2)
          (by simp only; omega) (by simp only; omega) (by simp only; omega)
          (by simp only [List.length_append, List.length_singleton]; omega)
          (by
            intro e he
            simp only at he
            rw [he] at p2
            have := p2.length_eq
            have hr : rest = [] := by simpa using this
            subst hr
            obtain rfl := List.perm_singleton.1 p2.symm |> fun q => (List.cons.inj q).1
            simp only [List.length_append, List.length_singleton]
            rw [toNat_nodeIx (by omega)])
        refine ⟨.internal (weightSum e1.key e2.key) e1.node e2.node :: more, root, T, ?_, ?_, ?_, ?_, ?_, g6⟩
        · rw [g1]; simp
        · simp only [List.length_cons] at g2 ⊢
          have : (e :: e' :: tl).length = g.heap.length := by rw [hh]
          simp only [List.length_cons] at this
          omega
        · intro m hm
          rcases List.mem_cons.1 hm with rfl | hm
          · rfl
          · exact g3 m hm
        · simp only [List.length_append, List.length_cons, List.length_nil] at g4 ⊢; omega
        · simpa using g5

/-- The pairs that become leaves. -/
theorem presentOf_entries (f : FreqTable) : presentOf (entries f) = (presentBytes f).map fun b => (b, tget f b) := by
  rw [entries_eq, presentOf, presentBytes, List.filter_map]
  rfl

theorem length_presentBytes_le (f : FreqTable) : (presentBytes f).length ≤ 256 := by
  have := List.length_filter_le (fun b => decide (tget f b ≠ 0#64)) byteValues
  rwa [length_byteValues] at this

/-- The tree of a frequency table (R121, R123): none without a nonzero count, otherwise an arena with the leaves first,
in order, then internal nodes only, the root last, that holds a tree with one leaf per byte value present. -/
theorem buildTree_ok (f : FreqTable) :
    (presentBytes f = [] ∧ buildTree f = .ok ([], none)) ∨
    (presentBytes f ≠ [] ∧ ∃ more root T,
      buildTree f = .ok (((presentBytes f).map fun b => .leaf b (tget f b)) ++ more, some root) ∧
      more.length + 1 = (presentBytes f).length ∧ (∀ m ∈ more, leafSym m = none) ∧
      root.toNat + 1 = (presentBytes f).length + more.length ∧
      Rep (((presentBytes f).map fun b => .leaf b (tget f b)) ++ more) root T ∧ T.leaves.Perm (presentBytes f)) := by
  have hk := length_presentBytes_le f
  have hp := presentOf_entries f
  obtain ⟨h', e, l, fo, _⟩ := loadLeaves_ok (entries f) ⟨[], []⟩ [] ⟨[], by simp, by simp, by simp⟩ rfl
    (by rw [hp]; simpa using hk)
  rw [hp] at e l fo
  simp only [List.map_map, List.nil_append, List.length_map, List.length_nil, Nat.zero_add, Function.comp_def] at e l fo
  have he : buildTree f = mergeLoop h'.length ⟨h', (presentBytes f).map fun b => .leaf b (tget f b)⟩ := by
    rw [buildTree, e]
  by_cases h0 : presentBytes f = []
  · refine .inl ⟨h0, ?_⟩
    rw [h0] at l
    have : h' = [] := by simpa using l
    rw [he, this, h0]
    rfl
  · refine .inr ⟨h0, ?_⟩
    have hpos := List.length_pos_of_ne_nil h0
    obtain ⟨more, root, T, g1, g2, g3, g4, g5, g6⟩ := mergeLoop_ok h'.length _ _ fo rfl (by simp only; omega)
      (by simp only; omega) (by simp only [List.length_map]; omega) (by
        intro x hx
        obtain ⟨ts, t1, t2, t3⟩ := fo
        simp only at hx
        rw [hx] at t1
        obtain ⟨y, us, q, rfl, _⟩ := perm_map_cons t1
        have hy := t2 y (q.mem_iff.2 (by simp))
        have hlt := hy.lt
        have : h'.length = 1 := by rw [hx]; rfl
        simp only [List.length_map] at hlt ⊢
        omega)
    simp only [List.length_map] at g2 g4
    refine ⟨more, root, T, by rw [he, g1], by omega, g3, g4, g5, ?_⟩
    rw [List.append_nil] at g6
    exact g6.trans (List.reverse_perm _ |>.trans (by simp))

end Sys2Proof.Laws
end

