-- ==== Sys2Proof/Laws/Memory.lean ====
section
/-! SUPPORT. The byte spaces: read after write, the canonical form, and what appending to the output stream
does (spec/20_memory.md R43 to R45). -/

namespace Sys2Proof.Laws

open Sys2Proof.Machine

/-! ## Reading and writing -/

@[simp] theorem read_nil (a : Nat) : Memory.read [] a = none := rfl

/-- A read after a write: the byte written at its own address, the old byte at every other. -/
theorem read_write (m : Memory) (a : Nat) (v : Byte) (x : Nat) :
    Memory.read (Memory.write m a v) x = if a = x then some v else Memory.read m x := by
  induction m with
  | nil => simp [Memory.write, Memory.read]
  | cons c m ih =>
    simp only [Memory.write]
    split_ifs with h1 h2 h3 h3 h3 <;> simp_all [Memory.read]
    all_goals omega

theorem read_write_same (m : Memory) (a : Nat) (v : Byte) : Memory.read (Memory.write m a v) a = some v := by
  simp [read_write]

theorem read_write_other (m : Memory) {a x : Nat} (v : Byte) (h : a ≠ x) :
    Memory.read (Memory.write m a v) x = Memory.read m x := by simp [read_write, h]

/-! ## The canonical form -/

/-- The canonical form, as a fact about the listed addresses. -/
theorem wf_iff (m : Memory) : Memory.wf m = true ↔ (m.map Prod.fst).Pairwise (· < ·) := by
  induction m with
  | nil => simp [Memory.wf]
  | cons c m ih =>
    cases m with
    | nil => simp [Memory.wf]
    | cons d m =>
      have hd : Memory.wf (c :: d :: m) = (decide (c.1 < d.1) && Memory.wf (d :: m)) := rfl
      rw [hd, Bool.and_eq_true, decide_eq_true_eq, ih]
      simp only [List.map_cons, List.pairwise_cons, List.mem_cons, List.mem_map]
      constructor
      · rintro ⟨h1, h2, h3⟩
        refine ⟨?_, h2, h3⟩
        rintro x (rfl | ⟨y, hy, rfl⟩)
        · exact h1
        · exact h1.trans (h2 _ ⟨y, hy, rfl⟩)
      · rintro ⟨h1, h2⟩
        exact ⟨h1 _ (Or.inl rfl), h2⟩

/-- The addresses a write lists: the old ones and its own. -/
theorem mem_addrs_write (m : Memory) (a : Nat) (v : Byte) (x : Nat) :
    x ∈ (Memory.write m a v).map Prod.fst ↔ x = a ∨ x ∈ m.map Prod.fst := by
  induction m with
  | nil => simp [Memory.write]
  | cons c m ih =>
    simp only [Memory.write]
    split_ifs with h1 h2
    · simp
    · subst h2; simp
    · simp only [List.map_cons, List.mem_cons, ih]; tauto

/-- A write keeps the canonical form. -/
theorem wf_write (m : Memory) (a : Nat) (v : Byte) (h : Memory.wf m = true) :
    Memory.wf (Memory.write m a v) = true := by
  rw [wf_iff] at h ⊢
  induction m with
  | nil => simp [Memory.write]
  | cons c m ih =>
    simp only [List.map_cons, List.pairwise_cons] at h
    simp only [Memory.write]
    split_ifs with h1 h2
    · simp only [List.map_cons, List.pairwise_cons, List.mem_cons]
      refine ⟨?_, h.1, h.2⟩
      rintro x (rfl | hx)
      · exact h1
      · exact h1.trans (h.1 x hx)
    · subst h2; simpa using h
    · simp only [List.map_cons, List.pairwise_cons]
      refine ⟨fun x hx => ?_, ih h.2⟩
      rcases (mem_addrs_write m a v x).1 hx with rfl | hx
      · omega
      · exact h.1 x hx

/-- The addresses of a loaded byte sequence. -/
theorem addrs_ofBytesFrom (bs : List Byte) (base : Nat) :
    (Memory.ofBytesFrom base bs).map Prod.fst = List.range' base bs.length := by
  induction bs generalizing base with
  | nil => rfl
  | cons b bs ih => simp [Memory.ofBytesFrom, ih, List.range'_succ]

/-- A load leaves the canonical form. -/
theorem wf_ofBytes (bs : List Byte) : Memory.wf (Memory.ofBytes bs) = true := by
  rw [wf_iff, Memory.ofBytes, addrs_ofBytesFrom]
  exact List.pairwise_lt_range'

theorem read_ofBytesFrom (bs : List Byte) (base k : Nat) :
    Memory.read (Memory.ofBytesFrom base bs) (base + k) = bs[k]? := by
  induction bs generalizing base k with
  | nil => rfl
  | cons b bs ih =>
    cases k with
    | zero => simp [Memory.ofBytesFrom, Memory.read]
    | succ k =>
      have h : base + (k + 1) = base + 1 + k := by omega
      have hne : base ≠ base + 1 + k := by omega
      simp [Memory.ofBytesFrom, Memory.read, h, hne, ih]

/-- Reading back what was loaded. -/
theorem read_ofBytes (bs : List Byte) (k : Nat) : Memory.read (Memory.ofBytes bs) k = bs[k]? := by
  have h := read_ofBytesFrom bs 0 k
  rwa [zero_add] at h

@[simp] theorem length_ofBytesFrom (bs : List Byte) (base : Nat) :
    (Memory.ofBytesFrom base bs).length = bs.length := by
  induction bs generalizing base with
  | nil => rfl
  | cons b bs ih => simp [Memory.ofBytesFrom, ih]

/-- The memory after reset has the canonical form. -/
theorem wf_reset : Memory.wf State.reset.inMem = true ∧ Memory.wf State.reset.out.mem = true := ⟨rfl, rfl⟩

/-! ## The primitives (R43, R45) -/

/-- Everything `MemRead` can do. -/
theorem memRead_cases (s : State) (a : Word64) :
    (s.inLen ≤ a ∧ memRead s a = stop .readOutsideInput) ∨
    (a < s.inLen ∧ a ∈ s.inFault ∧ memRead s a = raise .ioFailure (ioInfo false a)) ∨
    (a < s.inLen ∧ a ∉ s.inFault ∧ Memory.read s.inMem a.toNat = none ∧ memRead s a = stop .readUnlistedInput) ∨
    (∃ b, a < s.inLen ∧ a ∉ s.inFault ∧ Memory.read s.inMem a.toNat = some b ∧ memRead s a = .ok b) := by
  unfold memRead
  by_cases h1 : s.inLen ≤ a
  · exact Or.inl ⟨h1, by simp [h1]⟩
  · have h1' : a < s.inLen := BitVec.not_le.1 h1
    by_cases h2 : a ∈ s.inFault
    · exact Or.inr (Or.inl ⟨h1', h2, by simp [h1, h2]⟩)
    · cases h3 : Memory.read s.inMem a.toNat with
      | none => exact Or.inr (Or.inr (Or.inl ⟨h1', h2, rfl, by simp [h1, h2]⟩))
      | some b => exact Or.inr (Or.inr (Or.inr ⟨b, h1', h2, rfl, by simp [h1, h2]⟩))

/-- A read of a loaded input, at a position below its end for which no failure is reported. -/
theorem memRead_loaded {s : State} {S : List Byte} (hS : Loaded s S) {k : Nat} (hk : k < S.length)
    (hf : BitVec.ofNat 64 k ∉ s.inFault) : memReadAt s k = .ok S[k] := by
  obtain ⟨hm, hl, hlt⟩ := hS
  have h1 : ¬ s.inLen ≤ BitVec.ofNat 64 k := by
    rw [hl, BitVec.le_def, BitVec.toNat_ofNat, BitVec.toNat_ofNat]; omega
  have h2 : (BitVec.ofNat 64 k).toNat = k := by rw [BitVec.toNat_ofNat]; omega
  unfold memReadAt memRead
  simp [h1, hf, h2, hm, read_ofBytes, hk]

/-- Everything `Out` can do. -/
theorem put_cases (cap : Word64) (o : OutStream) (v : Byte) :
    (o.len = cap ∧ OutStream.put cap o v = raise .ioFailure (ioInfo true o.len)) ∨
    (cap < o.len ∧ OutStream.put cap o v = stop .writeOutsideOutput) ∨
    (o.len < cap ∧ OutStream.put cap o v = .ok ⟨Memory.write o.mem o.len.toNat v, o.len + 1#64⟩) := by
  unfold OutStream.put
  by_cases h1 : o.len = cap
  · exact Or.inl ⟨h1, by simp [h1]⟩
  · by_cases h2 : cap < o.len
    · exact Or.inr (Or.inl ⟨h2, by simp [h1, h2]⟩)
    · refine Or.inr (Or.inr ⟨?_, by simp [h1, h2]⟩)
      have h3 : o.len.toNat ≠ cap.toNat := fun h => h1 (BitVec.eq_of_toNat_eq h)
      rw [BitVec.lt_def] at h2 ⊢; omega

/-- Where there is room, `Out` appends one byte. -/
theorem put_ok {cap : Word64} {o : OutStream} (v : Byte) (h : o.len < cap) :
    OutStream.put cap o v = .ok ⟨Memory.write o.mem o.len.toNat v, o.len + 1#64⟩ := by
  rcases put_cases cap o v with ⟨h1, _⟩ | ⟨h1, _⟩ | ⟨_, h2⟩
  · rw [BitVec.lt_def, h1] at h; omega
  · rw [BitVec.lt_def] at h h1; omega
  · exact h2

/-- `Out` of a sequence is `Out` of its parts in turn. -/
theorem puts_append (cap : Word64) (o : OutStream) (xs ys : List Byte) :
    OutStream.puts cap o (xs ++ ys) =
      match OutStream.puts cap o xs with
      | .error e => .error e
      | .ok o' => OutStream.puts cap o' ys := by
  induction xs generalizing o with
  | nil => rfl
  | cons x xs ih =>
    simp only [List.cons_append, OutStream.puts]
    cases OutStream.put cap o x with
    | error e => rfl
    | ok o' => exact ih o'

/-- Where there is room, `Out` of a sequence appends it and leaves every other byte as it was. -/
theorem puts_ok (cap : Word64) (o : OutStream) (vs : List Byte) (h : o.len.toNat + vs.length ≤ cap.toNat) :
    ∃ o', OutStream.puts cap o vs = .ok o' ∧ o'.len.toNat = o.len.toNat + vs.length ∧
      ∀ a, Memory.read o'.mem a =
        if o.len.toNat ≤ a ∧ a < o.len.toNat + vs.length then vs[a - o.len.toNat]? else Memory.read o.mem a := by
  induction vs generalizing o with
  | nil => exact ⟨o, rfl, by simp, fun a => by simp⟩
  | cons v vs ih =>
    simp only [List.length_cons] at h
    have hlt : o.len < cap := by rw [BitVec.lt_def]; omega
    have hcap := cap.isLt
    have hlen : (o.len + 1#64).toNat = o.len.toNat + 1 := by
      rw [BitVec.toNat_add]; simp; omega
    obtain ⟨o', he, hl, hr⟩ := ih ⟨Memory.write o.mem o.len.toNat v, o.len + 1#64⟩ (by simp only [hlen]; omega)
    refine ⟨o', by simp [OutStream.puts, put_ok v hlt, he], by simp only [hlen] at hl; rw [hl, List.length_cons]; omega, fun a => ?_⟩
    rw [hr a]
    simp only [hlen, read_write, List.length_cons]
    by_cases h1 : a = o.len.toNat
    · subst h1
      simp
    · by_cases h2 : o.len.toNat + 1 ≤ a ∧ a < o.len.toNat + 1 + vs.length
      · have h3 : o.len.toNat ≤ a ∧ a < o.len.toNat + (vs.length + 1) := by omega
        have h4 : a - o.len.toNat = (a - (o.len.toNat + 1)) + 1 := by omega
        rw [if_pos h2, if_pos h3, h4, List.getElem?_cons_succ]
      · have h3 : ¬ (o.len.toNat ≤ a ∧ a < o.len.toNat + (vs.length + 1)) := by omega
        rw [if_neg h2, if_neg h3, if_neg (Ne.symm h1)]

/-- Where there is too little room, `Out` of a sequence fails once the stream is full (R45). -/
theorem puts_full {cap : Word64} {o : OutStream} (vs : List Byte) (ho : o.len ≤ cap)
    (h : cap.toNat < o.len.toNat + vs.length) :
    OutStream.puts cap o vs = raise .ioFailure (ioInfo true cap) := by
  induction vs generalizing o with
  | nil => rw [BitVec.le_def] at ho; simp at h; omega
  | cons v vs ih =>
    rcases put_cases cap o v with ⟨h1, e⟩ | ⟨h1, _⟩ | ⟨h1, e⟩
    · rw [OutStream.puts, e, h1]; rfl
    · exact absurd ho (BitVec.not_le.2 h1)
    · have hcap := cap.isLt
      rw [BitVec.lt_def] at h1
      have hlen : (o.len + 1#64).toNat = o.len.toNat + 1 := by
        rw [BitVec.toNat_add]; simp; omega
      rw [OutStream.puts, e]
      refine ih ?_ ?_
      · rw [BitVec.le_def]; simp only [hlen]; omega
      · simp only [hlen, List.length_cons] at h ⊢; omega

/-- The fields of `IOFailure`'s `ERR_INFO`. -/
theorem ioInfo_fields (write : Bool) (pos : Word64) :
    (ioInfo write pos).getLsbD 63 = write ∧ (ioInfo write pos).toNat % 2 ^ 63 = pos.toNat % 2 ^ 63 := by
  constructor
  · unfold ioInfo
    rw [BitVec.getLsbD_append]
    cases write <;> rfl
  · unfold ioInfo
    rw [BitVec.toNat_append, BitVec.extractLsb'_toNat, ← Nat.shiftLeft_add_eq_or_of_lt (Nat.mod_lt _ (by norm_num)),
      Nat.shiftLeft_eq, Nat.mul_comm, Nat.mul_add_mod, Nat.mod_mod, Nat.shiftRight_zero]

/-- What the host reads from a stream after a sequence has been appended to it. -/
theorem readOut_puts {cap : Word64} {o o' : OutStream} {vs : List Byte}
    (h : o.len.toNat + vs.length ≤ cap.toNat) (he : OutStream.puts cap o vs = .ok o') :
    (List.range o'.len.toNat).filterMap (Memory.read o'.mem) =
      (List.range o.len.toNat).filterMap (Memory.read o.mem) ++ vs := by
  obtain ⟨o'', he', hl, hr⟩ := puts_ok cap o vs h
  rw [he] at he'
  obtain rfl : o' = o'' := by simpa using he'
  rw [hl, List.range_eq_range', List.range'_append_1 (s := 0) |>.symm, List.filterMap_append]
  congr 1
  · rw [← List.range_eq_range']
    refine List.filterMap_congr fun a ha => ?_
    have := List.mem_range.1 ha
    rw [hr a, if_neg (by omega)]
  · have hv : vs = (List.range vs.length).filterMap (fun k => vs[k]?) := by
      apply List.ext_getElem?
      intro n
      clear * -
      induction vs generalizing n with
      | nil => simp
      | cons v vs ih =>
        rw [List.length_cons, List.range_succ_eq_map, List.filterMap_cons]
        simp only [List.getElem?_cons_zero, List.filterMap_map]
        cases n with
        | zero => simp
        | succ n => simpa [Function.comp_def] using ih n
    conv_rhs => rw [hv]
    rw [zero_add, List.range'_eq_map_range, List.filterMap_map]
    refine List.filterMap_congr fun k hk => ?_
    have := List.mem_range.1 hk
    simp only [Function.comp_apply]
    rw [hr, if_pos (by omega)]
    congr 1; omega

end Sys2Proof.Laws
end

