-- ==== Sys2Proof/Laws/Matcher.lean ====
section
/-! SUPPORT. What the reverse lookup table and one step of the matcher can do (spec/45_matcher.md R150 to
R152). -/

namespace Sys2Proof.Laws

open Sys2Proof.Machine

/-! ## The reverse lookup table -/

/-- No entry is found when no key is the candidate. -/
theorem rltFind_eq_none (t : List RltEntry) (c : Code) : rltFind t c = none ↔ ∀ e ∈ t, e.code ≠ c := by
  induction t with
  | nil => simp [rltFind]
  | cons e t ih =>
    by_cases h : e.code = c
    · simp [rltFind, h]
    · simp [rltFind, h, ih]

/-- What is found is the symbol of an entry whose whole key is the candidate. -/
theorem mem_of_rltFind {t : List RltEntry} {c : Code} {b : Byte} (h : rltFind t c = some b) :
    (⟨c, b⟩ : RltEntry) ∈ t := by
  induction t with
  | nil => simp [rltFind] at h
  | cons e t ih =>
    by_cases he : e.code = c
    · simp [rltFind, he] at h
      subst h he
      exact List.mem_cons_self
    · simp [rltFind, he] at h
      exact List.mem_cons_of_mem _ (ih h)

/-- Appending an entry to the table. -/
theorem rltFind_append (t u : List RltEntry) (c : Code) :
    rltFind (t ++ u) c = (rltFind t c).orElse fun _ => rltFind u c := by
  induction t with
  | nil => rfl
  | cons e t ih =>
    by_cases h : e.code = c
    · simp [rltFind, h]
    · simp [rltFind, h, ih]

/-- Everything `rlt_insert` can do (R151): a key that is empty, too long, already present or one too many raises;
any other is appended. -/
theorem rltInsert_cases (t : Rlt) (c : Code) (sym : Byte) (p : Nat) :
    ((c = [] ∨ 255 < c.length ∨ (∃ e ∈ t.entries, e.code = c) ∨ 256 ≤ t.entries.length) ∧
      rltInsert t c sym p = raise .malformedMetadata (BitVec.ofNat 64 p)) ∨
    (1 ≤ c.length ∧ c.length ≤ 255 ∧ (∀ e ∈ t.entries, e.code ≠ c) ∧ t.entries.length < 256 ∧
      rltInsert t c sym p = .ok ⟨t.entries ++ [⟨c, sym⟩], maxLenWith t.maxLen c⟩) := by
  unfold rltInsert codeMax rltCap
  by_cases h1 : c = [] ∨ 255 < c.length
  · exact .inl ⟨h1.elim .inl (.inr ∘ .inl), if_pos h1⟩
  · rw [if_neg h1]
    rw [not_or, not_lt] at h1
    by_cases h2 : ∀ e ∈ t.entries, e.code ≠ c
    · rw [(rltFind_eq_none _ _).2 h2]
      by_cases h3 : 256 ≤ t.entries.length
      · exact .inl ⟨.inr (.inr (.inr h3)), by simp [h3]⟩
      · exact .inr ⟨List.length_pos_of_ne_nil h1.1, h1.2, h2, by omega, by simp [h3]⟩
    · have h4 : (rltFind t.entries c).isSome = true := by
        rw [Option.isSome_iff_ne_none]
        exact fun h => h2 ((rltFind_eq_none _ _).1 h)
      rw [if_pos h4]
      simp only [not_forall, not_not] at h2
      obtain ⟨e, he, hc⟩ := h2
      exact .inl ⟨.inr (.inr (.inl ⟨e, he, hc⟩)), rfl⟩

/-- `MAXLEN` after an insertion is the greater length, for keys that can be stored. -/
theorem toNat_maxLenWith (m : BitVec 8) (c : Code) (h : c.length ≤ 255) :
    (maxLenWith m c).toNat = max m.toNat c.length := by
  unfold maxLenWith
  split
  · rw [BitVec.toNat_ofNat]; omega
  · omega

theorem longestKey_append (t : List RltEntry) (e : RltEntry) :
    longestKey (t ++ [e]) = max (longestKey t) e.code.length := by
  unfold longestKey
  induction t with
  | nil => simp
  | cons x t ih => simp only [List.cons_append, List.map_cons, List.foldr_cons, ih, max_assoc]

/-- No key is longer than the longest. -/
theorem le_longestKey {t : List RltEntry} {e : RltEntry} (h : e ∈ t) : e.code.length ≤ longestKey t := by
  unfold longestKey
  induction t with
  | nil => simp at h
  | cons x t ih =>
    simp only [List.map_cons, List.foldr_cons]
    rcases List.mem_cons.1 h with rfl | h
    · exact le_max_left _ _
    · exact (ih h).trans (le_max_right _ _)

theorem longestKey_le {t : List RltEntry} {n : Nat} (h : ∀ e ∈ t, e.code.length ≤ n) : longestKey t ≤ n := by
  unfold longestKey
  induction t with
  | nil => simp
  | cons x t ih =>
    simp only [List.map_cons, List.foldr_cons]
    exact max_le (h x List.mem_cons_self) (ih fun e he => h e (List.mem_cons_of_mem _ he))

/-! ## Characters -/

@[simp] theorem bitOfChar_charOfBit (c : Bool) : bitOfChar (charOfBit c) = some c := by cases c <;> decide

/-- Only the two bit characters are bits. -/
theorem bitOfChar_eq_none (ch : Byte) : bitOfChar ch = none ↔ ch ≠ charZero ∧ ch ≠ charOne := by
  unfold bitOfChar
  split_ifs with h1 h2 <;> simp [h1]
  · exact h2
  · exact h2

theorem bitOfChar_eq_some {ch : Byte} {c : Bool} : bitOfChar ch = some c ↔ ch = charOfBit c := by
  constructor
  · intro h
    unfold bitOfChar at h
    split_ifs at h with h1 h2 <;> cases h
    · exact h1
    · exact h2
  · rintro rfl; simp

/-- The bits of a run of bit characters. -/
@[simp] theorem sectionBits_bitChars (c : Code) : sectionBits (bitChars c) = c := by
  induction c with
  | nil => rfl
  | cons x c ih =>
    have : sectionBits (bitChars (x :: c)) = x :: sectionBits (bitChars c) := by
      simp [sectionBits, bitChars]
    rw [this, ih]

@[simp] theorem sectionBits_append (x y : List Byte) : sectionBits (x ++ y) = sectionBits x ++ sectionBits y := by
  simp [sectionBits]

/-! ## One step of the matcher -/

/-- A character that is not a bit changes nothing (R152). -/
theorem vmStep_skip (s : State) (pos : Word64) (cand : Code) (o : OutStream) {ch : Byte}
    (h : bitOfChar ch = none) : vmStep s pos cand o ch = .ok ⟨cand, o, none⟩ := by simp [vmStep, h]

/-- A bit that completes a key (R152). -/
theorem vmStep_match (s : State) (pos : Word64) {cand : Code} (o : OutStream) {ch : Byte} {bit : Bool} {r : Byte}
    (h : bitOfChar ch = some bit) (hr : rltFind s.rlt (cand ++ [bit]) = some r) :
    vmStep s pos cand o ch =
      match OutStream.put s.outCap o r with
      | .error e => .error e
      | .ok o' => .ok ⟨[], o', some r⟩ := by
  unfold vmStep
  rw [h]
  simp only [hr]
  all_goals (cases OutStream.put s.outCap o r <;> rfl)

/-- A bit that completes no key (R152). -/
theorem vmStep_noMatch (s : State) (pos : Word64) {cand : Code} (o : OutStream) {ch : Byte} {bit : Bool}
    (h : bitOfChar ch = some bit) (hr : rltFind s.rlt (cand ++ [bit]) = none) :
    vmStep s pos cand o ch =
      if s.maxLen.toNat < cand.length + 1 then raise .malformedStream pos else .ok ⟨cand ++ [bit], o, none⟩ := by
  simp [vmStep, h, hr]

/-- Of the state a step of the matcher uses the table, `MAXLEN` and the capacity. -/
theorem vmStep_congr {s u : State} (h1 : u.rlt = s.rlt) (h2 : u.maxLen = s.maxLen) (h3 : u.outCap = s.outCap)
    (pos : Word64) (c : Code) (o : OutStream) (ch : Byte) : vmStep u pos c o ch = vmStep s pos c o ch := by
  unfold vmStep; rw [h1, h2, h3]

/-- What a step that completes does is the same wherever the cursor stands. -/
theorem vmStep_pos {s : State} {pos : Word64} {c : Code} {o : OutStream} {ch : Byte} {r : Scan}
    (h : vmStep s pos c o ch = .ok r) (pos' : Word64) : vmStep s pos' c o ch = .ok r := by
  unfold vmStep at h ⊢
  split at h
  · exact h
  · simp only at h ⊢
    split at h
    · exact h
    · split at h
      · cases h
      · rename_i hh; rw [if_neg hh]; exact h

/-- Everything one step of the matcher can complete with. -/
theorem vmStep_ok {s : State} {pos : Word64} {cand : Code} {o : OutStream} {ch : Byte} {r : Scan}
    (h : vmStep s pos cand o ch = .ok r) :
    (bitOfChar ch = none ∧ r = ⟨cand, o, none⟩) ∨
    (∃ bit b, bitOfChar ch = some bit ∧ rltFind s.rlt (cand ++ [bit]) = some b ∧ o.len < s.outCap ∧
      r = ⟨[], ⟨Memory.write o.mem o.len.toNat b, o.len + 1#64⟩, some b⟩) ∨
    (∃ bit, bitOfChar ch = some bit ∧ rltFind s.rlt (cand ++ [bit]) = none ∧ cand.length + 1 ≤ s.maxLen.toNat ∧
      r = ⟨cand ++ [bit], o, none⟩) := by
  cases hb : bitOfChar ch with
  | none =>
    rw [vmStep_skip _ _ _ _ hb] at h
    cases h
    exact .inl ⟨rfl, rfl⟩
  | some bit =>
    cases hr : rltFind s.rlt (cand ++ [bit]) with
    | some b =>
      rw [vmStep_match _ _ _ hb hr] at h
      rcases put_cases s.outCap o b with ⟨_, e⟩ | ⟨_, e⟩ | ⟨hl, e⟩ <;> rw [e] at h
      · cases h
      · cases h
      · cases h
        exact .inr (.inl ⟨bit, b, rfl, hr, hl, rfl⟩)
    | none =>
      rw [vmStep_noMatch _ _ _ hb hr] at h
      split at h
      · cases h
      · cases h
        exact .inr (.inr ⟨bit, rfl, hr, by omega, rfl⟩)

end Sys2Proof.Laws
end

