-- ==== Sys2Proof/Laws/Loops.lean ====
section
/-! SUPPORT. The loops that read the input, over a loaded and readable stretch of it: each is a loop over the list
of its bytes (spec/40_frequency_counter.md R90, spec/44_encoder.md R141, spec/46_decoder.md R162). -/

namespace Sys2Proof.Laws

open Sys2Proof.Machine

/-! ## Reading the byte at the cursor -/

theorem toNat_inLen {s : State} {S : List Byte} (hS : Loaded s S) : s.inLen.toNat = S.length := by
  rw [hS.2.1, BitVec.toNat_ofNat]
  have := hS.2.2
  omega

/-- The byte at the cursor of a loaded input. -/
theorem memRead_pos {s : State} {S : List Byte} (hS : Loaded s S) {pos : Word64} {b : Byte} {tl : List Byte}
    (hd : S.drop pos.toNat = b :: tl) (hf : pos ∉ s.inFault) : memRead s pos = .ok b := by
  have hlt : pos.toNat < S.length := by
    by_contra h
    rw [List.drop_eq_nil_of_le (by omega)] at hd
    cases hd
  have h := memRead_loaded hS hlt (by rwa [BitVec.ofNat_toNat, BitVec.setWidth_eq])
  rw [memReadAt, BitVec.ofNat_toNat, BitVec.setWidth_eq] at h
  rw [h]
  have : S[pos.toNat] = b := by
    have := List.drop_eq_getElem_cons hlt
    rw [hd] at this
    exact (List.cons.inj this).1.symm
  rw [this]

/-- A failing position below the end of the input (R43). -/
theorem memRead_fails {s : State} {a : Word64} (ha : a < s.inLen) (hf : a ∈ s.inFault) :
    memRead s a = raise .ioFailure (ioInfo false a) := by
  rcases memRead_cases s a with ⟨h, _⟩ | ⟨_, _, h⟩ | ⟨_, h, _⟩ | ⟨_, _, h, _⟩
  · exact absurd ha (BitVec.not_lt.2 h)
  · exact h
  · exact absurd hf h
  · exact absurd hf h

/-- No position of the `n` bytes from the cursor on fails. -/
abbrev ReadableBytes (s : State) (pos : Word64) (n : Nat) : Prop :=
  ∀ a ∈ s.inFault, ¬ (pos.toNat ≤ a.toNat ∧ a.toNat < pos.toNat + n)

theorem readableBytes_of {s : State} {pos hi : Word64} {n : Nat} (h : Readable s pos hi)
    (hn : pos.toNat + n ≤ hi.toNat) : ReadableBytes s pos n :=
  fun a ha hl => h a ha ⟨BitVec.le_def.2 hl.1, BitVec.lt_def.2 (by omega)⟩

/-- The cursor after a byte that is there. -/
theorem toNat_next {s : State} {S : List Byte} (hS : Loaded s S) {pos : Word64} {b : Byte} {tl : List Byte}
    (hd : S.drop pos.toNat = b :: tl) :
    (pos + 1#64).toNat = pos.toNat + 1 ∧ S.drop (pos + 1#64).toNat = tl ∧ pos < s.inLen ∧ pos.toNat < S.length := by
  have hlt : pos.toNat < S.length := by
    by_contra h
    rw [List.drop_eq_nil_of_le (by omega)] at hd
    cases hd
  have h64 := hS.2.2
  have h1 : (pos + 1#64).toNat = pos.toNat + 1 := by
    rw [BitVec.toNat_add]; simp; omega
  refine ⟨h1, ?_, ?_, hlt⟩
  · rw [h1, ← List.drop_drop, hd]; rfl
  · rw [BitVec.lt_def, toNat_inLen hS]; exact hlt

/-- Advancing one byte and then the rest of a stretch. -/
theorem next_add (pos : Word64) (b : Byte) (bs : List Byte) :
    pos + 1#64 + BitVec.ofNat 64 bs.length = pos + BitVec.ofNat 64 (b :: bs).length := by
  rw [BitVec.add_assoc]
  congr 1
  apply BitVec.eq_of_toNat_eq
  simp [BitVec.toNat_add]
  omega

/-- The rest of the input ends at `IN_LEN`. -/
theorem end_of_drop {s : State} {S : List Byte} (hS : Loaded s S) {pos : Word64} {bs : List Byte} (hp : pos ≤ s.inLen)
    (hd : S.drop pos.toNat = bs) :
    pos + BitVec.ofNat 64 bs.length = s.inLen ∧ (pos + BitVec.ofNat 64 bs.length).toNat = pos.toNat + bs.length := by
  have hl := toNat_inLen hS
  have h64 := hS.2.2
  rw [BitVec.le_def, hl] at hp
  have hb : bs.length = S.length - pos.toNat := by rw [← hd, List.length_drop]
  have ht : (pos + BitVec.ofNat 64 bs.length).toNat = pos.toNat + bs.length := by
    rw [BitVec.toNat_add, BitVec.toNat_ofNat]; omega
  exact ⟨BitVec.eq_of_toNat_eq (by omega), ht⟩

/-! ## FREQ_COUNT -/

/-- Counting a list of bytes into a table. -/
def countList (f : FreqTable) (bs : List Byte) : FreqTable := bs.foldl bump f

/-- Each counter grows by the number of occurrences of its byte value. -/
theorem tget_countList (bs : List Byte) (f : FreqTable) (b : Byte) :
    tget (countList f bs) b = tget f b + BitVec.ofNat 64 (bs.count b) := by
  induction bs generalizing f with
  | nil => simp [countList]
  | cons x bs ih =>
    have : countList f (x :: bs) = countList (bump f x) bs := rfl
    rw [this, ih, tget_bump, List.count_cons]
    by_cases h : x = b
    · subst h
      simp only [if_pos, beq_self_eq_true]
      rw [BitVec.add_assoc]
      congr 1
      apply BitVec.eq_of_toNat_eq
      simp [BitVec.toNat_add]
      omega
    · simp [h]

/-- The counting loop over a readable stretch counts its bytes and goes on. -/
theorem countLoop_split {s : State} {S : List Byte} (hS : Loaded s S) (bs more : List Byte) (n : Nat) (pos : Word64)
    (f : FreqTable) (hd : S.drop pos.toNat = bs ++ more) (hr : ReadableBytes s pos bs.length) :
    countLoop s (bs.length + n) pos f = countLoop s n (pos + BitVec.ofNat 64 bs.length) (countList f bs) := by
  induction bs generalizing pos f with
  | nil => simp [countList]
  | cons b bs ih =>
    obtain ⟨h1, h2, h3, h4⟩ := toNat_next hS hd
    have hf : pos ∉ s.inFault := fun h => hr pos h ⟨le_rfl, by simp⟩
    have hk : (b :: bs).length + n = (bs.length + n) + 1 := by simp; omega
    rw [hk, countLoop, if_pos h3, memRead_pos hS hd hf]
    simp only
    rw [ih (pos + 1#64) (bump f b) h2 fun a ha h => hr a ha (by rw [h1] at h; simp; omega), next_add]
    rfl

/-- The counting loop over a readable rest of the input is a count of its bytes. -/
theorem countLoop_loaded {s : State} {S : List Byte} (hS : Loaded s S) (bs : List Byte) (pos : Word64) (f : FreqTable)
    (hp : pos ≤ s.inLen) (hd : S.drop pos.toNat = bs) (hr : Readable s pos s.inLen) :
    countLoop s bs.length pos f = .ok (s.inLen, countList f bs) := by
  have he := end_of_drop hS hp hd
  have h := countLoop_split hS bs [] 0 pos f (by simpa using hd)
    (readableBytes_of hr (by rw [← he.1, he.2]))
  rw [Nat.add_zero, he.1] at h
  exact h

/-! ## EMIT -/

/-- `emit_code` of each byte of a list. -/
def emitList (s : State) : OutStream → List Byte → Res OutStream
  | o, [] => .ok o
  | o, b :: bs =>
    match emitCode s o b with
    | .error e => .error e
    | .ok o' => emitList s o' bs

/-- The emitting loop over a readable stretch emits its bytes and goes on. -/
theorem emitLoop_split {s : State} {S : List Byte} (hS : Loaded s S) (bs more : List Byte) (n : Nat) (pos : Word64)
    (o : OutStream) (hd : S.drop pos.toNat = bs ++ more) (hr : ReadableBytes s pos bs.length) :
    emitLoop s (bs.length + n) pos o =
      match emitList s o bs with
      | .error e => .error e
      | .ok o' => emitLoop s n (pos + BitVec.ofNat 64 bs.length) o' := by
  induction bs generalizing pos o with
  | nil => simp [emitList]
  | cons b bs ih =>
    obtain ⟨h1, h2, h3, h4⟩ := toNat_next hS hd
    have hf : pos ∉ s.inFault := fun h => hr pos h ⟨le_rfl, by simp⟩
    have hk : (b :: bs).length + n = (bs.length + n) + 1 := by simp; omega
    rw [hk, emitLoop, if_pos h3, memRead_pos hS hd hf, emitList]
    cases hx : emitCode s o b with
    | error e => simp only [hx]
    | ok o' =>
      simp only [hx]
      rw [ih (pos + 1#64) o' h2 fun a ha h => hr a ha (by rw [h1] at h; simp; omega), next_add]

/-- The emitting loop over a readable rest of the input emits its bytes. -/
theorem emitLoop_loaded {s : State} {S : List Byte} (hS : Loaded s S) (bs : List Byte) (pos : Word64) (o : OutStream)
    (hp : pos ≤ s.inLen) (hd : S.drop pos.toNat = bs) (hr : Readable s pos s.inLen) :
    emitLoop s bs.length pos o =
      match emitList s o bs with
      | .error e => .error e
      | .ok o' => .ok (s.inLen, o') := by
  have he := end_of_drop hS hp hd
  have h := emitLoop_split hS bs [] 0 pos o (by simpa using hd) (readableBytes_of hr (by rw [← he.1, he.2]))
  rw [Nat.add_zero, he.1] at h
  exact h

/-- Emitting bytes that all have codes is `Out` of their bit section. -/
theorem emitList_eq_puts (s : State) (o : OutStream) (bs : List Byte)
    (h : ∀ b ∈ bs, (ctLookup s.code b).isSome = true) :
    emitList s o bs = OutStream.puts s.outCap o (bitSection s.code bs) := by
  induction bs generalizing o with
  | nil => rfl
  | cons b bs ih =>
    obtain ⟨c, hc⟩ := Option.isSome_iff_exists.1 (h b List.mem_cons_self)
    have hb : bitSection s.code (b :: bs) = bitChars c ++ bitSection s.code bs := by
      simp [bitSection, hc]
    rw [hb, puts_append, emitList]
    simp only [emitCode, hc, OutStream.putBits, bitChars]
    cases OutStream.puts s.outCap o (c.map charOfBit) with
    | error e => rfl
    | ok o' => exact ih o' fun x hx => h x (List.mem_cons_of_mem _ hx)

theorem emitList_append (s : State) (o : OutStream) (xs ys : List Byte) :
    emitList s o (xs ++ ys) =
      match emitList s o xs with
      | .error e => .error e
      | .ok o' => emitList s o' ys := by
  induction xs generalizing o with
  | nil => rfl
  | cons x xs ih =>
    simp only [List.cons_append, emitList]
    cases emitCode s o x with
    | error e => rfl
    | ok o' => exact ih o'

/-! ## DEC_SCAN -/

/-- One step of the matcher for each character of a list, the cursor one past it. -/
def scanList (s : State) : Word64 → Code → OutStream → List Byte → Res (Code × OutStream)
  | _, c, o, [] => .ok (c, o)
  | pos, c, o, ch :: chs =>
    match vmStep s (pos + 1#64) c o ch with
    | .error e => .error e
    | .ok r => scanList s (pos + 1#64) r.cand r.out chs

/-- The scanning loop over a readable stretch of the section scans its characters and goes on. -/
theorem scanLoop_split {s : State} {S : List Byte} (hS : Loaded s S) (he : s.secEnd ≤ s.inLen) (chs more : List Byte)
    (n : Nat) (pos : Word64) (c : Code) (o : OutStream) (hd : (S.take s.secEnd.toNat).drop pos.toNat = chs ++ more)
    (hr : ReadableBytes s pos chs.length) :
    scanLoop s (chs.length + n) pos c o =
      match scanList s pos c o chs with
      | .error e => .error e
      | .ok (c', o') => scanLoop s n (pos + BitVec.ofNat 64 chs.length) c' o' := by
  have hl := toNat_inLen hS
  have hel : s.secEnd.toNat ≤ S.length := by rw [BitVec.le_def, hl] at he; exact he
  induction chs generalizing pos c o with
  | nil => simp [scanList]
  | cons ch chs ih =>
    have hlt : pos.toNat < s.secEnd.toNat := by
      by_contra h
      rw [List.drop_eq_nil_of_le (by rw [List.length_take]; omega)] at hd
      cases hd
    have h3 : pos < s.secEnd := BitVec.lt_def.2 hlt
    have hd' : S.drop pos.toNat = ch :: S.drop (pos.toNat + 1) := by
      rw [List.drop_take, List.drop_eq_getElem_cons (by omega)] at hd
      rw [List.drop_eq_getElem_cons (by omega)]
      have : s.secEnd.toNat - pos.toNat = (s.secEnd.toNat - pos.toNat - 1) + 1 := by omega
      rw [this, List.take_succ_cons] at hd
      rw [(List.cons.inj hd).1]
    obtain ⟨h1, _, _, _⟩ := toNat_next hS hd'
    have hf : pos ∉ s.inFault := fun h => hr pos h ⟨le_rfl, by simp⟩
    have hk : (ch :: chs).length + n = (chs.length + n) + 1 := by simp; omega
    rw [hk, scanLoop, if_pos h3, memRead_pos hS hd' hf, scanList]
    cases hx : vmStep s (pos + 1#64) c o ch with
    | error e => simp only [hx]
    | ok r =>
      simp only [hx]
      rw [ih (pos + 1#64) r.cand r.out (by rw [h1, ← List.drop_drop, hd]; rfl)
        fun a ha h => hr a ha (by rw [h1] at h; simp; omega), next_add]

/-- The scanning loop over a readable section scans its characters. -/
theorem scanLoop_loaded {s : State} {S : List Byte} (hS : Loaded s S) (he : s.secEnd ≤ s.inLen) (chs : List Byte)
    (pos : Word64) (c : Code) (o : OutStream) (hp : pos ≤ s.secEnd)
    (hd : (S.take s.secEnd.toNat).drop pos.toNat = chs) (hr : Readable s pos s.secEnd) :
    scanLoop s chs.length pos c o =
      match scanList s pos c o chs with
      | .error e => .error e
      | .ok (c', o') => .ok (s.secEnd, c', o') := by
  have hl := toNat_inLen hS
  have hlen : chs.length = s.secEnd.toNat - pos.toNat := by
    rw [BitVec.le_def, hl] at he
    rw [← hd, List.length_drop, List.length_take]; omega
  rw [BitVec.le_def] at hp
  have h64 := s.secEnd.isLt
  have hend : pos + BitVec.ofNat 64 chs.length = s.secEnd :=
    BitVec.eq_of_toNat_eq (by rw [BitVec.toNat_add, BitVec.toNat_ofNat]; omega)
  have h := scanLoop_split hS he chs [] 0 pos c o (by simpa using hd) (readableBytes_of hr (by omega))
  rw [Nat.add_zero, hend] at h
  exact h

/-- The number of characters left of the section. -/
theorem length_charsLeft {s : State} {S : List Byte} (hS : Loaded s S) (he : s.secEnd ≤ s.inLen) :
    (charsLeft s S).length = s.secEnd.toNat - s.inPos.toNat := by
  rw [BitVec.le_def, toNat_inLen hS] at he
  unfold charsLeft
  rw [List.length_drop, List.length_take]; omega

/-- The loop of `DEC_SCAN` as a whole, over a readable section. -/
theorem scanLoop_charsLeft {s : State} {S : List Byte} (hS : Loaded s S) (he : s.secEnd ≤ s.inLen)
    (hp : s.inPos ≤ s.secEnd) (hr : Readable s s.inPos s.secEnd) :
    scanLoop s (s.secEnd.toNat - s.inPos.toNat) s.inPos s.cand s.out =
      match scanList s s.inPos s.cand s.out (charsLeft s S) with
      | .error e => .error e
      | .ok (c', o') => .ok (s.secEnd, c', o') := by
  rw [← length_charsLeft hS he]
  exact scanLoop_loaded hS he _ s.inPos s.cand s.out hp rfl hr

theorem scanList_append (s : State) (pos : Word64) (c : Code) (o : OutStream) (xs ys : List Byte) :
    scanList s pos c o (xs ++ ys) =
      match scanList s pos c o xs with
      | .error e => .error e
      | .ok (c', o') => scanList s (pos + BitVec.ofNat 64 xs.length) c' o' ys := by
  induction xs generalizing pos c o with
  | nil => simp [scanList]
  | cons x xs ih =>
    simp only [List.cons_append, scanList]
    cases vmStep s (pos + 1#64) c o x with
    | error e => rfl
    | ok r => simp only [ih, next_add pos x xs]

end Sys2Proof.Laws
end

