-- ==== Sys2Proof/Laws/Parser.lean ====
section
/-! SUPPORT. The parser over a loaded input: each of its reads in terms of the byte sequence, when the input is
readable (`_loaded`) and when the read is known to have succeeded (`_ok`) (spec/46_decoder.md R160, R161). -/

namespace Sys2Proof.Laws

open Sys2Proof.Machine

/-! ## Single reads -/

/-- No position from an index on fails. -/
abbrev ReadableFrom (s : State) (p : Nat) : Prop := ∀ a ∈ s.inFault, ¬ (p ≤ a.toNat ∧ a < s.inLen)

theorem readableFrom_zero {s : State} (h : Readable s 0#64 s.inLen) : ReadableFrom s 0 :=
  fun a ha hl => h a ha ⟨by rw [BitVec.le_def]; simp, hl.2⟩

theorem ReadableFrom.mono {s : State} {p q : Nat} (h : ReadableFrom s p) (hq : p ≤ q) : ReadableFrom s q :=
  fun a ha hl => h a ha ⟨hq.trans hl.1, hl.2⟩

theorem memReadAt_loaded {s : State} {S : List Byte} (hS : Loaded s S) {p : Nat} (hr : ReadableFrom s p) {b : Byte}
    (hb : S[p]? = some b) : memReadAt s p = .ok b := by
  obtain ⟨hp, rfl⟩ := List.getElem?_eq_some_iff.1 hb
  refine memRead_loaded hS hp fun hf => hr _ hf ?_
  have h64 := hS.2.2
  rw [BitVec.lt_def, toNat_inLen hS, BitVec.toNat_ofNat]
  omega

theorem memReadAt_ok {s : State} {S : List Byte} (hS : Loaded s S) {p : Nat} (hp : p < S.length) {b : Byte}
    (h : memReadAt s p = .ok b) : S[p]? = some b := by
  have h64 := hS.2.2
  have e : (BitVec.ofNat 64 p).toNat = p := by rw [BitVec.toNat_ofNat]; omega
  rcases memRead_cases s (BitVec.ofNat 64 p) with ⟨_, h'⟩ | ⟨_, _, h'⟩ | ⟨_, _, _, h'⟩ | ⟨b', _, _, hb, h'⟩
  · rw [memReadAt, h'] at h; cases h
  · rw [memReadAt, h'] at h; cases h
  · rw [memReadAt, h'] at h; cases h
  · rw [memReadAt, h'] at h
    cases h
    rwa [e, hS.1, read_ofBytes] at hb

theorem nextIs_loaded {s : State} {S : List Byte} (hS : Loaded s S) {p : Nat} (hr : ReadableFrom s p) (v : Byte) :
    nextIs s p v = .ok (decide (S[p]? = some v)) := by
  unfold nextIs
  rw [toNat_inLen hS]
  split
  · rename_i hp
    rw [memReadAt_loaded hS hr (List.getElem?_eq_getElem hp), List.getElem?_eq_getElem hp]
    simp only [Option.some.injEq]
    rfl
  · rename_i hp
    rw [List.getElem?_eq_none (by omega)]
    rfl

theorem nextIs_ok {s : State} {S : List Byte} (hS : Loaded s S) {p : Nat} {v : Byte} {r : Bool}
    (h : nextIs s p v = .ok r) : r = decide (S[p]? = some v) := by
  unfold nextIs at h
  rw [toNat_inLen hS] at h
  split at h
  · rename_i hp
    split at h
    · cases h
    · rename_i b hb
      cases h
      rw [memReadAt_ok hS hp hb]
      simp only [Option.some.injEq]
      rfl
  · rename_i hp
    cases h
    rw [List.getElem?_eq_none (by omega)]
    rfl

theorem nextBit_loaded {s : State} {S : List Byte} (hS : Loaded s S) {p : Nat} (hr : ReadableFrom s p) :
    nextBit s p = .ok (S[p]?.bind bitOfChar) := by
  unfold nextBit
  rw [toNat_inLen hS]
  split
  · rename_i hp
    rw [memReadAt_loaded hS hr (List.getElem?_eq_getElem hp), List.getElem?_eq_getElem hp]
    rfl
  · rename_i hp
    rw [List.getElem?_eq_none (by omega)]
    rfl

theorem nextBit_ok {s : State} {S : List Byte} (hS : Loaded s S) {p : Nat} {r : Option Bool}
    (h : nextBit s p = .ok r) : r = S[p]?.bind bitOfChar := by
  unfold nextBit at h
  rw [toNat_inLen hS] at h
  split at h
  · rename_i hp
    split at h
    · cases h
    · rename_i b hb
      cases h
      rw [memReadAt_ok hS hp hb]
      rfl
  · rename_i hp
    cases h
    rw [List.getElem?_eq_none (by omega)]
    rfl

/-! ## The marker -/

theorem readSpan_loaded {s : State} {S : List Byte} (hS : Loaded s S) (n : Nat) {p : Nat} (hr : ReadableFrom s p)
    (hp : p + n ≤ S.length) : readSpan s n p = .ok ((S.drop p).take n) := by
  induction n generalizing p with
  | zero => simp [readSpan]
  | succ n ih =>
    have hlt : p < S.length := by omega
    rw [readSpan, memReadAt_loaded hS hr (List.getElem?_eq_getElem hlt),
      List.drop_eq_getElem_cons hlt, List.take_succ_cons]
    simp only [ih (hr.mono (Nat.le_succ p)) (by omega)]

theorem readSpan_ok {s : State} {S : List Byte} (hS : Loaded s S) (n : Nat) {p : Nat} (hp : p + n ≤ S.length)
    {w : List Byte} (h : readSpan s n p = .ok w) : w = (S.drop p).take n := by
  induction n generalizing p w with
  | zero => simp [readSpan] at h; simp [h]
  | succ n ih =>
    have hlt : p < S.length := by omega
    rw [readSpan] at h
    split at h
    · cases h
    · rename_i b hb
      split at h
      · cases h
      · rename_i bs hbs
        cases h
        have := memReadAt_ok hS hlt hb
        rw [List.getElem?_eq_getElem hlt, Option.some.injEq] at this
        rw [List.drop_eq_getElem_cons hlt, List.take_succ_cons, this, ih (by omega) hbs]

/-- The search from `m` on answers the least index at which the marker stands. -/
theorem markerFrom_loaded {s : State} {S : List Byte} (hS : Loaded s S) (n : Nat) {m : Nat} (hr : ReadableFrom s m)
    (hn : n + m ≤ S.length + 1 - 22) :
    ∃ r, markerFrom s n m = .ok r ∧
      match r with
      | some k => m ≤ k ∧ k < m + n ∧ MarkerAt S k ∧ ∀ j, m ≤ j → j < k → ¬ MarkerAt S j
      | none => ∀ j, m ≤ j → j < m + n → ¬ MarkerAt S j := by
  induction n generalizing m with
  | zero => exact ⟨none, rfl, fun j h1 h2 => by omega⟩
  | succ n ih =>
    have hl : marker.length = 22 := rfl
    rw [markerFrom, readSpan_loaded hS _ hr (by omega)]
    by_cases h : MarkerAt S m
    · exact ⟨some m, by simp [h], le_rfl, by omega, h, fun j h1 h2 => by omega⟩
    · obtain ⟨r, e, hr'⟩ := ih (hr.mono (Nat.le_succ m)) (by omega)
      refine ⟨r, by simp only [if_neg h]; exact e, ?_⟩
      cases r with
      | none =>
        intro j h1 h2
        rcases Nat.lt_or_ge m j with h3 | h3
        · exact hr' j h3 (by omega)
        · obtain rfl : j = m := by omega
          exact h
      | some k =>
        refine ⟨by have := hr'.1; omega, by have := hr'.2.1; omega, hr'.2.2.1, fun j h1 h2 => ?_⟩
        rcases Nat.lt_or_ge m j with h3 | h3
        · exact hr'.2.2.2 j h3 h2
        · obtain rfl : j = m := by omega
          exact h

theorem markerFrom_ok {s : State} {S : List Byte} (hS : Loaded s S) (n : Nat) {m k : Nat}
    (hn : n + m ≤ S.length + 1 - 22) (h : markerFrom s n m = .ok (some k)) :
    m ≤ k ∧ MarkerAt S k ∧ ∀ j, m ≤ j → j < k → ¬ MarkerAt S j := by
  induction n generalizing m with
  | zero => cases h
  | succ n ih =>
    have hl : marker.length = 22 := rfl
    rw [markerFrom] at h
    split at h
    · cases h
    · rename_i w hw
      rw [readSpan_ok hS _ (by omega) hw] at h
      split at h
      · rename_i hm
        cases h
        exact ⟨le_rfl, hm, fun j h1 h2 => by omega⟩
      · rename_i hm
        obtain ⟨h1, h2, h3⟩ := ih (by omega) h
        refine ⟨by omega, h2, fun j h4 h5 => ?_⟩
        rcases Nat.lt_or_ge m j with h6 | h6
        · exact h3 j h6 h5
        · obtain rfl : j = m := by omega
          exact hm

/-- The marker needs 22 bytes. -/
theorem markerAt_le {S : List Byte} {m : Nat} (h : MarkerAt S m) : m + 22 ≤ S.length := by
  have := congrArg List.length h
  have hl : marker.length = 22 := rfl
  rw [List.length_take, List.length_drop, hl] at this
  omega

/-! ## Codes -/

/-- Reading the bits of a code up to the character that ends it. -/
theorem readCode_loaded {s : State} {S : List Byte} (hS : Loaded s S) (n : Nat) {p : Nat} (hr : ReadableFrom s p)
    (acc c : Code) {rest : List Byte} (hd : S.drop p = bitChars c ++ rest) (hc : c.length ≤ n)
    (he : rest.head?.bind bitOfChar = none) : readCode s n p acc = .ok (acc ++ c, p + c.length) := by
  induction c generalizing n p acc with
  | nil =>
    have h : S[p]? = rest.head? := by
      rw [← List.head?_drop, hd]; rfl
    cases n <;> simp [readCode, nextBit_loaded hS hr, h, he]
  | cons x c ih =>
    obtain ⟨n, rfl⟩ : ∃ k, n = k + 1 := ⟨n - 1, by simp at hc; omega⟩
    have h : S[p]? = some (charOfBit x) := by
      rw [← List.head?_drop, hd]; rfl
    have hd' : S.drop (p + 1) = bitChars c ++ rest := by
      rw [← List.drop_drop, hd]; rfl
    simp only [readCode, nextBit_loaded hS hr, h, Option.bind_some, bitOfChar_charOfBit]
    rw [ih n (hr.mono (Nat.le_succ p)) (acc ++ [x]) hd' (by simpa using hc)]
    simp
    omega

/-- A code with one bit more than it may have raises at that bit. -/
theorem readCode_long {s : State} {S : List Byte} (hS : Loaded s S) (n : Nat) {p : Nat} (hr : ReadableFrom s p)
    (acc c : Code) {rest : List Byte} (hd : S.drop p = bitChars c ++ rest) (hc : c.length = n) {x : Bool}
    (he : rest.head?.bind bitOfChar = some x) :
    readCode s n p acc = raise .malformedMetadata (BitVec.ofNat 64 (p + n)) := by
  induction c generalizing n p acc with
  | nil =>
    obtain rfl : n = 0 := hc.symm
    have h : S[p]? = rest.head? := by
      rw [← List.head?_drop, hd]; rfl
    simp [readCode, nextBit_loaded hS hr, h, he]
  | cons y c ih =>
    obtain ⟨n, rfl⟩ : ∃ k, n = k + 1 := ⟨n - 1, by simp at hc; omega⟩
    have h : S[p]? = some (charOfBit y) := by
      rw [← List.head?_drop, hd]; rfl
    have hd' : S.drop (p + 1) = bitChars c ++ rest := by
      rw [← List.drop_drop, hd]; rfl
    simp only [readCode, nextBit_loaded hS hr, h, Option.bind_some, bitOfChar_charOfBit]
    rw [ih n (hr.mono (Nat.le_succ p)) (acc ++ [y]) hd' (by simpa using hc)]
    congr 2
    omega

/-- What has been read when the reading of a code succeeds. -/
theorem readCode_ok {s : State} {S : List Byte} (hS : Loaded s S) (n : Nat) {p q : Nat} {acc c : Code}
    (h : readCode s n p acc = .ok (c, q)) :
    ∃ d, c = acc ++ d ∧ q = p + d.length ∧ d.length ≤ n ∧ S.drop p = bitChars d ++ S.drop q := by
  induction n generalizing p acc with
  | zero =>
    rw [readCode] at h
    split at h
    · cases h
    · cases h
      exact ⟨[], by simp, by simp, by simp, by simp [bitChars]⟩
    · cases h
  | succ n ih =>
    rw [readCode] at h
    split at h
    · cases h
    · cases h
      exact ⟨[], by simp, by simp, by simp, by simp [bitChars]⟩
    · rename_i bit hb
      have hb' := nextBit_ok hS hb
      obtain ⟨d, rfl, rfl, hd, he⟩ := ih h
      cases hx : S[p]? with
      | none => rw [hx] at hb'; cases hb'
      | some ch =>
        rw [hx, Option.bind_some] at hb'
        have hch := bitOfChar_eq_some.1 hb'.symm
        obtain ⟨hp, hp'⟩ := List.getElem?_eq_some_iff.1 hx
        refine ⟨bit :: d, by simp, by simp; omega, by simpa using hd, ?_⟩
        rw [List.drop_eq_getElem_cons hp, hp', hch, he]
        simp only [bitChars, List.map_cons, List.cons_append]

/-! ## Records -/

theorem length_metadataRecord (b : Byte) (c : Code) : (metadataRecord b c).length = 3 + c.length := by
  simp [metadataRecord, bitChars]; omega

/-- A record of the grammar is read and inserted. -/
theorem readRecord_loaded {s : State} {S : List Byte} (hS : Loaded s S) {p : Nat} (hr : ReadableFrom s p) (t : Rlt)
    (b : Byte) (c : Code) {rest : List Byte} (hd : S.drop p = metadataRecord b c ++ rest) (hc : c.length ≤ 255) :
    readRecord s p t =
      match rltInsert t c b (p + 2 + c.length) with
      | .error e => .error e
      | .ok t' => .ok (t', p + (3 + c.length)) := by
  have h0 : S[p]? = some b := by rw [← List.head?_drop, hd]; rfl
  have h1 : S[p + 1]? = some charColon := by
    rw [← List.head?_drop, ← List.drop_drop, hd]; rfl
  have hd2 : S.drop (p + 2) = bitChars c ++ (charNL :: rest) := by
    rw [← List.drop_drop, hd]; simp [metadataRecord]
  have hd3 : S.drop (p + 2 + c.length) = charNL :: rest := by
    rw [← List.drop_drop, hd2, List.drop_append_of_le_length (by simp [bitChars]), List.drop_eq_nil_of_le (by simp [bitChars])]
    rfl
  have h3 : S[p + 2 + c.length]? = some charNL := by rw [← List.head?_drop, hd3]; rfl
  have hcode := readCode_loaded hS 255 (hr.mono (show p ≤ p + 2 by omega)) [] c hd2 hc (by rfl)
  unfold readRecord
  simp only [bind, Except.bind, memReadAt_loaded hS hr h0, nextIs_loaded hS (hr.mono (Nat.le_succ p)), h1,
    decide_true, Bool.not_true, Bool.false_eq_true, if_false, codeMax, hcode, List.nil_append,
    nextIs_loaded hS (hr.mono (show p ≤ p + 2 + c.length by omega)), h3]
  cases rltInsert t c b (p + 2 + c.length) with
  | error e => rfl
  | ok t' =>
    simp only
    congr 2
    omega

/-- A record whose symbol no colon follows raises at the byte after the symbol (R160). -/
theorem readRecord_noColon {s : State} {S : List Byte} (hS : Loaded s S) {p : Nat} (hr : ReadableFrom s p) (t : Rlt)
    {sym : Byte} {rest : List Byte} (hd : S.drop p = sym :: rest) (hc : rest.head? ≠ some charColon) :
    readRecord s p t = raise .malformedMetadata (BitVec.ofNat 64 (p + 1)) := by
  have h0 : S[p]? = some sym := by rw [← List.head?_drop, hd]; rfl
  have h1 : S[p + 1]? = rest.head? := by rw [← List.head?_drop, ← List.drop_drop, hd]; rfl
  unfold readRecord
  simp [bind, Except.bind, memReadAt_loaded hS hr h0, nextIs_loaded hS (hr.mono (Nat.le_succ p)), h1, hc]

/-- The positions of a record's code. -/
theorem drop_recordCode {S : List Byte} {p : Nat} {sym : Byte} {c : Code} {rest : List Byte}
    (hd : S.drop p = [sym, charColon] ++ bitChars c ++ rest) :
    S[p]? = some sym ∧ S[p + 1]? = some charColon ∧ S.drop (p + 2) = bitChars c ++ rest ∧
      S.drop (p + 2 + c.length) = rest := by
  have h2 : S.drop (p + 2) = bitChars c ++ rest := by rw [← List.drop_drop, hd]; rfl
  refine ⟨by rw [← List.head?_drop, hd]; rfl, by rw [← List.head?_drop, ← List.drop_drop, hd]; rfl, h2, ?_⟩
  rw [← List.drop_drop, h2, List.drop_append_of_le_length (by simp [bitChars]),
    List.drop_eq_nil_of_le (by simp [bitChars])]
  rfl

/-- A code that neither a bit nor a newline follows raises at the byte after it, or at the end of the data. -/
theorem readRecord_noNewline {s : State} {S : List Byte} (hS : Loaded s S) {p : Nat} (hr : ReadableFrom s p) (t : Rlt)
    {sym : Byte} {c : Code} {rest : List Byte} (hd : S.drop p = [sym, charColon] ++ bitChars c ++ rest)
    (hc : c.length ≤ 255) (hb : rest.head?.bind bitOfChar = none) (hn : rest.head? ≠ some charNL) :
    readRecord s p t = raise .malformedMetadata (BitVec.ofNat 64 (p + 2 + c.length)) := by
  obtain ⟨h0, h1, h2, h3⟩ := drop_recordCode hd
  have h4 : S[p + 2 + c.length]? = rest.head? := by rw [← List.head?_drop, h3]
  unfold readRecord
  simp only [bind, Except.bind, memReadAt_loaded hS hr h0, nextIs_loaded hS (hr.mono (Nat.le_succ p)), h1,
    decide_true, Bool.not_true, Bool.false_eq_true, if_false, codeMax,
    readCode_loaded hS 255 (hr.mono (show p ≤ p + 2 by omega)) [] c h2 hc hb, List.nil_append,
    nextIs_loaded hS (hr.mono (show p ≤ p + 2 + c.length by omega)), h4, hn, decide_false, Bool.not_false, if_true]

/-- A code with a 256th bit raises at that bit. -/
theorem readRecord_long {s : State} {S : List Byte} (hS : Loaded s S) {p : Nat} (hr : ReadableFrom s p) (t : Rlt)
    {sym : Byte} {c : Code} {rest : List Byte} (hd : S.drop p = [sym, charColon] ++ bitChars c ++ rest)
    (hc : c.length = 255) {x : Bool} (hb : rest.head?.bind bitOfChar = some x) :
    readRecord s p t = raise .malformedMetadata (BitVec.ofNat 64 (p + 2 + 255)) := by
  obtain ⟨h0, h1, h2, -⟩ := drop_recordCode hd
  unfold readRecord
  simp only [bind, Except.bind, memReadAt_loaded hS hr h0, nextIs_loaded hS (hr.mono (Nat.le_succ p)), h1,
    decide_true, Bool.not_true, Bool.false_eq_true, if_false, codeMax,
    readCode_long hS 255 (hr.mono (show p ≤ p + 2 by omega)) [] c h2 hc hb]
  rfl

/-- What a record that was read successfully is. -/
theorem readRecord_ok {s : State} {S : List Byte} (hS : Loaded s S) {p : Nat} (hp : p < S.length) {t t' : Rlt} {q : Nat}
    (h : readRecord s p t = .ok (t', q)) :
    ∃ b c, S.drop p = metadataRecord b c ++ S.drop q ∧ q = p + (3 + c.length) ∧ q ≤ S.length ∧
      rltInsert t c b (p + 2 + c.length) = .ok t' := by
  unfold readRecord at h
  simp only [bind, Except.bind] at h
  split at h
  · cases h
  · rename_i b hb
    split at h
    · cases h
    · rename_i r hr
      split at h
      · cases h
      · rename_i hr'
        split at h
        · cases h
        · rename_i x hx
          obtain ⟨c, q'⟩ := x
          simp only at h
          split at h
          · cases h
          · rename_i r2 hr2
            split at h
            · cases h
            · rename_i hr2'
              split at h
              · cases h
              · rename_i t'' ht
                cases h
                have h0 := memReadAt_ok hS hp hb
                have h1 : S[p + 1]? = some charColon := by
                  have := nextIs_ok hS hr
                  rw [this] at hr'
                  simpa using hr'
                have h3 : S[q']? = some charNL := by
                  have := nextIs_ok hS hr2
                  rw [this] at hr2'
                  simpa using hr2'
                obtain ⟨d, hcd, rfl, _, hd⟩ := readCode_ok hS _ hx
                obtain rfl : c = d := by simpa using hcd
                obtain ⟨h0l, h0⟩ := List.getElem?_eq_some_iff.1 h0
                obtain ⟨h1l, h1⟩ := List.getElem?_eq_some_iff.1 h1
                obtain ⟨h3l, h3⟩ := List.getElem?_eq_some_iff.1 h3
                refine ⟨b, c, ?_, by omega, by omega, ht⟩
                rw [List.drop_eq_getElem_cons h0l, h0, List.drop_eq_getElem_cons h1l, h1, hd,
                  List.drop_eq_getElem_cons h3l, h3]
                simp [metadataRecord]

/-- The bytes of a run of records. -/
def recordsBytes (recs : List RltEntry) : List Byte := recs.flatMap fun e => metadataRecord e.sym e.code

/-- A run of records of the grammar is loaded in order, and the loop goes on behind it. -/
theorem readRecords_run {s : State} {S : List Byte} (hS : Loaded s S) (recs : List RltEntry) (more : List Byte) (n : Nat)
    {p : Nat} (hr : ReadableFrom s p) (t : Rlt) (hd : S.drop p = recordsBytes recs ++ more) (hn : S.length - p ≤ n)
    (hok : RecordsOk (t.entries ++ recs)) (hm : t.maxLen.toNat = longestKey t.entries) :
    ∃ m k, readRecords s n p t = readRecords s k (p + (recordsBytes recs).length) ⟨t.entries ++ recs, m⟩ ∧
      m.toNat = longestKey (t.entries ++ recs) ∧ S.length - (p + (recordsBytes recs).length) ≤ k := by
  induction recs generalizing n p t with
  | nil => exact ⟨t.maxLen, n, by simp [recordsBytes], by simpa using hm, by simpa [recordsBytes] using hn⟩
  | cons e recs ih =>
    obtain ⟨hlen, hnd, hall⟩ := hok
    have he := hall e (by simp)
    have hcut : S.drop p = metadataRecord e.sym e.code ++ (recordsBytes recs ++ more) := by
      rw [hd]; simp [recordsBytes]
    have hpl : p < S.length := by
      by_contra hcon
      rw [List.drop_eq_nil_of_le (by omega)] at hcut
      have := congrArg List.length hcut
      rw [List.length_append, length_metadataRecord] at this
      simp at this; omega
    obtain ⟨n, rfl⟩ : ∃ k, n = k + 1 := ⟨n - 1, by omega⟩
    have hlt := congrArg List.length hcut
    rw [List.length_drop, List.length_append, length_metadataRecord] at hlt
    have hins : rltInsert t e.code e.sym (p + 2 + e.code.length) =
        .ok ⟨t.entries ++ [e], maxLenWith t.maxLen e.code⟩ := by
      rcases rltInsert_cases t e.code e.sym (p + 2 + e.code.length) with ⟨hbad, _⟩ | ⟨_, _, _, _, h⟩
      · exfalso
        rcases hbad with h | h | ⟨x, hx, hxe⟩ | h
        · rw [h] at he; simp at he
        · omega
        · rw [List.map_append, List.nodup_append] at hnd
          exact hnd.2.2 _ (List.mem_map.2 ⟨x, hx, rfl⟩) _ (List.mem_map.2 ⟨e, by simp, rfl⟩) hxe
        · simp at hlen; omega
      · exact h
    rw [readRecords, toNat_inLen hS, if_pos hpl, readRecord_loaded hS hr t e.sym e.code hcut (by omega), hins]
    simp only
    have hd' : S.drop (p + (3 + e.code.length)) = recordsBytes recs ++ more := by
      rw [← List.drop_drop, hcut, ← length_metadataRecord e.sym e.code, List.drop_left]
    obtain ⟨m, k, h1, h2, h3⟩ := ih n (hr.mono (by omega)) ⟨t.entries ++ [e], maxLenWith t.maxLen e.code⟩ hd' (by omega)
      (by simpa using ⟨by simpa using hlen, by simpa using hnd, by simpa using hall⟩)
      (by rw [toNat_maxLenWith _ _ (by omega), hm, longestKey_append])
    have hpos : p + (3 + e.code.length) + (recordsBytes recs).length = p + (recordsBytes (e :: recs)).length := by
      simp [recordsBytes, length_metadataRecord]; omega
    rw [hpos] at h1 h3
    exact ⟨m, k, by simpa using h1, by simpa using h2, h3⟩

/-- A run of records of the grammar up to the end of the input is loaded in order. -/
theorem readRecords_loaded {s : State} {S : List Byte} (hS : Loaded s S) (recs : List RltEntry) (n : Nat) {p : Nat}
    (hr : ReadableFrom s p) (t : Rlt) (hd : S.drop p = recordsBytes recs) (hn : S.length - p ≤ n)
    (hok : RecordsOk (t.entries ++ recs)) (hm : t.maxLen.toNat = longestKey t.entries) :
    ∃ m, readRecords s n p t = .ok ⟨t.entries ++ recs, m⟩ ∧ m.toNat = longestKey (t.entries ++ recs) := by
  obtain ⟨m, k, h1, h2, -⟩ := readRecords_run hS recs [] n hr t (by simpa using hd) hn hok hm
  refine ⟨m, ?_, h2⟩
  have hend := congrArg List.length hd
  rw [List.length_drop] at hend
  rw [h1]
  cases k with
  | zero => rfl
  | succ k => rw [readRecords, toNat_inLen hS, if_neg (by omega)]

/-- A run of records of the grammar and then a record that raises: the loop raises the same. -/
theorem readRecords_raises {s : State} {S : List Byte} (hS : Loaded s S) (recs : List RltEntry) (more : List Byte)
    {p : Nat} (hr : ReadableFrom s p) (hd : S.drop p = recordsBytes recs ++ more) (hmore : more ≠ [])
    (hok : RecordsOk recs) (k : FaultKind) (info : Word64)
    (hrec : ∀ t : Rlt, t.entries = recs → readRecord s (p + (recordsBytes recs).length) t = raise k info) :
    readRecords s (s.inLen.toNat - p) p ⟨[], 0#8⟩ = raise k info := by
  obtain ⟨m, n, h1, -, h3⟩ := readRecords_run hS recs more (s.inLen.toNat - p) hr ⟨[], 0#8⟩ hd
    (by rw [toNat_inLen hS]) (by simpa using hok) rfl
  have hlen := congrArg List.length hd
  rw [List.length_drop, List.length_append] at hlen
  have hpos := List.length_pos_of_ne_nil hmore
  obtain ⟨n, rfl⟩ : ∃ j, n = j + 1 := ⟨n - 1, by omega⟩
  rw [h1, readRecords, toNat_inLen hS, if_pos (by omega), hrec _ (by simp)]
  rfl

/-- What was read when the loading of the records succeeds. -/
theorem readRecords_ok {s : State} {S : List Byte} (hS : Loaded s S) (n : Nat) {p : Nat} {t t' : Rlt}
    (hn : S.length - p ≤ n) (hp : p ≤ S.length) (h : readRecords s n p t = .ok t') (hok : RecordsOk t.entries)
    (hm : t.maxLen.toNat = longestKey t.entries) :
    ∃ recs, t'.entries = t.entries ++ recs ∧ S.drop p = recordsBytes recs ∧ RecordsOk t'.entries ∧
      t'.maxLen.toNat = longestKey t'.entries := by
  induction n generalizing p t with
  | zero =>
    cases h
    exact ⟨[], by simp, by rw [List.drop_eq_nil_of_le (by omega)]; rfl, hok, hm⟩
  | succ n ih =>
    rw [readRecords, toNat_inLen hS] at h
    split at h
    · rename_i hpl
      split at h
      · cases h
      · rename_i u q hu
        obtain ⟨b, c, hd, hq, hql, hins⟩ := readRecord_ok hS hpl hu
        rcases rltInsert_cases t c b (p + 2 + c.length) with ⟨_, hbad⟩ | ⟨h1, h2, h3, h4, hgood⟩
        · rw [hbad] at hins; cases hins
        · rw [hgood] at hins
          cases hins
          have hok' : RecordsOk (t.entries ++ [⟨c, b⟩]) := by
            refine ⟨by simp; omega, ?_, ?_⟩
            · rw [List.map_append, List.nodup_append]
              refine ⟨hok.2.1, by simp, ?_⟩
              intro x hx y hy
              obtain ⟨e, he, rfl⟩ := List.mem_map.1 hx
              simp at hy
              subst hy
              exact h3 e he
            · intro e he
              rcases List.mem_append.1 he with he | he
              · exact hok.2.2 e he
              · simp at he; subst he; exact ⟨h1, h2⟩
          obtain ⟨recs, e1, e2, e3, e4⟩ := ih (by omega) hql h hok'
            (by simp only; rw [toNat_maxLenWith _ _ h2, hm, longestKey_append])
          refine ⟨⟨c, b⟩ :: recs, by rw [e1]; simp, ?_, e3, e4⟩
          rw [hd, e2]
          simp [recordsBytes]
    · cases h
      exact ⟨[], by simp, by rw [List.drop_eq_nil_of_le (by omega)]; rfl, hok, hm⟩

end Sys2Proof.Laws
end

