-- ==== Sys2Proof/Laws/Scan.lean ====
section
/-! SUPPORT. Scanning a run of characters: what the matcher does with bits that complete no key, with the keys of a
table that no other key begins, and with a full output (spec/45_matcher.md R152, spec/46_decoder.md
R162). -/

namespace Sys2Proof.Laws

open Sys2Proof.Machine

/-! ## Sections and their bits -/

theorem sectionBits_cons_skip {ch : Byte} (h : bitOfChar ch = none) (chs : List Byte) :
    sectionBits (ch :: chs) = sectionBits chs := by simp [sectionBits, h]

theorem sectionBits_cons_bit {ch : Byte} {x : Bool} (h : bitOfChar ch = some x) (chs : List Byte) :
    sectionBits (ch :: chs) = x :: sectionBits chs := by simp [sectionBits, h]

/-- Where the bits of a section are cut, the section can be cut. -/
theorem sectionBits_split {chs : List Byte} {x y : Code} (h : sectionBits chs = x ++ y) :
    ∃ a b, chs = a ++ b ∧ sectionBits a = x ∧ sectionBits b = y := by
  induction chs generalizing x with
  | nil =>
    obtain ⟨rfl, rfl⟩ : x = [] ∧ y = [] := by simpa [sectionBits] using h
    exact ⟨[], [], rfl, rfl, rfl⟩
  | cons ch chs ih =>
    cases x with
    | nil => exact ⟨[], ch :: chs, rfl, rfl, h⟩
    | cons v x =>
      cases hx : bitOfChar ch with
      | none =>
        rw [sectionBits_cons_skip hx] at h
        obtain ⟨p, q, rfl, h1, h2⟩ := ih h
        exact ⟨ch :: p, q, rfl, by rw [sectionBits_cons_skip hx, h1], h2⟩
      | some bit =>
        rw [sectionBits_cons_bit hx, List.cons_append, List.cons.injEq] at h
        obtain ⟨p, q, rfl, h1, h2⟩ := ih h.2
        exact ⟨ch :: p, q, rfl, by rw [sectionBits_cons_bit hx, h1, h.1], h2⟩

/-- A section with one bit is that bit's character between characters that are skipped. -/
theorem sectionBits_single {chs : List Byte} {x : Bool} (h : sectionBits chs = [x]) :
    ∃ pre ch tl, chs = pre ++ ch :: tl ∧ sectionBits pre = [] ∧ bitOfChar ch = some x ∧ sectionBits tl = [] := by
  induction chs with
  | nil => simp [sectionBits] at h
  | cons z chs ih =>
    cases hz : bitOfChar z with
    | none =>
      rw [sectionBits_cons_skip hz] at h
      obtain ⟨pre, ch, tl, rfl, h1, h2, h3⟩ := ih h
      exact ⟨z :: pre, ch, tl, rfl, by rw [sectionBits_cons_skip hz, h1], h2, h3⟩
    | some v =>
      rw [sectionBits_cons_bit hz, List.cons.injEq] at h
      exact ⟨[], z, chs, rfl, rfl, by rw [hz, h.1], h.2⟩

/-! ## Keys -/

/-- An entry is found by its key. -/
theorem rltFind_of_mem {t : List RltEntry} (hn : (t.map RltEntry.code).Nodup) {e : RltEntry} (h : e ∈ t) :
    rltFind t e.code = some e.sym := by
  induction t with
  | nil => cases h
  | cons x t ih =>
    rw [List.map_cons, List.nodup_cons] at hn
    rcases List.mem_cons.1 h with rfl | h
    · simp [rltFind]
    · have : x.code ≠ e.code := fun hc => hn.1 (List.mem_map.2 ⟨_, h, hc.symm⟩)
      simp [rltFind, this, ih hn.2 h]

/-- A key is no prefix of the empty candidate. -/
theorem not_prefix_nil {t : List RltEntry} (h : RltKeys t) : ∀ e ∈ t, ¬ e.code <+: [] := fun e he hp => by
  have := h.2 e he
  rw [List.prefix_nil.1 hp] at this
  simp at this

/-! ## Scanning -/

/-- Characters that are not bits change nothing. -/
theorem scanList_skip (s : State) (chs : List Byte) (pos : Word64) (c : Code) (o : OutStream)
    (h : sectionBits chs = []) : scanList s pos c o chs = .ok (c, o) := by
  induction chs generalizing pos with
  | nil => rfl
  | cons ch chs ih =>
    cases hx : bitOfChar ch with
    | none =>
      rw [sectionBits_cons_skip hx] at h
      rw [scanList, vmStep_skip _ _ _ _ hx]
      exact ih _ h
    | some b =>
      rw [sectionBits_cons_bit hx] at h
      cases h

/-- Bits that complete no key and do not pass `MAXLEN` grow the candidate. -/
theorem scanList_grow (s : State) (chs : List Byte) (pos : Word64) (c : Code) (o : OutStream)
    (hb : (c ++ sectionBits chs).length ≤ s.maxLen.toNat)
    (hk : ∀ e ∈ s.rlt, ∀ d, d <+: c ++ sectionBits chs → c.length < d.length → e.code ≠ d) :
    scanList s pos c o chs = .ok (c ++ sectionBits chs, o) := by
  induction chs generalizing pos c with
  | nil => simp [scanList, sectionBits]
  | cons ch chs ih =>
    rw [scanList]
    cases hx : bitOfChar ch with
    | none =>
      rw [sectionBits_cons_skip hx] at hb hk ⊢
      rw [vmStep_skip _ _ _ _ hx]
      exact ih _ _ hb hk
    | some bit =>
      rw [sectionBits_cons_bit hx] at hb hk ⊢
      have hn : rltFind s.rlt (c ++ [bit]) = none := by
        rw [rltFind_eq_none]
        intro e he
        exact hk e he _ ⟨sectionBits chs, by simp⟩ (by simp)
      rw [vmStep_noMatch _ _ _ hx hn, if_neg (by simp at hb; omega)]
      simp only
      rw [ih _ _ (by simpa using hb) (fun e he d hd hl => hk e he d (by simpa using hd) (by simp at hl; omega))]
      simp

/-- Bits with which no key begins, no more than `MAXLEN`, grow the candidate. -/
theorem scanList_noKey (s : State) (chs : List Byte) (pos : Word64) (c : Code) (o : OutStream)
    (hb : (c ++ sectionBits chs).length ≤ s.maxLen.toNat) (hk : ∀ e ∈ s.rlt, ¬ e.code <+: c ++ sectionBits chs) :
    scanList s pos c o chs = .ok (c ++ sectionBits chs, o) :=
  scanList_grow s chs pos c o hb fun e he _ hd _ hcon => hk e he (hcon ▸ hd)

/-- Characters whose bits complete a key: the candidate is emptied at the last of them by an `Out`, and what is left
are characters that are skipped. -/
theorem scanList_key (s : State) (chs : List Byte) (pos : Word64) (c : Code) (o : OutStream) (e : RltEntry)
    (he : Matchable s.rlt e) (hn : RltKeys s.rlt)
    (hml : ∀ e ∈ s.rlt, e.code.length ≤ s.maxLen.toNat) (hc : ∀ e ∈ s.rlt, ¬ e.code <+: c)
    (hb : c ++ sectionBits chs = e.code) :
    ∃ pre tl, chs = pre ++ tl ∧ sectionBits tl = [] ∧
      scanList s pos c o pre =
        match OutStream.put s.outCap o e.sym with
        | .error x => .error x
        | .ok o' => .ok ([], o') := by
  obtain ⟨x, bit, hx⟩ : ∃ x bit, sectionBits chs = x ++ [bit] := by
    rcases List.eq_nil_or_concat (sectionBits chs) with h | ⟨x, b, h⟩
    · rw [h, List.append_nil] at hb
      exact absurd (by rw [hb]) (hc e he.1)
    · exact ⟨x, b, by simpa using h⟩
  obtain ⟨a, b, rfl, ha, hb'⟩ := sectionBits_split hx
  obtain ⟨b1, ch, tl, rfl, h1, h2, h3⟩ := sectionBits_single hb'
  refine ⟨(a ++ b1) ++ [ch], tl, by simp, h3, ?_⟩
  rw [hx] at hb
  have hcx : c ++ x ++ [bit] = e.code := by simpa using hb
  have hsb : sectionBits (a ++ b1) = x := by rw [sectionBits_append, ha, h1, List.append_nil]
  rw [scanList_append, scanList_grow]
  · simp only [scanList]
    rw [vmStep_match (r := e.sym) _ _ _ h2 (by rw [hsb, hcx]; exact rltFind_of_mem hn.1 he.1)]
    cases OutStream.put s.outCap o e.sym <;> rfl
  · rw [hsb]; have := hml e he.1; rw [← hcx] at this; simp at this ⊢; omega
  · rw [hsb]
    intro e' he' d hd hl hcon
    have hpre : e'.code <+: e.code := by rw [hcon, ← hcx]; exact hd.trans (List.prefix_append _ _)
    have hlt : e'.code.length < e.code.length := by
      rw [hcon, ← hcx]; have := hd.length_le; simp at this ⊢; omega
    rw [he.2 e' he' hpre] at hlt
    omega

/-- Characters whose bits, after the candidate's, are keys one after another and then bits with which no key begins:
the keys' symbols are appended to the output as far as it has room, and the rest is the candidate. -/
theorem scanList_keys (s : State) (hn : RltKeys s.rlt)
    (hml : ∀ e ∈ s.rlt, e.code.length ≤ s.maxLen.toNat) (syms : List RltEntry) (rest : Code) (chs : List Byte)
    (pos : Word64) (c : Code) (o : OutStream) (hs : ∀ e ∈ syms, Matchable s.rlt e) (hc : ∀ e ∈ s.rlt, ¬ e.code <+: c)
    (hb : c ++ sectionBits chs = syms.flatMap RltEntry.code ++ rest) (hr : rest.length ≤ s.maxLen.toNat)
    (hk : ∀ e ∈ s.rlt, ¬ e.code <+: rest) :
    scanList s pos c o chs =
      match OutStream.puts s.outCap o (syms.map RltEntry.sym) with
      | .error e => .error e
      | .ok o' => .ok (rest, o') := by
  induction syms generalizing chs pos c o with
  | nil =>
    simp only [List.flatMap_nil, List.nil_append] at hb
    rw [scanList_noKey s chs pos c o (by rw [hb]; exact hr) (by rw [hb]; exact hk), hb]
    rfl
  | cons e syms ih =>
    have he := hs e (by simp)
    obtain ⟨x, hx⟩ : ∃ x, e.code = c ++ x := by
      have h1 : c <+: (e :: syms).flatMap RltEntry.code ++ rest := ⟨_, hb⟩
      have h2 : e.code <+: (e :: syms).flatMap RltEntry.code ++ rest := by simp
      rcases List.prefix_or_prefix_of_prefix h1 h2 with h | h
      · obtain ⟨x, hx⟩ := h; exact ⟨x, hx.symm⟩
      · exact absurd h (hc e he.1)
    have hsplit : sectionBits chs = x ++ (syms.flatMap RltEntry.code ++ rest) := by
      rw [List.flatMap_cons, hx, List.append_assoc, List.append_assoc] at hb
      exact List.append_cancel_left hb
    obtain ⟨a, b, rfl, ha, hbb⟩ := sectionBits_split hsplit
    obtain ⟨pre, tl, rfl, ht, hscan⟩ := scanList_key s a pos c o e he hn hml hc (by rw [ha, hx])
    rw [List.append_assoc, scanList_append, hscan, List.map_cons, OutStream.puts]
    cases OutStream.put s.outCap o e.sym with
    | error x => rfl
    | ok o' =>
      exact ih (tl ++ b) _ [] o' (fun e he => hs e (by simp [he])) (not_prefix_nil hn)
        (by rw [sectionBits_append, ht, hbb]; rfl)

end Sys2Proof.Laws
end

