-- ==== Sys2Proof/Laws/Failures.lean ====
section
/-! SUPPORT. Commands that meet a failing position of the input: each loop, and the parser, ends with the failure of
the first failing position it would read (spec/20_memory.md R43, spec/60_exceptions.md R191). -/

namespace Sys2Proof.Laws

open Sys2Proof.Machine

/-- A failed read or write ends a command in `IOFailure` (R43, R45, R201). -/
theorem ioFails_raise (s : State) (write : Bool) (pos : Word64) :
    IoFails (settle s (raise .ioFailure (ioInfo write pos))) s write pos :=
  ⟨_, faultsWith_raise s .ioFailure _, ioInfo_fields write pos⟩

/-! ## The loops -/

/-- The bytes before a position of a loaded input. -/
theorem bytes_before {s : State} {S : List Byte} (hS : Loaded s S) {pos a : Word64} (hp : pos ≤ a) (ha : a < s.inLen) :
    ((S.take a.toNat).drop pos.toNat).length = a.toNat - pos.toNat ∧
    S.drop pos.toNat = (S.take a.toNat).drop pos.toNat ++ S.drop a.toNat ∧
    pos + BitVec.ofNat 64 (a.toNat - pos.toNat) = a := by
  rw [BitVec.lt_def, toNat_inLen hS] at ha
  rw [BitVec.le_def] at hp
  have h64 := a.isLt
  refine ⟨by rw [List.length_drop, List.length_take]; omega, ?_, ?_⟩
  · conv_lhs => rw [← List.take_append_drop a.toNat S]
    rw [List.drop_append_of_le_length (by rw [List.length_take]; omega)]
  · exact BitVec.eq_of_toNat_eq (by rw [BitVec.toNat_add, BitVec.toNat_ofNat]; omega)

theorem readableBytes_before {s : State} {pos a : Word64} (hp : pos ≤ a) (hr : Readable s pos a) :
    ReadableBytes s pos (a.toNat - pos.toNat) :=
  readableBytes_of hr (by rw [BitVec.le_def] at hp; omega)

/-- A loop's turns are enough to reach a position below its end. -/
theorem turns_split {pos a hi : Word64} (hp : pos ≤ a) (ha : a < hi) :
    ∃ n, hi.toNat - pos.toNat = (a.toNat - pos.toNat) + (n + 1) := by
  rw [BitVec.le_def] at hp
  rw [BitVec.lt_def] at ha
  exact ⟨hi.toNat - a.toNat - 1, by omega⟩

/-- Counting fails at the first failing position. -/
theorem countLoop_fails {s : State} {S : List Byte} (hS : Loaded s S) {pos a : Word64} (f : FreqTable) (hp : pos ≤ a)
    (ha : a < s.inLen) (hf : a ∈ s.inFault) (hr : Readable s pos a) :
    countLoop s (s.inLen.toNat - pos.toNat) pos f = raise .ioFailure (ioInfo false a) := by
  obtain ⟨h1, h2, h3⟩ := bytes_before hS hp ha
  obtain ⟨n, hn⟩ := turns_split hp ha
  have h := countLoop_split hS _ _ (n + 1) pos f h2 (by rw [h1]; exact readableBytes_before hp hr)
  rw [h1, h3] at h
  rw [hn, h, countLoop, if_pos ha, memRead_fails ha hf]
  rfl

/-- Emitting fails at the first failing position, when the bytes before it are emitted. -/
theorem emitLoop_fails {s : State} {S : List Byte} (hS : Loaded s S) {pos a : Word64} {o o' : OutStream} (hp : pos ≤ a)
    (ha : a < s.inLen) (hf : a ∈ s.inFault) (hr : Readable s pos a)
    (he : emitList s o ((S.take a.toNat).drop pos.toNat) = .ok o') :
    emitLoop s (s.inLen.toNat - pos.toNat) pos o = raise .ioFailure (ioInfo false a) := by
  obtain ⟨h1, h2, h3⟩ := bytes_before hS hp ha
  obtain ⟨n, hn⟩ := turns_split hp ha
  have h := emitLoop_split hS _ _ (n + 1) pos o h2 (by rw [h1]; exact readableBytes_before hp hr)
  rw [h1, h3, he] at h
  rw [hn, h]
  simp only
  rw [emitLoop, if_pos ha, memRead_fails ha hf]
  rfl

/-- The scan up to a position of the section: what follows goes on there. -/
theorem scanLoop_upto {s : State} {S : List Byte} (hS : Loaded s S) (hse : s.secEnd ≤ s.inLen) {pos a : Word64} {c c' : Code}
    {o o' : OutStream} (hp : pos ≤ a) (ha : a < s.secEnd) (hr : Readable s pos a)
    (he : scanList s pos c o ((S.take a.toNat).drop pos.toNat) = .ok (c', o')) :
    ∃ n, scanLoop s (s.secEnd.toNat - pos.toNat) pos c o = scanLoop s (n + 1) a c' o' := by
  have hai : a < s.inLen := by rw [BitVec.lt_def] at ha ⊢; rw [BitVec.le_def] at hse; omega
  obtain ⟨h1, -, h3⟩ := bytes_before hS hp hai
  obtain ⟨n, hn⟩ := turns_split hp ha
  have hcut : (S.take s.secEnd.toNat).drop pos.toNat =
      (S.take a.toNat).drop pos.toNat ++ (S.take s.secEnd.toNat).drop a.toNat := by
    rw [BitVec.lt_def] at ha
    rw [BitVec.le_def] at hp
    rw [BitVec.le_def, toNat_inLen hS] at hse
    conv_lhs => rw [← List.take_append_drop a.toNat (S.take s.secEnd.toNat)]
    rw [List.drop_append_of_le_length (by rw [List.length_take, List.length_take]; omega), List.take_take,
      Nat.min_eq_left (by omega)]
  have h := scanLoop_split hS hse _ _ (n + 1) pos c o hcut (by rw [h1]; exact readableBytes_before hp hr)
  rw [h1, h3, he] at h
  exact ⟨n, by rw [hn, h]⟩

/-- The scan fails at the first failing position, when the characters before it are scanned. -/
theorem scanLoop_fails {s : State} {S : List Byte} (hS : Loaded s S) (hse : s.secEnd ≤ s.inLen) {pos a : Word64} {c c' : Code}
    {o o' : OutStream} (hp : pos ≤ a) (ha : a < s.secEnd) (hf : a ∈ s.inFault) (hr : Readable s pos a)
    (he : scanList s pos c o ((S.take a.toNat).drop pos.toNat) = .ok (c', o')) :
    scanLoop s (s.secEnd.toNat - pos.toNat) pos c o = raise .ioFailure (ioInfo false a) := by
  obtain ⟨n, h⟩ := scanLoop_upto hS hse hp ha hr he
  have hai : a < s.inLen := by rw [BitVec.lt_def] at ha ⊢; rw [BitVec.le_def] at hse; omega
  rw [h, scanLoop, if_pos ha, memRead_fails hai hf]
  rfl

/-! ## The parser -/

/-- The state with an input that does not fail. -/
def unfailing (s : State) : State := { s with inFault := [] }

/-- The first failing position is `a`, below the end of the input. -/
structure FirstFailure (s : State) (S : List Byte) (a : Word64) : Prop where
  loaded : Loaded s S
  below : a.toNat < S.length
  fails : a ∈ s.inFault
  first : ∀ x ∈ s.inFault, a.toNat ≤ x.toNat

/-- The failure of the read at `a`. -/
abbrev failureAt {α : Type} (a : Word64) : Res α := raise .ioFailure (ioInfo false a)

theorem firstFailure_of {s : State} {S : List Byte} (hS : Loaded s S) {a : Word64} (ha : a < s.inLen)
    (hf : a ∈ s.inFault) (hr : Readable s 0#64 a) : FirstFailure s S a where
  loaded := hS
  below := by rw [BitVec.lt_def, toNat_inLen hS] at ha; exact ha
  fails := hf
  first x hx := by
    by_contra h
    exact hr x hx ⟨by rw [BitVec.le_def]; simp, BitVec.lt_def.2 (by omega)⟩

section
variable {s : State} {S : List Byte} {a : Word64} (h : FirstFailure s S a)
include h

theorem loaded_unfailing : Loaded (unfailing s) S := h.loaded

/-- A read below the failing position is that of the input that does not fail. -/
theorem memReadAt_below {p : Nat} (hp : p < a.toNat) : memReadAt s p = memReadAt (unfailing s) p := by
  have hS := h.loaded
  have hb := h.below
  have h64 := a.isLt
  rw [memRead_loaded hS (show p < S.length by omega),
    memRead_loaded (s := unfailing s) hS (show p < S.length by omega)]
  · simp [unfailing]
  · intro hm
    have := h.first _ hm
    rw [BitVec.toNat_ofNat] at this
    omega

/-- A read at or below the failing position: it fails there, and below it is that of the input that does not. -/
theorem memReadAt_fails {p : Nat} (hp : p ≤ a.toNat) :
    memReadAt s p = failureAt a ∨ (p < a.toNat ∧ memReadAt s p = memReadAt (unfailing s) p) := by
  have hS := h.loaded
  have hb := h.below
  rcases Nat.lt_or_ge p a.toNat with hlt | hge
  · exact .inr ⟨hlt, memReadAt_below h hlt⟩
  · obtain rfl : p = a.toNat := by omega
    refine .inl ?_
    rw [memReadAt, BitVec.ofNat_toNat, BitVec.setWidth_eq]
    exact memRead_fails (by rw [BitVec.lt_def, toNat_inLen hS]; exact hb) h.fails

theorem nextIs_fails {p : Nat} (hp : p ≤ a.toNat) (v : Byte) :
    nextIs s p v = failureAt a ∨ (p < a.toNat ∧ nextIs s p v = nextIs (unfailing s) p v) := by
  have hpl : p < s.inLen.toNat := by rw [toNat_inLen h.loaded]; have := h.below; omega
  unfold nextIs
  rw [show (unfailing s).inLen = s.inLen from rfl, if_pos hpl, if_pos hpl]
  rcases memReadAt_fails h hp with e | ⟨hlt, e⟩ <;> rw [e]
  · exact .inl rfl
  · exact .inr ⟨hlt, rfl⟩

theorem nextBit_fails {p : Nat} (hp : p ≤ a.toNat) :
    nextBit s p = failureAt a ∨ (p < a.toNat ∧ nextBit s p = nextBit (unfailing s) p) := by
  have hpl : p < s.inLen.toNat := by rw [toNat_inLen h.loaded]; have := h.below; omega
  unfold nextBit
  rw [show (unfailing s).inLen = s.inLen from rfl, if_pos hpl, if_pos hpl]
  rcases memReadAt_fails h hp with e | ⟨hlt, e⟩ <;> rw [e]
  · exact .inl rfl
  · exact .inr ⟨hlt, rfl⟩

theorem readSpan_fails (n : Nat) {p : Nat} (hp : p ≤ a.toNat) :
    readSpan s n p = failureAt a ∨
    (readSpan s n p = readSpan (unfailing s) n p ∧ ∀ w, readSpan (unfailing s) n p = .ok w → p + n ≤ a.toNat) := by
  induction n generalizing p with
  | zero => exact .inr ⟨rfl, fun _ _ => hp⟩
  | succ n ih =>
    rw [readSpan, readSpan]
    rcases memReadAt_fails h hp with e | ⟨hlt, e⟩ <;> rw [e]
    · exact .inl rfl
    cases memReadAt (unfailing s) p with
    | error x => exact .inr ⟨rfl, fun w hw => by cases hw⟩
    | ok b =>
      rcases ih (p := p + 1) hlt with e | ⟨e, hle⟩ <;> simp only [e]
      · exact .inl rfl
      cases hr : readSpan (unfailing s) n (p + 1) with
      | error x => exact .inr ⟨by trivial, fun w hw => by cases hw⟩
      | ok bs => exact .inr ⟨by trivial, fun w _ => by have := hle bs hr; omega⟩

/-- The search for the marker, its windows read whole and in ascending order (log 11). -/
theorem markerFrom_fails (n : Nat) {m : Nat} (hm : m ≤ a.toNat) :
    markerFrom s n m = failureAt a ∨
    (markerFrom s n m = markerFrom (unfailing s) n m ∧
      ∀ k, markerFrom (unfailing s) n m = .ok (some k) → k + marker.length ≤ a.toNat) := by
  induction n generalizing m with
  | zero => exact .inr ⟨rfl, fun k hk => by cases hk⟩
  | succ n ih =>
    rw [markerFrom, markerFrom]
    rcases readSpan_fails h marker.length hm with e | ⟨e, hle⟩ <;> rw [e]
    · exact .inl rfl
    cases hw : readSpan (unfailing s) marker.length m with
    | error x => exact .inr ⟨rfl, fun k hk => by cases hk⟩
    | ok w =>
      have hl : marker.length = 22 := rfl
      simp only
      split
      · exact .inr ⟨rfl, fun k hk => by cases hk; exact hle w hw⟩
      · exact ih (by have := hle w hw; omega)

theorem readCode_fails (n : Nat) {p : Nat} (hp : p ≤ a.toNat) (acc : Code) :
    readCode s n p acc = failureAt a ∨
    (readCode s n p acc = readCode (unfailing s) n p acc ∧
      ∀ c q, readCode (unfailing s) n p acc = .ok (c, q) → q ≤ a.toNat) := by
  induction n generalizing p acc with
  | zero =>
    rw [readCode, readCode]
    rcases nextBit_fails h hp with e | ⟨hlt, e⟩ <;> rw [e]
    · exact .inl rfl
    · refine .inr ⟨rfl, fun c q hq => ?_⟩
      split at hq <;> cases hq
      omega
  | succ n ih =>
    rw [readCode, readCode]
    rcases nextBit_fails h hp with e | ⟨hlt, e⟩ <;> rw [e]
    · exact .inl rfl
    · cases nextBit (unfailing s) p with
      | error x => exact .inr ⟨rfl, fun c q hq => by cases hq⟩
      | ok r =>
        cases r with
        | none => exact .inr ⟨rfl, fun c q hq => by cases hq; omega⟩
        | some bit => exact ih (by omega) (acc ++ [bit])

theorem readRecord_fails {p : Nat} (hp : p ≤ a.toNat) (t : Rlt) :
    readRecord s p t = failureAt a ∨
    (readRecord s p t = readRecord (unfailing s) p t ∧
      ∀ t' q, readRecord (unfailing s) p t = .ok (t', q) → q ≤ a.toNat) := by
  unfold readRecord
  simp only [bind, Except.bind]
  rcases memReadAt_fails h hp with e | ⟨hlt, e⟩ <;> rw [e]
  · exact .inl rfl
  cases memReadAt (unfailing s) p with
  | error x => exact .inr ⟨by trivial, fun t' q hq => by cases hq⟩
  | ok sym =>
    simp only
    rcases nextIs_fails h (show p + 1 ≤ a.toNat by omega) charColon with e | ⟨hlt, e⟩ <;> rw [e]
    · exact .inl rfl
    cases nextIs (unfailing s) (p + 1) charColon with
    | error x => exact .inr ⟨by trivial, fun t' q hq => by cases hq⟩
    | ok r =>
      simp only
      split
      · exact .inr ⟨by trivial, fun t' q hq => by cases hq⟩
      rcases readCode_fails h codeMax (show p + 2 ≤ a.toNat by omega) [] with e | ⟨e, hq⟩ <;> rw [e]
      · exact .inl rfl
      cases hc : readCode (unfailing s) codeMax (p + 2) [] with
      | error x => exact .inr ⟨by trivial, fun t' q hq => by cases hq⟩
      | ok x =>
        obtain ⟨c, q⟩ := x
        simp only
        rcases nextIs_fails h (hq c q hc) charNL with e | ⟨hlt, e⟩ <;> rw [e]
        · exact .inl rfl
        cases nextIs (unfailing s) q charNL with
        | error x => exact .inr ⟨by trivial, fun t' q hq => by cases hq⟩
        | ok r =>
          simp only
          split
          · exact .inr ⟨by trivial, fun t' q hq => by cases hq⟩
          cases rltInsert t c sym q with
          | error x => exact .inr ⟨by trivial, fun t' q hq => by cases hq⟩
          | ok t'' => exact .inr ⟨by trivial, fun t' q' hq => by cases hq; omega⟩

/-- The records up to the end of the input cannot all be read. -/
theorem readRecords_fails (n : Nat) {p : Nat} (hp : p ≤ a.toNat) (hn : S.length - p ≤ n) {t t' : Rlt}
    (hok : readRecords (unfailing s) n p t = .ok t') : readRecords s n p t = failureAt a := by
  have hb := h.below
  induction n generalizing p t with
  | zero => omega
  | succ n ih =>
    have hpl : p < s.inLen.toNat := by rw [toNat_inLen h.loaded]; omega
    rw [readRecords, show (unfailing s).inLen = s.inLen from rfl, if_pos hpl] at hok
    rw [readRecords, if_pos hpl]
    rcases readRecord_fails h hp t with e | ⟨e, hq⟩ <;> rw [e]
    · rfl
    · cases hr : readRecord (unfailing s) p t with
      | error x => rw [hr] at hok; cases hok
      | ok x =>
        obtain ⟨u, q⟩ := x
        rw [hr] at hok
        obtain ⟨b, c, -, hqe, -⟩ := readRecord_ok (loaded_unfailing h) (by omega) hr
        exact ih (hq u q hr) (by omega) hok

/-- A container that would be accepted cannot be parsed when one of its positions fails. -/
theorem parseContainer_fails {x : Rlt × Nat} (hok : parseContainer (unfailing s) = .ok x) :
    parseContainer s = failureAt a := by
  have hS := h.loaded
  have hb := h.below
  have hil := toNat_inLen hS
  unfold parseContainer at hok ⊢
  simp only [bind, Except.bind] at hok ⊢
  have hfm := markerFrom_fails h (s.inLen.toNat + 1 - marker.length) (Nat.zero_le _)
  change findMarker s = _ ∨ findMarker s = findMarker (unfailing s) ∧
    (∀ k, findMarker (unfailing s) = .ok (some k) → _) at hfm
  rcases hfm with e | ⟨e, hm⟩ <;> rw [e]
  · rfl
  cases hx : findMarker (unfailing s) with
  | error y => rw [hx] at hok; cases hok
  | ok r =>
    rw [hx] at hok
    cases r with
    | none => cases hok
    | some m =>
      have hma := hm m hx
      have hl : marker.length = 22 := rfl
      have hse : sectionEnd s m = sectionEnd (unfailing s) m := by
        unfold sectionEnd
        split
        · rfl
        · rw [memReadAt_below h (show m - 1 < a.toNat by omega)]
      simp only [hse] at hok ⊢
      cases hsx : sectionEnd (unfailing s) m with
      | error y => rw [hsx] at hok; cases hok
      | ok e =>
        rw [hsx] at hok
        simp only at hok ⊢
        have hpl : m + marker.length < s.inLen.toNat := by omega
        unfold recordsStart at hok ⊢
        rw [show (unfailing s).inLen = s.inLen from rfl, if_pos hpl] at hok
        rw [if_pos hpl]
        rcases memReadAt_fails h hma with e | ⟨hlt, e⟩ <;> rw [e]
        · rfl
        cases hb' : memReadAt (unfailing s) (m + marker.length) with
        | error y => rw [hb'] at hok; cases hok
        | ok b =>
          rw [hb'] at hok
          simp only at hok ⊢
          by_cases hnl : b = charNL
          · rw [if_pos hnl] at hok ⊢
            simp only at hok ⊢
            split at hok
            · cases hok
            · rename_i t ht
              rw [readRecords_fails h _ (by omega) (by rw [hil]) ht]
              rfl
          · rw [if_neg hnl] at hok
            cases hok

end

end Sys2Proof.Laws
end

