-- ==== Sys2Proof/Laws/HeapOrder.lean ====
section
/-! SUPPORT. The queue's procedures keep heap order, and the root is a minimum
(spec/41_priority_queue.md R101, R102, R106). -/

namespace Sys2Proof.Laws

open Sys2Proof.Machine

/-- A position is a child of another exactly when it is its left or right child (R100). -/
theorem parentIx_eq_iff {i j : Nat} (h : 0 < j) : parentIx j = i ↔ j = leftIx i ∨ j = rightIx i := by
  unfold parentIx leftIx rightIx; omega

/-! ## Sifting up -/

/-- Heap order but for the entry at `i` against its parent; the children of `i` are in order with that
parent. -/
def UpInv (h : List HeapEntry) (i : Nat) : Prop :=
  (∀ j < h.length, 0 < j → j ≠ i → keyAt h (parentIx j) ≤ keyAt h j) ∧
  (∀ j < h.length, 0 < j → parentIx j = i → 0 < i → keyAt h (parentIx i) ≤ keyAt h j)

/-- Sifting up ends in heap order (R101). -/
theorem heapOrdered_siftUp (n : Nat) (h : List HeapEntry) (i : Nat) (hn : i ≤ n) (hi : i < h.length)
    (hinv : UpInv h i) : HeapOrdered (siftUp n h i) := by
  induction n generalizing h i with
  | zero =>
    obtain rfl : i = 0 := by omega
    intro j hj hj0
    exact hinv.1 j hj hj0 (by omega)
  | succ n ih =>
    unfold siftUp
    by_cases h0 : i = 0
    · rw [if_pos h0]
      intro j hj hj0
      exact hinv.1 j hj hj0 (by omega)
    have hi0 : 0 < i := by omega
    have hp := parentIx_lt hi0
    have hpl : parentIx i < h.length := by omega
    rw [if_neg h0, List.getElem?_eq_getElem hpl, List.getElem?_eq_getElem hi]
    simp only
    by_cases hk : h[i].key < h[parentIx i].key
    · rw [if_pos hk]
      rw [← keyAt_getElem hi, ← keyAt_getElem hpl, BitVec.lt_def] at hk
      refine ih _ _ (by omega) (by simpa using hpl) ⟨?_, ?_⟩
      · intro j hj hj0 hne
        rw [length_swapAt] at hj
        rw [keyAt_swapAt hpl hi, keyAt_swapAt hpl hi, BitVec.le_def]
        by_cases hji : j = i
        · subst hji
          rw [if_neg (by omega), if_pos rfl, if_pos rfl]; omega
        · rw [if_neg hji, if_neg hne]
          by_cases hjp : parentIx j = i
          · rw [if_pos hjp]
            exact BitVec.le_def.1 (hinv.2 j hj hj0 hjp hi0)
          · rw [if_neg hjp]
            have h1 := BitVec.le_def.1 (hinv.1 j hj hj0 hji)
            by_cases hjq : parentIx j = parentIx i
            · rw [if_pos hjq]; rw [hjq] at h1; omega
            · rw [if_neg hjq]; exact h1
      · intro j hj hj0 hjp hp0
        rw [length_swapAt] at hj
        have hpp := parentIx_lt hp0
        rw [keyAt_swapAt hpl hi, keyAt_swapAt hpl hi, BitVec.le_def]
        rw [if_neg (by omega), if_neg (by omega)]
        have h1 := BitVec.le_def.1 (hinv.1 (parentIx i) hpl hp0 (by omega))
        by_cases hji : j = i
        · rw [if_pos hji]; exact h1
        · rw [if_neg hji, if_neg (by have := parentIx_lt hj0; omega)]
          have h2 := BitVec.le_def.1 (hinv.1 j hj hj0 hji)
          rw [hjp] at h2; omega
    · rw [if_neg hk]
      rw [← keyAt_getElem hi, ← keyAt_getElem hpl, BitVec.lt_def] at hk
      intro j hj hj0
      by_cases hji : j = i
      · subst hji; rw [BitVec.le_def]; omega
      · exact hinv.1 j hj hj0 hji

/-- An insert keeps heap order (R106). -/
theorem heapOrdered_pqInsert {h h' : List HeapEntry} {e : HeapEntry} (ho : HeapOrdered h)
    (hi : pqInsert h e = .ok h') : HeapOrdered h' := by
  unfold pqInsert at hi
  split_ifs at hi
  · cases hi
  · obtain rfl : siftUp h.length (h ++ [e]) h.length = h' := by simpa using hi
    refine heapOrdered_siftUp _ _ _ (Nat.le_refl _) (by simp) ⟨?_, ?_⟩
    · intro j hj hj0 hne
      have hj' : j < h.length := by simp at hj; omega
      have hp := parentIx_lt hj0
      have h1 := ho j hj' hj0
      unfold keyAt at h1 ⊢
      rwa [List.getElem?_append_left hj', List.getElem?_append_left (by omega)]
    · intro j hj hj0 hp _
      have := parentIx_lt hj0
      simp at hj; omega

/-! ## Sifting down -/

/-- Heap order but for the entry at `i` against its children; those are in order with the parent of `i`. -/
def DownInv (h : List HeapEntry) (i : Nat) : Prop :=
  (∀ j < h.length, 0 < j → parentIx j ≠ i → keyAt h (parentIx j) ≤ keyAt h j) ∧
  (∀ j < h.length, 0 < j → parentIx j = i → 0 < i → keyAt h (parentIx i) ≤ keyAt h j)

/-- The chosen child is a child, and no child is smaller (R102). -/
theorem smallerChild_spec (h : List HeapEntry) (i : Nat) :
    (smallerChild h i = none ∧ ∀ j < h.length, 0 < j → parentIx j ≠ i) ∨
    (∃ c, smallerChild h i = some c ∧ c < h.length ∧ 0 < c ∧ parentIx c = i ∧
      ∀ j < h.length, 0 < j → parentIx j = i → keyAt h c ≤ keyAt h j) := by
  unfold smallerChild
  by_cases hl : leftIx i < h.length
  · right
    rw [List.getElem?_eq_getElem hl]
    by_cases hr : rightIx i < h.length
    · rw [List.getElem?_eq_getElem hr]
      simp only
      by_cases hk : h[rightIx i].key < h[leftIx i].key
      · refine ⟨rightIx i, by rw [if_pos hk], hr, by simp [rightIx], by simp only [parentIx, rightIx]; omega, ?_⟩
        rw [← keyAt_getElem hr, ← keyAt_getElem hl, BitVec.lt_def] at hk
        intro j _ hj0 hp
        rcases (parentIx_eq_iff hj0).1 hp with rfl | rfl <;> rw [BitVec.le_def] <;> omega
      · refine ⟨leftIx i, by rw [if_neg hk], hl, by simp [leftIx], by simp [parentIx, leftIx], ?_⟩
        rw [← keyAt_getElem hr, ← keyAt_getElem hl, BitVec.lt_def] at hk
        intro j _ hj0 hp
        rcases (parentIx_eq_iff hj0).1 hp with rfl | rfl <;> rw [BitVec.le_def] <;> omega
    · rw [List.getElem?_eq_none (by omega)]
      refine ⟨leftIx i, rfl, hl, by simp [leftIx], by simp [parentIx, leftIx], ?_⟩
      intro j hj hj0 hp
      rcases (parentIx_eq_iff hj0).1 hp with rfl | rfl
      · rw [BitVec.le_def]
      · omega
  · left
    rw [List.getElem?_eq_none (by omega)]
    refine ⟨rfl, fun j hj hj0 hp => ?_⟩
    rcases (parentIx_eq_iff hj0).1 hp with rfl | rfl
    · omega
    · simp only [rightIx, leftIx] at *; omega

/-- Sifting down ends in heap order (R102). -/
theorem heapOrdered_siftDown (n : Nat) (h : List HeapEntry) (i : Nat) (hn : h.length ≤ n + i)
    (hinv : DownInv h i) : HeapOrdered (siftDown n h i) := by
  induction n generalizing h i with
  | zero =>
    intro j hj hj0
    exact hinv.1 j hj hj0 (by have := parentIx_lt hj0; simp [siftDown] at hj; omega)
  | succ n ih =>
    unfold siftDown
    rcases smallerChild_spec h i with ⟨hc, hno⟩ | ⟨c, hc, hcl, hc0, hcp, hmin⟩
    · rw [hc]
      intro j hj hj0
      exact hinv.1 j hj hj0 (hno j hj hj0)
    · have hlt := parentIx_lt hc0
      have hil : i < h.length := by omega
      rw [hc]
      simp only [List.getElem?_eq_getElem hcl, List.getElem?_eq_getElem hil]
      by_cases hk : h[c].key < h[i].key
      · rw [if_pos hk]
        rw [← keyAt_getElem hcl, ← keyAt_getElem hil, BitVec.lt_def] at hk
        refine ih _ _ (by rw [length_swapAt]; omega) ⟨?_, ?_⟩
        · intro j hj hj0 hne
          rw [length_swapAt] at hj
          rw [keyAt_swapAt hcl hil, keyAt_swapAt hcl hil, BitVec.le_def]
          by_cases hjc : j = c
          · subst hjc
            rw [if_pos hcp, if_neg (by omega), if_pos rfl]; omega
          · by_cases hjp : parentIx j = i
            · have := BitVec.le_def.1 (hmin j hj hj0 hjp)
              rw [if_pos hjp, if_neg (by have := parentIx_lt hj0; omega), if_neg hjc]; exact this
            · rw [if_neg hjp, if_neg hne]
              have h1 := BitVec.le_def.1 (hinv.1 j hj hj0 hjp)
              by_cases hji : j = i
              · subst hji
                rw [if_pos rfl]
                exact BitVec.le_def.1 (hinv.2 c hcl hc0 hcp hj0)
              · rw [if_neg hji, if_neg hjc]; exact h1
        · intro j hj hj0 hjp _
          rw [length_swapAt] at hj
          have := parentIx_lt hj0
          rw [keyAt_swapAt hcl hil, keyAt_swapAt hcl hil, hcp, if_pos rfl, if_neg (by omega), if_neg (by omega)]
          have h1 := hinv.1 j hj hj0 (by omega)
          rwa [hjp] at h1
      · rw [if_neg hk]
        rw [← keyAt_getElem hcl, ← keyAt_getElem hil, BitVec.lt_def] at hk
        intro j hj hj0
        by_cases hjp : parentIx j = i
        · have := BitVec.le_def.1 (hmin j hj hj0 hjp)
          rw [hjp, BitVec.le_def]; omega
        · exact hinv.1 j hj hj0 hjp

theorem heapOrdered_nil : HeapOrdered [] := fun _ h => absurd h (by simp)

/-- Taking the root out keeps heap order (R106). -/
theorem heapOrdered_removeRoot {h : List HeapEntry} (ho : HeapOrdered h) : HeapOrdered (removeRoot h) := by
  cases h with
  | nil => exact heapOrdered_nil
  | cons r rest =>
    unfold removeRoot
    rcases List.eq_nil_or_concat rest with rfl | ⟨init, last, rfl⟩
    · exact heapOrdered_nil
    · have h1 : (r :: (init ++ [last])).getLast? = some last := by simp [List.getLast?_cons]
      have h2 : (r :: (init ++ [last])).dropLast = r :: init := by
        rw [← List.cons_append, List.dropLast_concat]
      simp only [List.concat_eq_append] at ho
      simp only [List.concat_eq_append, h1, h2, List.set_cons_zero]
      refine heapOrdered_siftDown _ _ _ (by simp) ⟨?_, fun j _ _ _ h => absurd h (by simp)⟩
      have hsame : ∀ j, 0 < j → j < (last :: init).length →
          keyAt (last :: init) j = keyAt (r :: (init ++ [last])) j := by
        intro j hj0 hj
        obtain ⟨k, rfl⟩ : ∃ k, j = k + 1 := ⟨j - 1, by omega⟩
        simp only [List.length_cons] at hj
        unfold keyAt
        rw [List.getElem?_cons_succ, List.getElem?_cons_succ, List.getElem?_append_left (by omega)]
      intro j hj hj0 hp
      have hpj := parentIx_lt hj0
      rw [hsame j hj0 hj, hsame (parentIx j) (by omega) (by omega)]
      exact ho j (by simp at hj ⊢; omega) hj0

/-- In a queue in heap order no entry's key is smaller than the root's (R106). -/
theorem root_le {r : HeapEntry} {rest : List HeapEntry} (ho : HeapOrdered (r :: rest)) (i : Nat)
    (hi : i < (r :: rest).length) : r.key ≤ keyAt (r :: rest) i := by
  induction i using Nat.strong_induction_on with
  | _ i ih =>
    by_cases h0 : i = 0
    · subst h0; simp [keyAt]
    · have hp := parentIx_lt (i := i) (by omega)
      have h1 := ih _ hp (by omega)
      have h2 := ho i hi (by omega)
      rw [BitVec.le_def] at *; omega

theorem root_le_mem {r : HeapEntry} {rest : List HeapEntry} (ho : HeapOrdered (r :: rest)) {e : HeapEntry}
    (he : e ∈ r :: rest) : r.key ≤ e.key := by
  obtain ⟨i, hi, rfl⟩ := List.getElem_of_mem he
  have := root_le ho i hi
  rwa [keyAt_getElem hi] at this

end Sys2Proof.Laws
end

