-- ==== Sys2Proof/Laws/PerInstr.lean ====
section
/-! SUPPORT. What holds of every command as syntax, one lemma per constructor. -/

/-! ## EncodingIsLegal: the word of a command is legal (spec/30_encoding.md R63) -/

namespace Sys2Proof.Laws

/-- Some row of the opcode table admits the command's word. -/
def EncodingIsLegal.Statement (i : Instr) : Prop := legal (encode i) = true

theorem EncodingIsLegal.clr : EncodingIsLegal.Statement .clr := by
  show legal (Sys2Proof.encode .clr) = true; decide
theorem EncodingIsLegal.inRewind : EncodingIsLegal.Statement .inRewind := by
  show legal (Sys2Proof.encode .inRewind) = true; decide

/-- The row of `PQ_INSERT` leaves the 9 bits of the node and the 64 of the key free. -/
theorem EncodingIsLegal.pqInsert (key : Word64) (node : NodeIx) :
    EncodingIsLegal.Statement (.pqInsert key node) := by
  have hn : node.setWidth 16 &&& 0xFE00#16 = 0#16 := by
    have h : node.setWidth 16 = 0#7 ++ node := by ext j hj; simp; grind
    have m : 0xFE00#16 = 0x7F#7 ++ 0#9 := by decide
    rw [h, m, BitVec.and_append]; simp
  have h : encode (.pqInsert key node) &&& (0xFFFF#16 ++ 0xFE00#16 ++ 0#64) = 0x1000#16 ++ 0#16 ++ 0#64 := by
    have o : 0x10#8 ++ 0#8 = 0x1000#16 := by decide
    simp only [Sys2Proof.encode, Instr.opcode, Instr.operandB, Instr.operandA, o]
    rw [BitVec.and_append, BitVec.and_append, hn, BitVec.and_zero]; decide
  have h' : encode (.pqInsert key node) &&& 0xFFFFFE000000000000000000#96 = 0x100000000000000000000000#96 := h
  simp [EncodingIsLegal.Statement, legal, opcodeTable, OpcodeRow.admits, h']

theorem EncodingIsLegal.pqExtractMin : EncodingIsLegal.Statement .pqExtractMin := by
  show legal (Sys2Proof.encode .pqExtractMin) = true; decide
theorem EncodingIsLegal.pqPeek : EncodingIsLegal.Statement .pqPeek := by
  show legal (Sys2Proof.encode .pqPeek) = true; decide
theorem EncodingIsLegal.freqCount : EncodingIsLegal.Statement .freqCount := by
  show legal (Sys2Proof.encode .freqCount) = true; decide
theorem EncodingIsLegal.treeBuild : EncodingIsLegal.Statement .treeBuild := by
  show legal (Sys2Proof.encode .treeBuild) = true; decide
theorem EncodingIsLegal.codeGen : EncodingIsLegal.Statement .codeGen := by
  show legal (Sys2Proof.encode .codeGen) = true; decide
theorem EncodingIsLegal.emit : EncodingIsLegal.Statement .emit := by
  show legal (Sys2Proof.encode .emit) = true; decide
theorem EncodingIsLegal.encode : EncodingIsLegal.Statement .encode := by
  show legal (Sys2Proof.encode .encode) = true; decide
theorem EncodingIsLegal.decParse : EncodingIsLegal.Statement .decParse := by
  show legal (Sys2Proof.encode .decParse) = true; decide
theorem EncodingIsLegal.decScan : EncodingIsLegal.Statement .decScan := by
  show legal (Sys2Proof.encode .decScan) = true; decide

/-- The row of `VM_PUSH` leaves the 8 bits of the character free. -/
theorem EncodingIsLegal.vmPush (ch : Byte) : EncodingIsLegal.Statement (.vmPush ch) := by
  have hn : ch.setWidth 16 &&& 0xFF00#16 = 0#16 := by
    have h : ch.setWidth 16 = 0#8 ++ ch := by ext j hj; simp; grind
    have m : 0xFF00#16 = 0xFF#8 ++ 0#8 := by decide
    rw [h, m, BitVec.and_append]; simp
  have h : Sys2Proof.encode (.vmPush ch) &&& (0xFFFF#16 ++ 0xFF00#16 ++ 0xFFFFFFFFFFFFFFFF#64) =
      0x3200#16 ++ 0#16 ++ 0#64 := by
    have o : 0x32#8 ++ 0#8 = 0x3200#16 := by decide
    simp only [Sys2Proof.encode, Instr.opcode, Instr.operandB, Instr.operandA, o]
    rw [BitVec.and_append, BitVec.and_append, hn, BitVec.zero_and]; decide
  have h' : Sys2Proof.encode (.vmPush ch) &&& 0xFFFFFF00FFFFFFFFFFFFFFFF#96 = 0x320000000000000000000000#96 := h
  simp [EncodingIsLegal.Statement, legal, opcodeTable, OpcodeRow.admits, h']

theorem EncodingIsLegal.decode : EncodingIsLegal.Statement .decode := by
  show legal (Sys2Proof.encode .decode) = true; decide

end Sys2Proof.Laws
end

