-- ==== Sys2Proof/Laws/Step.lean ====
section
/-! SUPPORT. What a step can do, by the move the host makes (spec/47_control.md R180 to R185), and the bits of
`STATUS` (spec/10_state.md R20). -/

namespace Sys2Proof.Laws

open Sys2Proof.Machine

theorem getLsbD_append_ofBool {n : Nat} (x : BitVec n) (c : Bool) (k : Nat) :
    (x ++ BitVec.ofBool c).getLsbD k = if k = 0 then c else x.getLsbD (k - 1) := by
  rw [BitVec.getLsbD_append]
  by_cases h : k = 0
  · subst h; cases c <;> rfl
  · rw [if_neg h, if_neg (by omega)]

/-- `STATUS`, bit by bit. -/
theorem getLsbD_status (s : State) (k : Nat) :
    s.status.getLsbD k =
      if k = 0 then false else if k = 1 then s.err != 0#8 else if k = 2 then s.flags.freqValid
      else if k = 3 then s.flags.treeValid else if k = 4 then s.flags.rootValid
      else if k = 5 then s.flags.ctValid else if k = 6 then s.flags.rltValid else false := by
  have h : s.status = 0#25 ++ BitVec.ofBool s.flags.rltValid ++ BitVec.ofBool s.flags.ctValid
    ++ BitVec.ofBool s.flags.rootValid ++ BitVec.ofBool s.flags.treeValid
    ++ BitVec.ofBool s.flags.freqValid ++ BitVec.ofBool (s.err != 0#8) ++ BitVec.ofBool false := rfl
  rw [h]
  simp only [getLsbD_append_ofBool]
  by_cases h0 : k = 0; · simp [h0]
  by_cases h1 : k = 1; · simp [h1]
  by_cases h2 : k = 2; · simp [h2]
  by_cases h3 : k = 3; · simp [h3]
  by_cases h4 : k = 4; · simp [h4]
  by_cases h5 : k = 5; · simp [h5]
  by_cases h6 : k = 6; · simp [h6]
  have e : ∀ j, 0 < k - j ↔ j < k := fun j => by omega
  simp only [h0, h1, h2, h3, h4, h5, h6, if_false]
  rw [if_neg (by omega), if_neg (by omega), if_neg (by omega), if_neg (by omega), if_neg (by omega),
    if_neg (by omega), BitVec.getLsbD_zero]

/-- With no move of the host the block is idle. -/
theorem step_idle {s : State} (h : s.port = []) : step s = .next s := by simp [step, hostStep, h]

/-- A word that decodes runs the command it decodes to. -/
theorem step_present {s : State} {w : CommandWord} {i : Instr} {rest : List HostMove}
    (h : s.port = .present w :: rest) (hd : decode w = .ok i) : step s = exec i { s with port := rest } := by
  simp [step, hostStep, h, hostMove, acceptWord, hd]

/-- A word that does not decode is rejected. -/
theorem step_present_illegal {s : State} {w : CommandWord} {e : DecodeError} {rest : List HostMove}
    (h : s.port = .present w :: rest) (hd : decode w = .error e) :
    step s = rejectWord w { s with port := rest } := by
  simp [step, hostStep, h, hostMove, acceptWord, hd]

theorem step_load {s : State} {S : List Byte} {rest : List HostMove} (h : s.port = .load S :: rest) :
    step s = hostLoad S { s with port := rest } := by simp [step, hostStep, h, hostMove]

theorem step_reset {s : State} {rest : List HostMove} (h : s.port = .reset :: rest) :
    step s = .next (hardwareReset { s with port := rest }) := by simp [step, hostStep, h, hostMove]

/-- Everything `HostLoad` can do when it is allowed. -/
theorem hostLoad_next {S : List Byte} {s t : State} (h : hostLoad S s = .next t) :
    s.err = 0#8 ∧ S.length < 2 ^ 64 ∧
    t = { s with inMem := Memory.ofBytes S, inLen := BitVec.ofNat 64 S.length, inPos := 0#64, flags := noFlags } := by
  unfold hostLoad at h
  split at h
  · cases h
  · rename_i hc
    rw [not_or, not_not, not_le] at hc
    cases h
    exact ⟨hc.1, hc.2, rfl⟩

/-- Everything a step can be, when it ends in a next state: `u` is the state with the move taken. -/
theorem step_cases {s t : State} (h : step s = .next t) :
    (s.port = [] ∧ t = s) ∨
    ∃ rest, let u : State := { s with port := rest }
      (∃ w i, s.port = .present w :: rest ∧ decode w = .ok i ∧ exec i u = .next t) ∨
      (∃ w e, s.port = .present w :: rest ∧ decode w = .error e ∧ rejectWord w u = .next t) ∨
      (∃ S, s.port = .load S :: rest ∧ hostLoad S u = .next t) ∨
      (s.port = .reset :: rest ∧ t = hardwareReset u) := by
  cases hp : s.port with
  | nil =>
    rw [step_idle hp] at h
    cases h
    exact .inl ⟨rfl, rfl⟩
  | cons m rest =>
    refine .inr ⟨rest, ?_⟩
    cases m with
    | present w =>
      cases hd : decode w with
      | ok i =>
        rw [step_present hp hd] at h
        exact .inl ⟨w, i, rfl, hd, h⟩
      | error e =>
        rw [step_present_illegal hp hd] at h
        exact .inr (.inl ⟨w, e, rfl, hd, h⟩)
    | load S =>
      rw [step_load hp] at h
      exact .inr (.inr (.inl ⟨S, rfl, h⟩))
    | reset =>
      rw [step_reset hp] at h
      cases h
      exact .inr (.inr (.inr ⟨rfl, rfl⟩))

end Sys2Proof.Laws
end

