-- ==== Sys2Proof/Tests/Slice0.lean ====
section
/-! SUPPORT. Tests of single commands against the vectors of spec/95_test_vectors.md, the smoke tests of the
legality check, and for every statement with hypotheses a state and operands that meet them together. -/

namespace Sys2Proof.Tests

open Sys2Proof.Machine

set_option Elab.async false

/-! ## Helpers -/

/-- A step ends in a next state with a property. -/
def nextAnd (o : Out) (p : State → Bool) : Bool :=
  match o with
  | .next t => p t
  | .fault _ => false
  | .refused _ => false

/-- What `nextAnd` says. -/
theorem of_nextAnd {o : Out} {p : State → Bool} (h : nextAnd o p = true) : ∃ t, o = .next t ∧ p t = true := by
  cases o with
  | next t => exact ⟨t, rfl, h⟩
  | fault f => exact absurd h (by simp [nextAnd])
  | refused r => exact absurd h (by simp [nextAnd])

/-- Reset, then `HostLoad(S)`. -/
def loaded (S : List Byte) : State :=
  { State.reset with inMem := Memory.ofBytes S, inLen := BitVec.ofNat 64 S.length }

/-- The state of a block that has a fault recorded. -/
def faulted : State := { State.reset with err := 3#8 }

/-- Reset, with the host about to present a word. -/
def presenting (w : CommandWord) : State := { State.reset with port := [.present w] }

/-- `"aaab"`. -/
def aaab : List Byte := [0x61#8, 0x61#8, 0x61#8, 0x62#8]

/-- The counts of `"aaab"` (V10). -/
def aaabFreq : FreqTable := tset (tset zeroFreq 0x61#8 3#64) 0x62#8 1#64

/-- The tree of `"aaab"` (V18). -/
def aaabNodes : List Node := [.leaf 0x61#8 3#64, .leaf 0x62#8 1#64, .internal 4#64 1#9 0#9]

/-- The codes of `"aaab"` (V22). -/
def aaabCode : CodeTable := tset (tset emptyCode 0x61#8 (some [true])) 0x62#8 (some [false])

/-- Loaded with `"aaab"`, counted (P1, step 2). -/
def counted : State :=
  { loaded aaab with inPos := 4#64, freq := aaabFreq, flags := { noFlags with freqValid := true } }

/-- The tree of `"aaab"` built (P1, step 3). -/
def built : State :=
  { counted with
    nodes := aaabNodes, root := 2#9,
    flags := { noFlags with freqValid := true, treeValid := true, rootValid := true } }

/-- The codes of `"aaab"` generated, the input rewound (P1, step 5). -/
def coded : State :=
  { counted with
    inPos := 0#64, code := aaabCode, ctCnt := 2#9, root := 2#9,
    flags := { noFlags with freqValid := true, ctValid := true } }

/-- `"1110\nM\na:1\nb:0\n"` (P1). -/
def aaabContainer : List Byte :=
  [0x31#8, 0x31#8, 0x31#8, 0x30#8, 0x0A#8] ++ marker ++
  [0x0A#8, 0x61#8, 0x3A#8, 0x31#8, 0x0A#8, 0x62#8, 0x3A#8, 0x30#8, 0x0A#8]

/-- `"0001\nM\na:0\nb:1\n"`, the container of the source (V1, P2). -/
def sourceContainer : List Byte :=
  [0x30#8, 0x30#8, 0x30#8, 0x31#8, 0x0A#8] ++ marker ++
  [0x0A#8, 0x61#8, 0x3A#8, 0x30#8, 0x0A#8, 0x62#8, 0x3A#8, 0x31#8, 0x0A#8]

/-- Reset with the table `RLT = [("10",'a'), ("0",'b')]`, `MAXLEN = 2` (V26). -/
def matching : State :=
  { State.reset with
    rlt := [⟨[true, false], 0x61#8⟩, ⟨[false], 0x62#8⟩], maxLen := 2#8,
    flags := { noFlags with rltValid := true } }

/-- The source's container parsed (P2): `RLT = [("0",'a'), ("1",'b')]`. -/
def parsed : State :=
  { loaded sourceContainer with
    rlt := [⟨[false], 0x61#8⟩, ⟨[true], 0x62#8⟩], maxLen := 1#8, secEnd := 4#64,
    flags := { noFlags with rltValid := true } }

/-- A queue of 256 equal entries. -/
def fullQueue : State := { State.reset with heap := List.replicate 256 ⟨0#64, 0#9⟩ }

/-! ## Legality and decoding (spec/30_encoding.md R63; V31) -/

theorem test_undefined_opcodes_illegal :
    legal 0x000000000000000000000000#96 = false ∧ legal 0x030000000000000000000000#96 = false ∧
    legal 0xFF0000000000000000000000#96 = false := by decide
theorem test_reserved_bits_illegal : legal 0x010100000000000000000000#96 = false := by decide
theorem test_operand_a_must_be_zero :
    legal 0x200000000000000000000001#96 = false ∧ legal 0x320000300000000000000001#96 = false ∧
    legal 0x210000000000000000000001#96 = false := by decide
theorem test_operand_b_must_be_zero :
    legal 0x2F0000010000000000000000#96 = false ∧ legal 0x100002000000000000000005#96 = false ∧
    legal 0x320001300000000000000000#96 = false := by decide
theorem test_free_bits_legal :
    legal 0x100001FFFFFFFFFFFFFFFFFF#96 = true ∧ legal 0x320000FF0000000000000000#96 = true := by decide

/-- Each check of the decoder refuses by name. -/
theorem test_decoder_refuses :
    decode 0x000000000000000000000000#96 = .error .undefinedOpcode ∧
    decode 0x010100000000000000000000#96 = .error .reservedNonzero ∧
    decode 0x2F0000010000000000000000#96 = .error .operandBNonzero ∧
    decode 0x100002000000000000000005#96 = .error .operandBNonzero ∧
    decode 0x320001300000000000000000#96 = .error .operandBNonzero ∧
    decode 0x200000000000000000000001#96 = .error .operandANonzero := by decide

/-- No word is admitted by two rows: any two rows fix some common bit to different values. -/
theorem test_rows_do_not_overlap :
    opcodeTable.Pairwise fun x y => x.mask &&& y.mask &&& (x.fixed ^^^ y.fixed) ≠ 0#96 := by decide +kernel

/-- The assembler lines of R65. -/
theorem test_asm :
    (Instr.pqInsert 3#64 1#9).asm = "PQ_INSERT 3, 1" ∧ (Instr.vmPush 0x31#8).asm = "VM_PUSH 49" ∧
    Instr.inRewind.asm = "IN_REWIND" := by decide +kernel

/-- The table's bit numbers are those of the word. -/
theorem test_table_word : decodeTableWord 96 0x100000010000000000000003 = some (.pqInsert 3#64 1#9) := by decide

/-! ## Dispatch, CLR, the host (V31, P3) -/

theorem test_illegal_word_raises :
    nextAnd (step (presenting 0x010100000000000000000000#96)) (fun t =>
      t.err == 8#8 && t.errInfo == 1#64) = true := by decide +kernel

/-- Illegality is tested before the phase (V31). -/
theorem test_illegal_before_phase :
    nextAnd (step (presenting 0x210000000000000000000001#96)) (fun t => t.err == 8#8 && t.errInfo == 0x21#64) = true ∧
    nextAnd (step (presenting 0x210000000000000000000000#96)) (fun t => t.err == 7#8 && t.errInfo == 0x21#64) = true := by
  decide +kernel

/-- A word that is almost `CLR` is discarded while a fault is recorded (V31). -/
theorem test_almost_clr_discarded :
    nextAnd (step { faulted with port := [.present 0x010000000000000000000001#96] }) (fun t =>
      t.err == 3#8 && t.port == []) = true := by decide +kernel

theorem test_clr :
    nextAnd (exec .clr { faulted with heap := [⟨9#64, 7#9⟩], inLen := 0#64, errInfo := 5#64 }) (fun t =>
      t.err == 0#8 && t.errInfo == 0#64 && t.status == 0#32 && t.heap == []) = true := by decide +kernel

/-- V30: `IN_LEN` is unchanged by `CLR`. -/
theorem test_clr_keeps_input :
    nextAnd (exec .clr counted) (fun t => t.inLen == 4#64 && t.inMem == counted.inMem && t.inPos == 0#64) = true := by
  decide +kernel

/-- V31: `HostLoad` clears the flags and keeps `OUT_LEN`. -/
theorem test_host_load :
    nextAnd (hostLoad [0x63#8, 0x64#8] { coded with out := ⟨[(0, 0x30#8)], 1#64⟩ }) (fun t =>
      t.status == 0#32 && t.inPos == 0#64 && t.out.len == 1#64 && t.inLen == 2#64) = true := by decide +kernel

/-! ## Frequency counter (V10, V11) -/

theorem test_in_rewind : nextAnd (exec .inRewind counted) (fun t =>
      t.inPos == 0#64 && t.inLen == 4#64 && t.status == 4#32 && tget t.freq 0x61#8 == 3#64) = true := by decide +kernel
theorem test_freq_count :
    nextAnd (exec .freqCount (loaded aaab)) (fun t =>
      t.freq.toList == aaabFreq.toList && t.inPos == 4#64 && t.status == 4#32) = true := by decide +kernel
theorem test_freq_count_twice :
    nextAnd (exec .freqCount counted) (fun t =>
      t.freq.toList == zeroFreq.toList && t.inPos == 4#64 && t.status == 4#32) = true := by decide +kernel

/-! ## Priority queue (V12 to V16) -/

/-- The fourth insert of V12 rises to the root; the fifth does not rise past an equal key. -/
theorem test_pq_insert :
    nextAnd (exec (.pqInsert 1#64 3#9) { State.reset with heap := [⟨3#64, 1#9⟩, ⟨5#64, 0#9⟩, ⟨8#64, 2#9⟩] }) (fun t =>
      t.heap == [⟨1#64, 3#9⟩, ⟨3#64, 1#9⟩, ⟨8#64, 2#9⟩, ⟨5#64, 0#9⟩]) = true ∧
    nextAnd (exec (.pqInsert 3#64 4#9)
        { State.reset with heap := [⟨1#64, 3#9⟩, ⟨3#64, 1#9⟩, ⟨8#64, 2#9⟩, ⟨5#64, 0#9⟩] }) (fun t =>
      t.heap == [⟨1#64, 3#9⟩, ⟨3#64, 1#9⟩, ⟨8#64, 2#9⟩, ⟨5#64, 0#9⟩, ⟨3#64, 4#9⟩]) = true := by decide +kernel

/-- Keys are compared unsigned over all 64 bits (V14). -/
theorem test_pq_insert_unsigned :
    nextAnd (exec (.pqInsert 0#64 2#9) { State.reset with heap := [⟨0xFFFFFFFFFFFFFFFF#64, 1#9⟩] }) (fun t =>
      t.heap == [⟨0#64, 2#9⟩, ⟨0xFFFFFFFFFFFFFFFF#64, 1#9⟩]) = true := by decide +kernel

theorem test_pq_extract_min :
    nextAnd (exec .pqExtractMin { State.reset with heap :=
        [⟨1#64, 3#9⟩, ⟨3#64, 1#9⟩, ⟨8#64, 2#9⟩, ⟨5#64, 0#9⟩, ⟨3#64, 4#9⟩] }) (fun t =>
      t.heap == [⟨3#64, 4#9⟩, ⟨3#64, 1#9⟩, ⟨8#64, 2#9⟩, ⟨5#64, 0#9⟩] && t.resA == 1#64 && t.resB == 3#16) = true := by
  decide +kernel

/-- V16: the left child is preferred on equal children, the right one taken when strictly smaller. -/
theorem test_pq_extract_min_children :
    nextAnd (exec .pqExtractMin { State.reset with heap :=
        [⟨1#64, 0#9⟩, ⟨2#64, 1#9⟩, ⟨2#64, 2#9⟩, ⟨5#64, 3#9⟩] }) (fun t =>
      t.heap == [⟨2#64, 1#9⟩, ⟨5#64, 3#9⟩, ⟨2#64, 2#9⟩]) = true ∧
    nextAnd (exec .pqExtractMin { State.reset with heap :=
        [⟨1#64, 0#9⟩, ⟨4#64, 1#9⟩, ⟨2#64, 2#9⟩, ⟨5#64, 3#9⟩, ⟨6#64, 4#9⟩, ⟨3#64, 5#9⟩] }) (fun t =>
      t.heap == [⟨2#64, 2#9⟩, ⟨4#64, 1#9⟩, ⟨3#64, 5#9⟩, ⟨5#64, 3#9⟩, ⟨6#64, 4#9⟩]) = true := by decide +kernel

/-- R107, V13: among equal keys the order of insertion is not kept (nodes 0, 2, 1). -/
theorem test_queue_is_not_stable :
    (drain 3 [⟨1#64, 0#9⟩, ⟨1#64, 1#9⟩, ⟨1#64, 2#9⟩]).map HeapEntry.node = [0#9, 2#9, 1#9] := by decide +kernel

theorem test_pq_peek :
    nextAnd (exec .pqPeek { State.reset with heap := [⟨0xFFFFFFFFFFFFFFFF#64, 511#9⟩] }) (fun t =>
      t.resA == 0xFFFFFFFFFFFFFFFF#64 && t.resB == 0x1FF#16) = true := by decide +kernel
theorem test_pq_peek_empty :
    nextAnd (exec .pqPeek State.reset) (fun t => t.err == 3#8 && t.errInfo == 0#64) = true := by decide +kernel

/-! ## Tree builder, code table (V18 to V22) -/

theorem test_tree_build :
    nextAnd (exec .treeBuild counted) (fun t =>
      t.nodes == aaabNodes && t.root == 2#9 && t.heap == [] && t.status == 0x1C#32) = true := by decide +kernel

/-- V21: with ties everywhere, `"abc"` merges `a` with `c`. -/
theorem test_tree_build_ties :
    nextAnd (exec .treeBuild { counted with
        freq := tset (tset (tset zeroFreq 0x61#8 1#64) 0x62#8 1#64) 0x63#8 1#64 }) (fun t =>
      t.nodes == [.leaf 0x61#8 1#64, .leaf 0x62#8 1#64, .leaf 0x63#8 1#64, .internal 2#64 0#9 2#9,
        .internal 3#64 1#9 3#9] && t.root == 4#9 && t.status == 0x1C#32) = true := by decide +kernel

theorem test_code_gen :
    nextAnd (exec .codeGen built) (fun t =>
      t.code.toList == aaabCode.toList && t.ctCnt == 2#9 && t.nodes == [] && t.root == 2#9 && t.status == 0x24#32) = true := by
  decide +kernel

/-- V19: a single leaf gets the code `"0"`. -/
theorem test_code_gen_single :
    nextAnd (exec .codeGen { built with nodes := [.leaf 0x7A#8 4#64], root := 0#9 }) (fun t =>
      t.code.toList == (tset emptyCode 0x7A#8 (some [false])).toList && t.ctCnt == 1#9) = true := by decide +kernel

/-! ## Encoder (V23, V24) -/

theorem test_emit :
    nextAnd (exec .emit coded) (fun t =>
      hostReadOut t == aaabContainer && t.out.len == 36#64 && t.inPos == 4#64 && t.status == 0x24#32) = true := by
  decide +kernel

/-- V24: a byte with no code. -/
theorem test_emit_no_code :
    nextAnd (exec .emit { coded with code := emptyCode }) (fun t =>
      t.err == 7#8 && t.errInfo == 0x23#64 && t.out.len == 0#64) = true := by decide +kernel

theorem test_encode :
    nextAnd (exec .encode (loaded aaab)) (fun t =>
      hostReadOut t == aaabContainer && t.out.len == 36#64 && t.inPos == 4#64 && t.status == 0x24#32 &&
      t.ctCnt == 2#9 && t.heap == [] && t.nodes == []) = true := by decide +kernel

/-- V19: the empty input gives `"\nM\n"`. -/
theorem test_encode_empty :
    nextAnd (exec .encode (loaded [])) (fun t =>
      hostReadOut t == [0x0A#8] ++ marker ++ [0x0A#8] && t.err == 0#8 && t.ctCnt == 0#9) = true := by decide +kernel

/-! ## Matcher (V26) -/

theorem test_vm_push_match :
    nextAnd (exec (.vmPush 0x30#8) { matching with cand := [true] }) (fun t =>
      t.resB == 0x0161#16 && t.cand == [] && hostReadOut t == [0x61#8] && t.inPos == 0#64) = true := by decide +kernel

/-- V26: a candidate of length `MAXLEN` does not fault, one more bit does. -/
theorem test_vm_push_too_long :
    nextAnd (exec (.vmPush 0x31#8) { matching with cand := [true] }) (fun t =>
      t.cand == [true, true] && t.err == 0#8) = true ∧
    nextAnd (exec (.vmPush 0x31#8) { matching with cand := [true, true] }) (fun t =>
      t.err == 5#8 && t.errInfo == 0#64) = true := by decide +kernel

/-! ## Decoder (V27 to V29) -/

theorem test_dec_parse :
    nextAnd (exec .decParse (loaded sourceContainer)) (fun t =>
      t.rlt == parsed.rlt && t.maxLen == 1#8 && t.secEnd == 4#64 && t.inPos == 0#64 && t.cand == [] &&
      t.out.len == 0#64 && t.status == 0x40#32) = true := by decide +kernel

/-- V28: a byte that is no newline after the marker. -/
theorem test_dec_parse_fault :
    nextAnd (exec .decParse (loaded ([0x30#8, 0x0A#8] ++ marker ++ [0x61#8, 0x3A#8, 0x30#8, 0x0A#8]))) (fun t =>
      t.err == 6#8 && t.errInfo == 24#64) = true := by decide +kernel

theorem test_dec_scan :
    nextAnd (exec .decScan parsed) (fun t =>
      hostReadOut t == aaab && t.inPos == 4#64 && t.cand == [] && t.status == 0x40#32) = true := by decide +kernel

/-- V29: a proper beginning of a code is left over. -/
theorem test_dec_scan_leftover :
    nextAnd (exec .decScan { parsed with rlt := [⟨[false, false, false, true, true], 0x61#8⟩], maxLen := 5#8 }) (fun t =>
      t.err == 5#8 && t.errInfo == 4#64 && t.out.len == 0#64) = true := by decide +kernel

/-- V1, P2: the source's own container, which this block's encoder would not write. -/
theorem test_decode :
    nextAnd (exec .decode (loaded sourceContainer)) (fun t =>
      hostReadOut t == aaab && t.inPos == 4#64 && t.secEnd == 4#64 && t.maxLen == 1#8 && t.status == 0x40#32) = true := by
  decide +kernel

/-- P5: the marker stripped. -/
theorem test_decode_no_marker :
    nextAnd (exec .decode (loaded [0x30#8, 0x30#8, 0x30#8, 0x31#8, 0x0A#8, 0x61#8, 0x3A#8, 0x30#8, 0x0A#8, 0x62#8,
        0x3A#8, 0x31#8, 0x0A#8])) (fun t => t.err == 4#8 && t.errInfo == 13#64 && t.out.len == 0#64) = true := by
  decide +kernel

/-! ## Witnesses: for each statement with hypotheses, a state and operands that meet them -/

/-- A step that ends in a next state. -/
theorem next_of {o : Out} (h : nextAnd o (fun _ => true) = true) : ∃ t, o = .next t :=
  (of_nextAnd h).imp fun _ ht => ht.1

theorem witness_EncodeOfDecode : decode 0x100001FFFFFFFFFFFFFFFFFF#96 = .ok (.pqInsert 0xFFFFFFFFFFFFFFFF#64 511#9) := by
  decide

/-! ### Dispatch, faults and return -/

theorem witness_StepRunsDecodedCommand :
    ((presenting 0x110000000000000000000000#96).port = .present 0x110000000000000000000000#96 :: [] ∧
      decode 0x110000000000000000000000#96 = .ok .pqExtractMin) ∧
    decodeTableWord 96 0x320000FF0000000000000000 = some (.vmPush 0xFF#8) ∧ State.reset.port = [] := by decide

theorem witness_IllegalWordRaisesIllegalCommand :
    (presenting 0x010100000000000000000000#96).port = .present 0x010100000000000000000000#96 :: [] ∧
    (presenting 0x010100000000000000000000#96).err = 0#8 ∧ legal 0x010100000000000000000000#96 = false := by decide

theorem witness_FaultedBlockDiscardsEveryWordButClr :
    faulted.err ≠ 0#8 ∧ Instr.pqPeek ≠ .clr ∧
    ({ faulted with port := [.present 0x010000000000000000000001#96] } : State).port =
      .present 0x010000000000000000000001#96 :: [] ∧
    (0x010000000000000000000001#96 : CommandWord) ≠ 0x010000000000000000000000#96 ∧
    ({ faulted with port := [.present 0x010000000000000000000000#96] } : State).port =
      .present 0x010000000000000000000000#96 :: [] := by decide

theorem witness_ClearPhaseFlagRaisesSequenceError :
    State.reset.err = 0#8 ∧ State.reset.flags.freqValid = false ∧ State.reset.flags.treeValid = false ∧
    State.reset.flags.ctValid = false ∧ State.reset.flags.rltValid = false := by decide

theorem witness_FaultingCommandLeavesNoOutput :
    ∃ t, exec .pqPeek State.reset = .next t ∧ State.reset.err = 0#8 ∧ t.err ≠ 0#8 :=
  (of_nextAnd (p := fun t => t.err != 0#8) (by decide)).imp fun t ht => ⟨ht.1, rfl, by simpa using ht.2⟩

/-- Every kind a command raises, from the states of the tests above. -/
theorem witness_EachFaultComesOnlyFromItsCommands :
    nextAnd (exec .freqCount { loaded aaab with inFault := [3#64] }) (fun t => t.err == 1#8) = true ∧
    nextAnd (exec (.pqInsert 0#64 0#9) fullQueue) (fun t => t.err == 2#8) = true ∧
    nextAnd (exec .pqExtractMin State.reset) (fun t => t.err == 3#8) = true ∧
    nextAnd (exec .decParse State.reset) (fun t => t.err == 4#8) = true ∧
    nextAnd (exec (.vmPush 0x31#8) { matching with cand := [true, true] }) (fun t => t.err == 5#8) = true ∧
    nextAnd (exec .decParse (loaded (marker ++ [0x61#8]))) (fun t => t.err == 6#8) = true ∧
    nextAnd (exec .emit State.reset) (fun t => t.err == 7#8) = true := by decide +kernel

theorem witness_ClrAndResetClearTheState :
    ({ faulted with port := [.reset] } : State).port = .reset :: [] := rfl

theorem witness_HostLoadPlacesInput_accepted :
    ({ State.reset with port := [.load aaab] } : State).port = .load aaab :: [] ∧ aaab.length < 2 ^ 64 ∧
    ({ State.reset with port := [.load aaab] } : State).err = 0#8 := by decide

theorem witness_HostLoadPlacesInput_refused :
    ({ faulted with port := [.load []] } : State).port = .load [] :: [] ∧ ([] : List Byte).length < 2 ^ 64 ∧
    ({ faulted with port := [.load []] } : State).err ≠ 0#8 := by decide

theorem witness_CsrReadReturnsTheNumberedRegister :
    fullQueue.heap.length < 512 ∧ built.nodes.length < 512 ∧ parsed.rlt.length < 512 ∧
    matching.cand.length < 512 ∧ 15 < 16 := by decide +kernel

/-! ### Streams and counter -/

/-- At the boundary: the output becomes full. -/
theorem witness_OutAppendsWhereThereIsRoom :
    (OutStream.mk [(0, 0x30#8)] 1#64).len.toNat + [0x31#8, 0x32#8].length ≤ (3#64 : Word64).toNat := by decide

theorem witness_InRewindSetsCursorToZero : counted.err = 0#8 := rfl

/-- With no failing position every stretch is readable. -/
theorem readable_nil {s : State} {lo hi : Word64} (h : s.inFault = []) : Readable s lo hi := by
  intro a ha
  rw [h] at ha
  exact absurd ha (List.not_mem_nil)

theorem witness_FreqCountCountsRemainingBytes :
    (loaded aaab).err = 0#8 ∧ Loaded (loaded aaab) aaab ∧ (loaded aaab).inPos ≤ (loaded aaab).inLen ∧
    Readable (loaded aaab) (loaded aaab).inPos (loaded aaab).inLen :=
  ⟨by decide +kernel, by decide +kernel, by decide +kernel, readable_nil rfl⟩

/-- The cursor at the end: nothing is left to count. -/
theorem witness_FreqCountCountsRemainingBytes_at_end :
    counted.err = 0#8 ∧ Loaded counted aaab ∧ counted.inPos ≤ counted.inLen ∧
    Readable counted counted.inPos counted.inLen :=
  ⟨by decide +kernel, by decide +kernel, by decide +kernel, readable_nil rfl⟩

/-- With one failing position the stretch before it is readable. -/
theorem readable_before {s : State} {lo hi : Word64} (h : s.inFault = [hi]) : Readable s lo hi := by
  intro a ha
  rw [h, List.mem_singleton] at ha
  subst ha
  exact fun hl => BitVec.lt_irrefl _ hl.2

/-- The last byte of the input cannot be read: by `FREQ_COUNT`, `EMIT` (the output then exactly full) and
`ENCODE`. -/
theorem witness_StreamFailuresRaiseIoFailure_read :
    let s : State := { coded with inFault := [3#64], outCap := 3#64 }
    let before := (aaab.take (3#64 : Word64).toNat).drop s.inPos.toNat
    s.err = 0#8 ∧ Loaded s aaab ∧ 3#64 < s.inLen ∧ 3#64 ∈ s.inFault ∧ s.inPos ≤ 3#64 ∧ Readable s s.inPos 3#64 ∧
      s.flags.ctValid = true ∧ (∀ b ∈ before, (ctLookup s.code b).isSome = true) ∧
      (bitSection s.code before).length ≤ s.outCap.toNat ∧ Readable s 0#64 3#64 :=
  ⟨rfl, by decide +kernel, by decide, by decide, by decide, readable_before rfl, rfl, by decide +kernel,
    by decide +kernel, readable_before rfl⟩

/-- One byte too little room for `EMIT`'s container. -/
theorem witness_StreamFailuresRaiseIoFailure_emit_full :
    let s : State := { coded with outCap := 35#64 }
    s.err = 0#8 ∧ Loaded s aaab ∧ s.flags.ctValid = true ∧ s.inPos ≤ s.inLen ∧ Readable s s.inPos s.inLen ∧
      (∀ b ∈ aaab.drop s.inPos.toNat, (ctLookup s.code b).isSome = true) ∧
      s.outCap.toNat < (container s.code (aaab.drop s.inPos.toNat)).length :=
  ⟨rfl, by decide +kernel, rfl, by decide, readable_nil rfl, by decide +kernel, by decide +kernel⟩

/-- One byte too little room for `ENCODE`'s container. -/
theorem witness_StreamFailuresRaiseIoFailure_encode_full :
    ∃ t, (loaded aaab).err = 0#8 ∧ Loaded { loaded aaab with outCap := 35#64 } aaab ∧
      Readable { loaded aaab with outCap := 35#64 } 0#64 (loaded aaab).inLen ∧
      runParts [.inRewind, .freqCount, .inRewind, .treeBuild, .codeGen] { loaded aaab with outCap := 35#64 } = .next t ∧
      t.err = 0#8 ∧ (35#64 : Word64).toNat < (container t.code aaab).length := by
  obtain ⟨t, h, ht⟩ := of_nextAnd
    (o := runParts [.inRewind, .freqCount, .inRewind, .treeBuild, .codeGen] { loaded aaab with outCap := 35#64 })
    (p := fun t => t.err == 0#8 && decide ((35#64 : Word64).toNat < (container t.code aaab).length)) (by decide +kernel)
  rw [Bool.and_eq_true, decide_eq_true_eq, beq_iff_eq] at ht
  exact ⟨t, rfl, by decide +kernel, readable_nil rfl, h, ht.1, ht.2⟩

/-- `"10\nM\na:10\n"`: the newline that ends the last record, and a byte of the section, cannot be read. -/
theorem witness_StreamFailuresRaiseIoFailure_parse :
    ∀ a ∈ [30#64, 0#64],
      let sec : List Byte := [0x31#8, 0x30#8]
      let tail : Option (List RltEntry) := some [⟨[true, false], 0x61#8⟩]
      let s : State := { loaded (containerForm sec true tail) with inFault := [a] }
      s.err = 0#8 ∧ Loaded s (containerForm sec true tail) ∧ SectionMeant sec true (containerForm sec true tail) ∧
        RecordsOk (tail.getD []) ∧ a < s.inLen ∧ a ∈ s.inFault ∧ Readable s 0#64 a := by
  intro a ha
  simp only [List.mem_cons, List.not_mem_nil, or_false] at ha
  rcases ha with rfl | rfl <;>
    exact ⟨rfl, by decide +kernel, by decide +kernel, by decide +kernel, by decide +kernel, by decide,
      readable_before rfl⟩

/-- Room for one symbol where two are decoded. -/
theorem witness_StreamFailuresRaiseIoFailure_decode_full :
    let sec : List Byte := [0x31#8, 0x30#8, 0x30#8]
    let recs : List RltEntry := [⟨[true, false], 0x61#8⟩, ⟨[false], 0x62#8⟩]
    let S := containerForm sec true (some recs)
    let s : State := { loaded S with outCap := 1#64 }
    s.err = 0#8 ∧ Loaded s S ∧ Readable s 0#64 s.inLen ∧ SectionMeant sec true S ∧ RecordsOk recs ∧
      (∀ e ∈ recs, Matchable recs e) ∧ sectionBits sec = recs.flatMap RltEntry.code ∧
      s.outCap.toNat < recs.length :=
  ⟨rfl, by decide +kernel, readable_nil rfl, by decide +kernel, by decide +kernel, by decide +kernel,
    by decide +kernel, by decide +kernel⟩

/-- The source's container being scanned: its last section byte cannot be read. -/
theorem witness_StreamFailuresRaiseIoFailure_scan_read :
    let s : State := { parsed with inFault := [3#64], outCap := 3#64 }
    let syms : List RltEntry := List.replicate 3 ⟨[false], 0x61#8⟩
    s.err = 0#8 ∧ s.flags.rltValid = true ∧ Loaded s sourceContainer ∧ s.secEnd ≤ s.inLen ∧ ScanReady s ∧
      s.inPos ≤ 3#64 ∧ 3#64 < s.secEnd ∧ 3#64 ∈ s.inFault ∧ Readable s s.inPos 3#64 ∧
      ScanSplit s ((sourceContainer.take (3#64 : Word64).toNat).drop s.inPos.toNat) syms [] ∧
      ([] : Code).length ≤ s.maxLen.toNat :=
  ⟨rfl, rfl, by decide +kernel, by decide, by decide +kernel, by decide, by decide, by decide, readable_before rfl,
    by decide +kernel, by decide⟩

/-- The source's container being scanned with room for three symbols. -/
theorem witness_StreamFailuresRaiseIoFailure_scan_full :
    let s : State := { parsed with outCap := 3#64 }
    let syms : List RltEntry := List.replicate 3 ⟨[false], 0x61#8⟩ ++ [⟨[true], 0x62#8⟩]
    s.err = 0#8 ∧ s.flags.rltValid = true ∧ Loaded s sourceContainer ∧ s.secEnd ≤ s.inLen ∧ ScanReady s ∧
      s.inPos ≤ s.secEnd ∧ Readable s s.inPos s.secEnd ∧ (∀ e ∈ syms, Matchable s.rlt e) ∧
      s.cand ++ sectionBits (charsLeft s sourceContainer) =
        syms.flatMap RltEntry.code ∧
      s.out.len ≤ s.outCap ∧ s.outCap.toNat < s.out.len.toNat + syms.length :=
  ⟨rfl, rfl, by decide +kernel, by decide, by decide +kernel, by decide, readable_nil rfl, by decide +kernel,
    by decide +kernel, by decide, by decide⟩

/-- No room at all in the output. -/
theorem witness_StreamFailuresRaiseIoFailure_write :
    let s : State := { matching with cand := [true], outCap := 0#64 }
    s.err = 0#8 ∧ s.flags.rltValid = true ∧ (0x30#8 = if false then 0x31#8 else 0x30#8) ∧
      rltFind s.rlt (s.cand ++ [false]) = some 0x61#8 ∧ s.out.len = s.outCap := by decide

/-! ### Priority queue -/

/-- The last place of the queue. -/
theorem witness_PqInsertAddsEntryAndKeepsOrder :
    let s : State := { State.reset with heap := List.replicate 255 ⟨0#64, 0#9⟩ }
    s.err = 0#8 ∧ s.heap.length < 256 ∧ HeapOrdered s.heap := by
  refine ⟨rfl, by decide +kernel, ?_⟩
  have keys : ∀ i, keyAt (List.replicate 255 ⟨0#64, 0#9⟩) i = 0#64 := by
    intro i
    unfold keyAt
    rw [List.getElem?_replicate]
    split <;> rfl
  intro i _ _
  show keyAt (List.replicate 255 _) _ ≤ keyAt (List.replicate 255 _) _
  rw [keys, keys]
  decide

theorem witness_QueueBoundsFault : fullQueue.err = 0#8 ∧ fullQueue.heap.length = 256 ∧
    State.reset.err = 0#8 ∧ State.reset.heap = [] := ⟨rfl, by decide +kernel, rfl, rfl⟩

/-- A queue of three entries. -/
def queueOfThree : State := { State.reset with heap := [⟨3#64, 1#9⟩, ⟨5#64, 0#9⟩, ⟨8#64, 2#9⟩] }

theorem witness_PqExtractMinReturnsMinimum :
    queueOfThree.err = 0#8 ∧ queueOfThree.heap = ⟨3#64, 1#9⟩ :: [⟨5#64, 0#9⟩, ⟨8#64, 2#9⟩] ∧
    [⟨5#64, 0#9⟩, ⟨8#64, 2#9⟩] = [⟨5#64, 0#9⟩] ++ [(⟨8#64, 2#9⟩ : HeapEntry)] ∧
    HeapOrdered queueOfThree.heap := by decide

theorem witness_PqPeekReturnsRoot :
    queueOfThree.err = 0#8 ∧ queueOfThree.heap = ⟨3#64, 1#9⟩ :: [⟨5#64, 0#9⟩, ⟨8#64, 2#9⟩] := by decide

theorem witness_SuccessiveExtractionsAreSorted : HeapOrdered queueOfThree.heap := by decide

/-! ### Tree builder and code table -/

/-- With byte values present and with none. -/
theorem witness_TreeBuildShape : counted.err = 0#8 ∧ counted.flags.freqValid = true ∧
    ({ counted with freq := zeroFreq } : State).err = 0#8 ∧
    ({ counted with freq := zeroFreq } : State).flags.freqValid = true := ⟨rfl, rfl, rfl, rfl⟩

theorem witness_TreeBuildWeights :
    ∃ t, counted.err = 0#8 ∧ counted.flags.freqValid = true ∧ totalCount counted.freq < 2 ^ 64 ∧
      exec .treeBuild counted = .next t ∧ t.nodes[2]? = some (.internal 4#64 1#9 0#9) ∧
      t.flags.rootValid = true :=
  (of_nextAnd (o := exec .treeBuild counted)
    (p := fun t => t.nodes[2]? == some (.internal 4#64 1#9 0#9) && t.flags.rootValid) (by decide +kernel)).imp
    fun t ht => ⟨rfl, rfl, by decide +kernel, ht.1, by simpa using ht.2⟩

/-- `"abc"` (V21): when `a` and `c` are merged `b` stays in the queue. -/
theorem witness_TreeBuildWeights_others :
    let s : State := { counted with
      freq := tset (tset (tset zeroFreq 0x61#8 1#64) 0x62#8 1#64) 0x63#8 1#64 }
    ∃ t, s.err = 0#8 ∧ s.flags.freqValid = true ∧ totalCount s.freq < 2 ^ 64 ∧ exec .treeBuild s = .next t ∧
      t.nodes = [.leaf 0x61#8 1#64, .leaf 0x62#8 1#64, .leaf 0x63#8 1#64, .internal 2#64 0#9 2#9,
        .internal 3#64 1#9 3#9] ∧
      ∀ i f' l' r', i ≤ 3 → t.nodes[i]? = some (.internal f' l' r') → 1 ≠ l'.toNat ∧ 1 ≠ r'.toNat := by
  obtain ⟨t, h, hn⟩ := of_nextAnd (o := exec .treeBuild { counted with
      freq := tset (tset (tset zeroFreq 0x61#8 1#64) 0x62#8 1#64) 0x63#8 1#64 })
    (p := fun t => t.nodes == [.leaf 0x61#8 1#64, .leaf 0x62#8 1#64, .leaf 0x63#8 1#64, .internal 2#64 0#9 2#9,
        .internal 3#64 1#9 3#9]) (by decide +kernel)
  have hn' := eq_of_beq hn
  refine ⟨t, rfl, rfl, by decide +kernel, h, hn', fun i f' l' r' hi hx => ?_⟩
  rw [hn'] at hx
  match i, hx with
  | 0, hx => simp at hx
  | 1, hx => simp at hx
  | 2, hx => simp at hx
  | 3, hx =>
    simp only [List.getElem?_cons_succ, List.getElem?_cons_zero, Option.some.injEq, Node.internal.injEq] at hx
    obtain ⟨_, rfl, rfl⟩ := hx
    decide
  | n + 4, _ => omega

theorem witness_TreeBuildLeavesATree :
    ∃ t, counted.err = 0#8 ∧ counted.flags.freqValid = true ∧ presentBytes counted.freq ≠ [] ∧
      exec .treeBuild counted = .next t :=
  (next_of (by decide +kernel)).imp fun t ht => ⟨rfl, rfl, by decide +kernel, ht⟩

theorem built_treeOk : TreeOk built.nodes built.root := ⟨[(0x62#8, [false]), (0x61#8, [true])], by decide, by decide⟩

theorem witness_CodeGenRecordsPathsToLeaves :
    built.err = 0#8 ∧ built.flags.treeValid = true ∧ built.flags.rootValid = true ∧
    built.nodes[built.root.toNat]? = some (.internal 4#64 1#9 0#9) ∧ TreeOk built.nodes built.root :=
  ⟨rfl, rfl, rfl, rfl, built_treeOk⟩

theorem witness_CodeGenSingleLeafAndEmptyTree_leaf :
    let s : State := { built with nodes := [.leaf 0x7A#8 4#64], root := 0#9 }
    s.err = 0#8 ∧ s.flags.treeValid = true ∧ s.flags.rootValid = true ∧
      s.nodes[s.root.toNat]? = some (.leaf 0x7A#8 4#64) := by decide

theorem witness_CodeGenSingleLeafAndEmptyTree_empty :
    let s : State := { built with nodes := [], root := 0#9, flags := { built.flags with rootValid := false } }
    s.err = 0#8 ∧ s.flags.treeValid = true ∧ s.flags.rootValid = false := by decide

theorem witness_CodeGenLeavesAPrefixCode :
    ∃ t, built.err = 0#8 ∧ built.flags.treeValid = true ∧ exec .codeGen built = .next t ∧
      0x61#8 ≠ 0x62#8 ∧ ctLookup t.code 0x61#8 = some [true] ∧ ctLookup t.code 0x62#8 = some [false] :=
  (of_nextAnd (o := exec .codeGen built)
    (p := fun t => ctLookup t.code 0x61#8 == some [true] && ctLookup t.code 0x62#8 == some [false])
    (by decide +kernel)).imp fun t ht => ⟨rfl, rfl, ht.1, by decide, by simpa using ht.2⟩

theorem witness_CodeGenLengthsAndUniqueness :
    ∃ t, built.err = 0#8 ∧ built.flags.treeValid = true ∧ exec .codeGen built = .next t ∧
      ctLookup t.code 0x61#8 = some [true] :=
  (of_nextAnd (o := exec .codeGen built) (p := fun t => ctLookup t.code 0x61#8 == some [true])
    (by decide +kernel)).imp fun t ht => ⟨rfl, rfl, ht.1, by simpa using ht.2⟩

theorem witness_CodeTableIsWrittenOnce :
    (∃ t, exec .treeBuild counted = .next t ∧ t.err = 0#8) ∧ Instr.treeBuild ≠ .codeGen ∧
    Instr.treeBuild ≠ .encode ∧ Instr.treeBuild ≠ .clr ∧ (∃ t, hostLoad aaab coded = .next t) :=
  ⟨(of_nextAnd (p := fun t => t.err == 0#8) (by decide +kernel)).imp fun t ht => ⟨ht.1, by simpa using ht.2⟩,
    by decide, by decide, by decide, next_of (by decide)⟩

/-! ### Encoder -/

/-- The capacity is exactly the container's length. -/
theorem witness_EmitWritesTheContainer :
    let s : State := { coded with outCap := 36#64 }
    s.err = 0#8 ∧ s.flags.ctValid = true ∧ Loaded s aaab ∧ s.inPos ≤ s.inLen ∧ Readable s s.inPos s.inLen ∧
      (∀ b ∈ aaab.drop s.inPos.toNat, (ctLookup s.code b).isSome = true) ∧
      (container s.code (aaab.drop s.inPos.toNat)).length ≤ s.outCap.toNat :=
  ⟨by decide +kernel, by decide +kernel, by decide +kernel, by decide +kernel, readable_nil rfl, by decide +kernel, by decide +kernel⟩

/-- The second kind of byte has no code, met when the output is already full. -/
theorem witness_EmitFaultsOnByteWithoutCode :
    let s : State := { coded with code := tset emptyCode 0x61#8 (some [true]), outCap := 3#64 }
    s.err = 0#8 ∧ s.flags.ctValid = true ∧ Loaded s aaab ∧ s.inPos ≤ s.inLen ∧ Readable s s.inPos s.inLen ∧
      aaab.drop s.inPos.toNat = [0x61#8, 0x61#8, 0x61#8] ++ 0x62#8 :: [] ∧
      (∀ x ∈ [0x61#8, 0x61#8, 0x61#8], (ctLookup s.code x).isSome = true) ∧ ctLookup s.code 0x62#8 = none ∧
      (bitSection s.code [0x61#8, 0x61#8, 0x61#8]).length ≤ s.outCap.toNat :=
  ⟨by decide +kernel, by decide +kernel, by decide +kernel, by decide +kernel, readable_nil rfl, by decide +kernel, by decide +kernel, by decide +kernel, by decide +kernel⟩

/-- `ENCODE`'s parts complete, and end in a fault of the first and of the last that can fail. -/
theorem witness_CompositesAreTheSequenceOfTheirParts_encode :
    let parts : List Instr := [.inRewind, .freqCount, .inRewind, .treeBuild, .codeGen, .emit]
    (∃ t, (loaded aaab).err = 0#8 ∧ runParts parts (loaded aaab) = .next t ∧ t.err = 0#8) ∧
    (∃ t, runParts parts { loaded aaab with inFault := [3#64] } = .next t ∧ t.err ≠ 0#8) ∧
    (∃ t, runParts parts { loaded aaab with outCap := 35#64 } = .next t ∧ t.err ≠ 0#8) :=
  ⟨(of_nextAnd (p := fun t => t.err == 0#8) (by decide +kernel)).imp fun t ht => ⟨rfl, ht.1, by simpa using ht.2⟩,
   (of_nextAnd (p := fun t => t.err != 0#8) (by decide +kernel)).imp fun t ht => ⟨ht.1, by simpa using ht.2⟩,
   (of_nextAnd (p := fun t => t.err != 0#8) (by decide +kernel)).imp fun t ht => ⟨ht.1, by simpa using ht.2⟩⟩

/-- `DECODE`'s parts complete, and end in a fault of the first and of the second. -/
theorem witness_CompositesAreTheSequenceOfTheirParts_decode :
    let parts : List Instr := [.decParse, .decScan]
    (∃ t, (loaded sourceContainer).err = 0#8 ∧ runParts parts (loaded sourceContainer) = .next t ∧ t.err = 0#8) ∧
    (∃ t, runParts parts (loaded aaab) = .next t ∧ t.err ≠ 0#8) ∧
    (∃ t, runParts parts { loaded sourceContainer with outCap := 3#64 } = .next t ∧ t.err ≠ 0#8) :=
  ⟨(of_nextAnd (p := fun t => t.err == 0#8) (by decide +kernel)).imp fun t ht => ⟨rfl, ht.1, by simpa using ht.2⟩,
   (of_nextAnd (p := fun t => t.err != 0#8) (by decide +kernel)).imp fun t ht => ⟨ht.1, by simpa using ht.2⟩,
   (of_nextAnd (p := fun t => t.err != 0#8) (by decide +kernel)).imp fun t ht => ⟨ht.1, by simpa using ht.2⟩⟩

/-- The capacity is exactly the room the statement asks for. -/
theorem witness_EncodeWritesTheContainerOfItsInput :
    let s : State := { loaded aaab with outCap := 67092#64 }
    s.err = 0#8 ∧ Loaded s aaab ∧ Readable s 0#64 s.inLen ∧
      255 * aaab.length + 24 + 256 * 258 ≤ s.outCap.toNat :=
  ⟨by decide +kernel, by decide +kernel, readable_nil rfl, by decide +kernel⟩

theorem witness_TreeAndContainerDependOnTheInputOnly_tree :
    ∃ t₁ t₂ : State, counted.err = 0#8 ∧ (loaded []).err = 0#8 ∧ counted.flags.freqValid = true ∧
      ({ counted with heap := [⟨9#64, 7#9⟩] } : State).flags.freqValid = true ∧
      counted.freq = ({ counted with heap := [⟨9#64, 7#9⟩] } : State).freq ∧
      exec .treeBuild counted = .next t₁ ∧ exec .treeBuild { counted with heap := [⟨9#64, 7#9⟩] } = .next t₂ := by
  obtain ⟨t₁, h₁⟩ := next_of (o := exec .treeBuild counted) (by decide +kernel)
  obtain ⟨t₂, h₂⟩ := next_of (o := exec .treeBuild { counted with heap := [⟨9#64, 7#9⟩] }) (by decide +kernel)
  exact ⟨t₁, t₂, rfl, rfl, rfl, rfl, rfl, h₁, h₂⟩

theorem witness_TreeAndContainerDependOnTheInputOnly_container :
    ∃ t₁ t₂ : State, counted.err = 0#8 ∧ (loaded aaab).err = 0#8 ∧ counted.inMem = (loaded aaab).inMem ∧
      counted.inLen = (loaded aaab).inLen ∧ counted.inFault = (loaded aaab).inFault ∧
      counted.outCap = (loaded aaab).outCap ∧ exec .encode counted = .next t₁ ∧
      exec .encode (loaded aaab) = .next t₂ := by
  obtain ⟨t₁, h₁⟩ := next_of (o := exec .encode counted) (by decide +kernel)
  obtain ⟨t₂, h₂⟩ := next_of (o := exec .encode (loaded aaab)) (by decide +kernel)
  exact ⟨t₁, t₂, rfl, rfl, rfl, rfl, rfl, rfl, h₁, h₂⟩

/-! ### Matcher -/

theorem witness_RltFindIsExactMatch : (matching.rlt.map RltEntry.code).Nodup := by decide

theorem witness_VmPushSkipsNonBits :
    matching.err = 0#8 ∧ matching.flags.rltValid = true ∧ 0x0A#8 ≠ 0x30#8 ∧ 0x0A#8 ≠ 0x31#8 := by decide

/-- The last free byte of the output. -/
theorem witness_VmPushEmitsOnMatch :
    let s : State := { matching with cand := [true], outCap := 1#64 }
    s.err = 0#8 ∧ s.flags.rltValid = true ∧ (0x30#8 = if false then 0x31#8 else 0x30#8) ∧
      rltFind s.rlt (s.cand ++ [false]) = some 0x61#8 ∧ s.out.len < s.outCap ∧ RltKeys s.rlt ∧
      ∀ e ∈ s.rlt, ¬ e.code <+: s.cand := by decide

/-- The candidate reaches `MAXLEN`. -/
theorem witness_VmPushGrowsOrFaultsWithoutMatch_grows :
    let s : State := { matching with cand := [true] }
    s.err = 0#8 ∧ s.flags.rltValid = true ∧ (0x31#8 = if true then 0x31#8 else 0x30#8) ∧
      rltFind s.rlt (s.cand ++ [true]) = none ∧ s.cand.length + 1 ≤ s.maxLen.toNat ∧
      ∀ e ∈ s.rlt, ¬ e.code <+: s.cand := by decide

/-- The candidate passes `MAXLEN`. -/
theorem witness_VmPushGrowsOrFaultsWithoutMatch_faults :
    let s : State := { matching with cand := [true, true] }
    s.err = 0#8 ∧ s.flags.rltValid = true ∧ (0x31#8 = if true then 0x31#8 else 0x30#8) ∧
      rltFind s.rlt (s.cand ++ [true]) = none ∧ ¬ s.cand.length + 1 ≤ s.maxLen.toNat := by decide

/-! ### Decoder -/

theorem witness_FindMarkerIsTheFirstOccurrence :
    Loaded (loaded marker) marker ∧ Readable (loaded marker) 0#64 (loaded marker).inLen :=
  ⟨by decide +kernel, readable_nil rfl⟩

/-- A marker one byte short (V28). -/
theorem witness_MissingMarkerOrNewlineFaults_marker :
    let S := marker.dropLast
    (loaded S).err = 0#8 ∧ Loaded (loaded S) S ∧ Readable (loaded S) 0#64 (loaded S).inLen ∧
      ∀ m, ¬ MarkerAt S m := by
  refine ⟨rfl, by decide +kernel, readable_nil rfl, ?_⟩
  intro m h
  have := congrArg List.length h
  simp [marker] at this
  omega

theorem witness_MissingMarkerOrNewlineFaults_newline :
    let S := [0x30#8, 0x0A#8] ++ marker ++ 0x61#8 :: []
    (loaded S).err = 0#8 ∧ Loaded (loaded S) S ∧ Readable (loaded S) 0#64 (loaded S).inLen ∧
      FirstMarker S [0x30#8, 0x0A#8].length ∧ 0x61#8 ≠ 0x0A#8 :=
  ⟨by decide +kernel, by decide +kernel, readable_nil rfl, by decide +kernel, by decide +kernel⟩

/-- What every clause about a record that is not in order asks of the input. -/
abbrev BadRecord (S before : List Byte) (recs : List RltEntry) : Prop :=
  (loaded S).err = 0#8 ∧ Loaded (loaded S) S ∧ FirstMarker S before.length ∧ RecordsOk recs

/-- One record in order, `a:0`. -/
def oneRecord : List RltEntry := [⟨[false], 0x61#8⟩]

/-- The bytes up to a second record. -/
def upToSecond : List Byte := [] ++ marker ++ tailBytes (some oneRecord)

/-- No colon: another byte, and the end of the data. -/
theorem witness_MissingMarkerOrNewlineFaults_colon :
    ∀ rest ∈ [[0x30#8, 0x3A#8], []],
      BadRecord (upToSecond ++ 0x62#8 :: rest) [] oneRecord ∧ rest.head? ≠ some 0x3A#8 := by decide +kernel

/-- A code that no newline ends: another character, and the end of the data. -/
theorem witness_MissingMarkerOrNewlineFaults_code :
    ∀ rest ∈ [[0x0D#8, 0x0A#8], []],
      BadRecord (upToSecond ++ [0x62#8, 0x3A#8] ++ bitChars [true] ++ rest) [] oneRecord ∧ [true].length ≤ 255 ∧
      rest.head? ≠ some 0x0A#8 ∧ rest.head? ≠ some 0x30#8 ∧ rest.head? ≠ some 0x31#8 := by decide +kernel

/-- A 256th code bit. -/
theorem witness_MissingMarkerOrNewlineFaults_long :
    BadRecord (upToSecond ++ [0x62#8, 0x3A#8] ++ bitChars (List.replicate 255 true) ++ [0x31#8, 0x0A#8]) [] oneRecord ∧
    (List.replicate 255 true).length = 255 ∧ [0x31#8, 0x0A#8].head? = some 0x31#8 := by decide +kernel

/-- An empty code and a code that is there already. -/
theorem witness_MissingMarkerOrNewlineFaults_key :
    ∀ c ∈ [[], [false]],
      BadRecord (upToSecond ++ [0x62#8, 0x3A#8] ++ bitChars c ++ [0x0A#8]) [] oneRecord ∧ c.length ≤ 255 ∧
      (c = [] ∨ c ∈ oneRecord.map RltEntry.code) := by decide +kernel

/-- A table of 256 records, the codes all bit-strings of 8 bits. -/
def allRecords : List RltEntry :=
  byteValues.map fun b => ⟨(List.range 8).map b.getLsbD, b⟩

theorem recordsOk_allRecords : RecordsOk allRecords := by
  have hinj : ∀ x y : Byte, (List.range 8).map x.getLsbD = (List.range 8).map y.getLsbD → x = y := by
    intro x y h
    apply BitVec.eq_of_getLsbD_eq
    intro i hi
    exact List.map_inj_left.1 h i (List.mem_range.2 hi)
  refine ⟨by simp [allRecords, Sys2Proof.Laws.length_byteValues], ?_, ?_⟩
  · rw [allRecords, List.map_map, List.nodup_map_iff_inj_on Sys2Proof.Laws.nodup_byteValues]
    exact fun x _ y _ h => hinj x y h
  · intro e he
    obtain ⟨b, _, rfl⟩ := List.mem_map.1 he
    simp

/-- A 257th record, with a code that is new. -/
theorem witness_MissingMarkerOrNewlineFaults_full :
    BadRecord ([] ++ marker ++ tailBytes (some allRecords) ++ [0x62#8, 0x3A#8] ++ bitChars [true] ++ [0x0A#8]) []
      allRecords ∧ allRecords.length = 256 :=
  ⟨⟨rfl, by decide +kernel, by decide +kernel, recordsOk_allRecords⟩, by decide +kernel⟩

/-- `"10\nM\na:10\n"` (V27): the fields of its grammar. -/
theorem witness_DecParseReadsEveryContainer :
    let sec : List Byte := [0x31#8, 0x30#8]
    let tail : Option (List RltEntry) := some [⟨[true, false], 0x61#8⟩]
    let S := containerForm sec true tail
    (loaded S).err = 0#8 ∧ Loaded (loaded S) S ∧ Readable (loaded S) 0#64 (loaded S).inLen ∧
      SectionMeant sec true S ∧ RecordsOk (tail.getD []) :=
  ⟨by decide +kernel, by decide +kernel, readable_nil rfl, by decide +kernel, by decide +kernel⟩

/-- The marker alone (V27): no newline on either side, no record. -/
theorem witness_DecParseReadsEveryContainer_bare :
    let S := containerForm [] false none
    (loaded S).err = 0#8 ∧ Loaded (loaded S) S ∧ Readable (loaded S) 0#64 (loaded S).inLen ∧
      SectionMeant [] false S ∧ RecordsOk ((none : Option (List RltEntry)).getD []) :=
  ⟨by decide +kernel, by decide +kernel, readable_nil rfl, by decide +kernel, by decide +kernel⟩

theorem witness_DecParseAcceptsOnlyContainers :
    ∃ t, (loaded sourceContainer).err = 0#8 ∧ Loaded (loaded sourceContainer) sourceContainer ∧
      exec .decParse (loaded sourceContainer) = .next t ∧ t.err = 0#8 :=
  (of_nextAnd (p := fun t => t.err == 0#8) (by decide +kernel)).imp fun t ht =>
    ⟨rfl, by decide, ht.1, by simpa using ht.2⟩

/-- The section of the source's container, the output exactly large enough. -/
theorem witness_DecScanDecodesConcatenatedCodes :
    let s : State := { parsed with outCap := 4#64 }
    let syms : List RltEntry := [⟨[false], 0x61#8⟩, ⟨[false], 0x61#8⟩, ⟨[false], 0x61#8⟩, ⟨[true], 0x62#8⟩]
    s.err = 0#8 ∧ s.flags.rltValid = true ∧ Loaded s sourceContainer ∧ s.inPos ≤ s.secEnd ∧
      s.secEnd ≤ s.inLen ∧ Readable s s.inPos s.secEnd ∧ ScanReady s ∧ (∀ e ∈ syms, Matchable s.rlt e) ∧
      s.cand ++ sectionBits (charsLeft s sourceContainer) =
        syms.flatMap RltEntry.code ∧
      s.out.len.toNat + syms.length ≤ s.outCap.toNat :=
  ⟨by decide +kernel, by decide +kernel, by decide +kernel, by decide +kernel, by decide +kernel, readable_nil rfl, by decide +kernel, by decide +kernel, by decide +kernel, by decide +kernel⟩

/-- The source's container scanned by a table in which `"0"` is a prefix of `"00"` and of `"01"`. -/
def shadowed : State :=
  { parsed with
    rlt := [⟨[false, false], 0x63#8⟩, ⟨[false], 0x61#8⟩, ⟨[false, true], 0x62#8⟩, ⟨[true], 0x64#8⟩], maxLen := 2#8 }

/-- The shorter keys spell the section (V32). -/
theorem witness_DecScanDecodesConcatenatedCodes_shadowed :
    let syms : List RltEntry := [⟨[false], 0x61#8⟩, ⟨[false], 0x61#8⟩, ⟨[false], 0x61#8⟩, ⟨[true], 0x64#8⟩]
    ScanReady shadowed ∧ (∀ e ∈ syms, Matchable shadowed.rlt e) ∧
      shadowed.cand ++ sectionBits (charsLeft shadowed sourceContainer) = syms.flatMap RltEntry.code ∧
      shadowed.out.len.toNat + syms.length ≤ shadowed.outCap.toNat :=
  ⟨by decide +kernel, by decide +kernel, by decide +kernel, by decide +kernel⟩

/-- The pushed characters of the section match, over the same table. -/
theorem witness_DecScanDecodesConcatenatedCodes_pushed :
    ∃ t, shadowed.err = 0#8 ∧ shadowed.flags.rltValid = true ∧ Loaded shadowed sourceContainer ∧
      shadowed.inPos ≤ shadowed.secEnd ∧ shadowed.secEnd ≤ shadowed.inLen ∧
      Readable shadowed shadowed.inPos shadowed.secEnd ∧
      runParts ((charsLeft shadowed sourceContainer).map .vmPush) shadowed = .next t ∧ t.err = 0#8 ∧ t.cand = [] :=
  (of_nextAnd (p := fun t => t.err == 0#8 && t.cand == []) (by decide +kernel)).imp fun t ht =>
    ⟨by decide, by decide, by decide +kernel, by decide, by decide, readable_nil rfl, ht.1, by simpa using ht.2⟩

/-- The cursor one past `SEC_END` (V11). -/
theorem witness_DecScanDecodesConcatenatedCodes_past_end :
    let s : State := { parsed with inPos := 5#64 }
    s.err = 0#8 ∧ s.flags.rltValid = true ∧ s.secEnd ≤ s.inPos ∧ s.cand = [] := by decide

/-- The cursor stands exactly at `SEC_END`. -/
theorem witness_DecScanFaultsOnLeftoverBits_at_end :
    let s : State := { parsed with inPos := 4#64, cand := [true] }
    s.err = 0#8 ∧ s.flags.rltValid = true ∧ s.secEnd ≤ s.inPos ∧ s.cand ≠ [] := by decide

/-- A section of four bits and a longest code of four bits. -/
theorem witness_DecScanFaultsOnLeftoverBits_in_section :
    let s : State := { parsed with rlt := [⟨[false, false, false, false], 0x61#8⟩], maxLen := 4#8 }
    s.err = 0#8 ∧ s.flags.rltValid = true ∧ Loaded s sourceContainer ∧ s.inPos ≤ s.secEnd ∧
      s.secEnd ≤ s.inLen ∧ Readable s s.inPos s.secEnd ∧
      s.cand ++ sectionBits (charsLeft s sourceContainer) ≠ [] ∧
      (s.cand ++ sectionBits (charsLeft s sourceContainer)).length ≤ s.maxLen.toNat ∧
      ∀ e ∈ s.rlt,
        ¬ e.code <+: s.cand ++ sectionBits (charsLeft s sourceContainer) :=
  ⟨by decide +kernel, by decide +kernel, by decide +kernel, by decide +kernel, by decide +kernel, readable_nil rfl, by decide +kernel, by decide +kernel, by decide +kernel⟩

/-- Three symbols, then a bit with which no key begins. -/
theorem witness_DecScanFaultsOnLeftoverBits_after_symbols :
    let s : State := { parsed with rlt := [⟨[false], 0x61#8⟩, ⟨[true, true], 0x62#8⟩], maxLen := 2#8 }
    let syms : List RltEntry := List.replicate 3 ⟨[false], 0x61#8⟩
    s.err = 0#8 ∧ s.flags.rltValid = true ∧ Loaded s sourceContainer ∧ s.secEnd ≤ s.inLen ∧ ScanReady s ∧
      s.inPos ≤ s.secEnd ∧ Readable s s.inPos s.secEnd ∧ [true] ≠ [] ∧ [true].length ≤ s.maxLen.toNat ∧
      ScanSplit s (charsLeft s sourceContainer) syms [true] :=
  ⟨rfl, rfl, by decide +kernel, by decide, by decide +kernel, by decide, readable_nil rfl, by decide, by decide,
    by decide +kernel⟩

/-- V32: `"0"` matches, `"10"` is left, over a table in which `"0"` is a prefix of `"01"`. -/
theorem witness_DecScanFaultsOnLeftoverBits_pushed_left :
    let S : List Byte := [0x30#8, 0x31#8, 0x30#8]
    let s : State := { shadowed with
      rlt := [⟨[false], 0x61#8⟩, ⟨[false, true], 0x62#8⟩], inMem := Memory.ofBytes S, inLen := 3#64, secEnd := 3#64 }
    ∃ t, s.err = 0#8 ∧ s.flags.rltValid = true ∧ Loaded s S ∧ s.secEnd ≤ s.inLen ∧ s.inPos ≤ s.secEnd ∧
      Readable s s.inPos s.secEnd ∧ runParts ((charsLeft s S).map .vmPush) s = .next t ∧ t.err = 0#8 ∧ t.cand ≠ [] :=
  (of_nextAnd (p := fun t => t.err == 0#8 && t.cand != []) (by decide +kernel)).imp fun t ht =>
    ⟨rfl, rfl, by decide +kernel, by decide, by decide, readable_nil rfl, ht.1, by simpa using ht.2⟩

/-- The last character of the section completes no key (`ERR = 5`), or finds the output full (`ERR = 1`). -/
theorem witness_DecScanFaultsOnLeftoverBits_pushed_fault :
    ∀ s ∈ [{ shadowed with rlt := [⟨[false], 0x61#8⟩], maxLen := 0#8 }, { shadowed with outCap := 3#64 }],
      ∃ u t, s.err = 0#8 ∧ s.flags.rltValid = true ∧ Loaded s sourceContainer ∧ s.secEnd ≤ s.inLen ∧
        s.inPos ≤ s.secEnd ∧ Readable s s.inPos s.secEnd ∧
        charsLeft s sourceContainer = [0x30#8, 0x30#8, 0x30#8] ++ 0x31#8 :: [] ∧
        runParts (([0x30#8, 0x30#8, 0x30#8] : List Byte).map .vmPush) s = .next u ∧ u.err = 0#8 ∧
        exec (.vmPush 0x31#8) u = .next t ∧ t.err ≠ 0#8 := by
  have key : ∀ s : State, nextAnd (runParts (([0x30#8, 0x30#8, 0x30#8] : List Byte).map .vmPush) s) (fun u =>
      u.err == 0#8 && nextAnd (exec (.vmPush 0x31#8) u) fun t => t.err != 0#8) = true →
      ∃ u t, runParts (([0x30#8, 0x30#8, 0x30#8] : List Byte).map .vmPush) s = .next u ∧ u.err = 0#8 ∧
        exec (.vmPush 0x31#8) u = .next t ∧ t.err ≠ 0#8 := by
    intro s h
    obtain ⟨u, hu, h⟩ := of_nextAnd h
    simp only [Bool.and_eq_true] at h
    obtain ⟨t, ht, h'⟩ := of_nextAnd h.2
    exact ⟨u, t, hu, by simpa using h.1, ht, by simpa using h'⟩
  intro s hs
  simp only [List.mem_cons, List.not_mem_nil, or_false] at hs
  rcases hs with rfl | rfl
  · obtain ⟨u, t, h⟩ := key { shadowed with rlt := [⟨[false], 0x61#8⟩], maxLen := 0#8 } (by decide +kernel)
    exact ⟨u, t, rfl, rfl, by decide +kernel, by decide, by decide, readable_nil rfl, by decide +kernel, h⟩
  · obtain ⟨u, t, h⟩ := key { shadowed with outCap := 3#64 } (by decide +kernel)
    exact ⟨u, t, rfl, rfl, by decide +kernel, by decide, by decide, readable_nil rfl, by decide +kernel, h⟩

/-- The last bit of the section makes the candidate longer than `MAXLEN`, after two symbols. -/
theorem witness_DecScanFaultsOnLeftoverBits_too_long :
    let s : State := { parsed with rlt := [⟨[false], 0x61#8⟩], cand := [], secEnd := 6#64 }
    let S : List Byte := [0x30#8, 0x78#8, 0x30#8, 0x31#8, 0x0A#8, 0x31#8]
    let s : State := { s with inMem := Memory.ofBytes S, inLen := 6#64 }
    s.err = 0#8 ∧ s.flags.rltValid = true ∧ Loaded s S ∧ s.secEnd ≤ s.inLen ∧ ScanReady s ∧ s.inPos ≤ 5#64 ∧
      5#64 < s.secEnd ∧ Readable s s.inPos (5#64 + 1#64) ∧ S[(5#64 : Word64).toNat]? = some 0x31#8 ∧
      ScanSplit s ((S.take (5#64 : Word64).toNat).drop s.inPos.toNat) (List.replicate 2 ⟨[false], 0x61#8⟩) [true] ∧
      [true].length = s.maxLen.toNat :=
  ⟨rfl, rfl, by decide +kernel, by decide, by decide +kernel, by decide, by decide, readable_nil rfl, by decide,
    by decide +kernel, by decide⟩

/-- A container this block's encoder would not write (V27): a stray character, a newline in the section. -/
theorem witness_DecodeReadsEveryContainer :
    let sec : List Byte := [0x31#8, 0x78#8, 0x30#8, 0x0A#8, 0x0A#8, 0x30#8]
    let recs : List RltEntry := [⟨[true, false], 0x61#8⟩, ⟨[false], 0x62#8⟩]
    let S := containerForm sec true (some recs)
    let s : State := { loaded S with outCap := 2#64 }
    s.err = 0#8 ∧ Loaded s S ∧ Readable s 0#64 s.inLen ∧ SectionMeant sec true S ∧ RecordsOk recs ∧
      (∀ e ∈ recs, Matchable recs e) ∧ sectionBits sec = recs.flatMap RltEntry.code ∧
      recs.length ≤ s.outCap.toNat :=
  ⟨by decide +kernel, by decide +kernel, readable_nil rfl, by decide +kernel, by decide +kernel, by decide +kernel,
    by decide +kernel, by decide +kernel⟩

/-- V32: one key is a prefix of another, and the shorter one spells the section. -/
theorem witness_DecodeReadsEveryContainer_shadowed :
    let sec : List Byte := [0x30#8, 0x30#8]
    let recs : List RltEntry := [⟨[false], 0x61#8⟩, ⟨[false, true], 0x62#8⟩]
    let syms : List RltEntry := List.replicate 2 ⟨[false], 0x61#8⟩
    let S := containerForm sec true (some recs)
    let s : State := { loaded S with outCap := 2#64 }
    s.err = 0#8 ∧ Loaded s S ∧ Readable s 0#64 s.inLen ∧ SectionMeant sec true S ∧ RecordsOk recs ∧
      (∀ e ∈ syms, Matchable recs e) ∧ sectionBits sec = syms.flatMap RltEntry.code ∧
      syms.length ≤ s.outCap.toNat :=
  ⟨by decide +kernel, by decide +kernel, readable_nil rfl, by decide +kernel, by decide +kernel, by decide +kernel,
    by decide +kernel, by decide +kernel⟩

theorem witness_RoundTrip :
    let s : State := { loaded aaab with outCap := 67092#64 }
    s.err = 0#8 ∧ Loaded s aaab ∧ s.inFault = [] ∧
      255 * aaab.length + 24 + 256 * 258 ≤ s.outCap.toNat := by decide

/-! ### Every command, and the invariants -/

theorem witness_NoCommandWritesTheInput : ∃ t, exec .pqPeek State.reset = .next t := next_of (by decide)

theorem witness_CommandsWriteOnlyWhatTheirRulesName : ∃ t, exec .codeGen built = .next t ∧ t.err = 0#8 :=
  (of_nextAnd (p := fun t => t.err == 0#8) (by decide +kernel)).imp fun t ht => ⟨ht.1, by simpa using ht.2⟩

/-- An address outside the four bytes that the scan stores after one byte that is already there. -/
theorem witness_CommandsStoreOnlyTheirOutput :
    ∃ t, exec .decScan { parsed with out := ⟨[(0, 0x7A#8)], 1#64⟩ } = .next t ∧ parsed.err = 0#8 ∧ t.err = 0#8 ∧
      Instr.decScan ≠ .clr ∧ storesFrom { parsed with out := ⟨[(0, 0x7A#8)], 1#64⟩ } .decScan = some 1 ∧
      (0 < 1 ∨ t.out.len.toNat ≤ 0) :=
  (of_nextAnd (p := fun t => t.err == 0#8) (by decide +kernel)).imp fun t ht =>
    ⟨ht.1, rfl, by simpa using ht.2, by decide, rfl, .inl (by decide)⟩

/-- The state about to count `"aaab"`. -/
def aboutToCount : State := { loaded aaab with port := [.present 0x200000000000000000000000#96] }

theorem witness_StepKeepsMemoryForm :
    ∃ t, step aboutToCount = .next t ∧ Memory.wf aboutToCount.inMem = true ∧ Memory.wf aboutToCount.out.mem = true :=
  (next_of (by decide +kernel)).imp fun t ht => ⟨ht, by decide, by decide⟩

theorem witness_StepKeepsFaultedOutputEmpty :
    ∃ t, step { faulted with port := [.present 0x110000000000000000000000#96] } = .next t ∧
      faulted.err ≠ 0#8 ∧ faulted.out.len = 0#64 ∧ t.err ≠ 0#8 :=
  (of_nextAnd (p := fun t => t.err != 0#8) (by decide +kernel)).imp fun t ht =>
    ⟨ht.1, by decide, rfl, by simpa using ht.2⟩

theorem witness_StepKeepsBounds :
    ∃ t, step aboutToCount = .next t ∧ aboutToCount.err = 0#8 ∧ Bounds aboutToCount ∧ t.err = 0#8 :=
  (of_nextAnd (p := fun t => t.err == 0#8) (by decide +kernel)).imp fun t ht =>
    ⟨ht.1, rfl, by decide +kernel, by simpa using ht.2⟩

theorem witness_StepKeepsHeapOrder :
    ∃ t, step { queueOfThree with port := [.present 0x110000000000000000000000#96] } = .next t ∧
      queueOfThree.err = 0#8 ∧ HeapOrdered queueOfThree.heap ∧ t.err = 0#8 :=
  (of_nextAnd (p := fun t => t.err == 0#8) (by decide +kernel)).imp fun t ht =>
    ⟨ht.1, rfl, by decide, by simpa using ht.2⟩

/-- The codes of `"aaab"`. -/
theorem lookup_aaabCode (b : Byte) :
    ctLookup aaabCode b = if b = 0x62#8 then some [false] else if b = 0x61#8 then some [true] else none := by
  unfold ctLookup aaabCode
  simp only [Sys2Proof.Laws.tget_tset, emptyCode, Sys2Proof.Laws.tget_replicate, eq_comm]

theorem aaabCode_prefixCode : PrefixCode aaabCode := by
  intro b₁ b₂ c₁ c₂ hne h₁ h₂
  rw [lookup_aaabCode] at h₁ h₂
  by_cases e₁ : b₁ = 0x62#8
  · rw [if_pos e₁, Option.some.injEq] at h₁
    rw [if_neg (fun e => hne (e₁.trans e.symm))] at h₂
    split at h₂
    · rw [Option.some.injEq] at h₂
      subst h₁ h₂; decide
    · exact absurd h₂ (by simp)
  · rw [if_neg e₁] at h₁
    split at h₁
    · rename_i a₁
      rw [Option.some.injEq] at h₁
      split at h₂
      · rw [Option.some.injEq] at h₂
        subst h₁ h₂; decide
      · rw [if_neg (fun e => hne (a₁.trans e.symm))] at h₂
        exact absurd h₂ (by simp)
    · exact absurd h₁ (by simp)

theorem aaabCode_lengths : CodeLengths aaabCode := by
  intro b c h
  rw [lookup_aaabCode] at h
  split at h
  · simp_all; subst_vars; decide
  · split at h
    · simp_all; subst_vars; decide
    · simp at h

/-- A valid table is kept by the step that emits. -/
theorem witness_StepKeepsPrefixCode :
    ∃ t, step { coded with port := [.present 0x230000000000000000000000#96] } = .next t ∧ coded.err = 0#8 ∧
      coded.flags.ctValid = true ∧ PrefixCode coded.code ∧ CodeLengths coded.code ∧ t.err = 0#8 ∧
      t.flags.ctValid = true :=
  (of_nextAnd (p := fun t => t.err == 0#8 && t.flags.ctValid) (by decide +kernel)).imp fun t ht =>
    ⟨ht.1, rfl, rfl, aaabCode_prefixCode, aaabCode_lengths, by simpa using ht.2⟩

/-- A good state in which the host makes a move R183 does not allow. -/
theorem witness_GoodStatesNeverStop_refused : Good { faulted with port := [.load []] } :=
  ⟨⟨⟨[], rfl, rfl, by decide⟩, by decide⟩, fun _ => rfl, fun h => absurd h (by decide)⟩

/-- A good state that is not the state after reset: a tree built, its step the one that consumes it. -/
theorem witness_GoodStatesNeverStop : Good { built with port := [.present 0x220000000000000000000000#96] } := by
  refine ⟨⟨⟨aaab, rfl, rfl, by decide⟩, by decide⟩, fun h => absurd rfl h, fun _ => ⟨by decide, by decide, by decide, ?_, ?_, ?_⟩⟩
  · intro h; exact absurd h (by decide)
  · intro h; exact absurd h (by decide)
  · intro _; exact built_treeOk

end Sys2Proof.Tests
end

namespace Sys2Proof.Proofs

open Sys2Proof.Machine Sys2Proof.Laws

/-! ## The commands as pseudocode (spec/47_control.md R180, spec/30_encoding.md R66)

Every command but `CLR` is its pseudocode behind the common first part, and `ENCODE` and `DECODE` are sequences of
other commands' pseudocode. So a property that the parts keep is kept by every command. -/

/-- The pseudocode of a command. -/
def bodyOf : Instr → State → Res State
  | .clr => fun s => .ok (clearAll s)
  | .inRewind => rewindBody
  | .pqInsert key node => pqInsertBody key node
  | .pqExtractMin => pqExtractMinBody
  | .pqPeek => pqPeekBody
  | .freqCount => freqCountBody
  | .treeBuild => treeBuildBody
  | .codeGen => codeGenBody
  | .emit => emitBody
  | .encode => encodeBody
  | .decParse => decParseBody
  | .decScan => decScanBody
  | .vmPush ch => vmPushBody ch
  | .decode => decodeBody

/-- The commands that are neither `CLR` nor made of others. -/
def isPart : Instr → Bool
  | .clr => false
  | .encode => false
  | .decode => false
  | _ => true

theorem exec_clr (s : State) : exec .clr s = .next (clearAll s) := rfl

theorem exec_eq_accept {i : Instr} (hi : i ≠ .clr) (s : State) : exec i s = accept i (bodyOf i) s := by
  cases i with
  | clr => exact absurd rfl hi
  | _ => rfl

/-- A part that completes writes what its rule names and nothing else (R26). -/
theorem frame_of_part {i : Instr} (hi : isPart i = true) {s t : State} (h : bodyOf i s = .ok t) : Frame s t i := by
  cases i with
  | clr | encode | decode => cases hi
  | inRewind => obtain rfl := rewindBody_ok h; exact rfl
  | pqInsert key node => exact (pqInsertBody_ok h).2
  | pqExtractMin => obtain ⟨r, -, e⟩ := pqExtractMinBody_ok h; rw [e]; exact rfl
  | pqPeek => obtain ⟨r, -, e⟩ := pqPeekBody_ok h; rw [e]; exact rfl
  | freqCount => exact (freqCountBody_ok h).2
  | treeBuild => obtain ⟨root, -, e⟩ := treeBuildBody_ok h; rw [e]; exact rfl
  | codeGen => exact (codeGenBody_ok h).2
  | emit => obtain ⟨o, -, -, e⟩ := emitBody_ok h; exact e
  | decParse => obtain ⟨n, -, e⟩ := decParseBody_ok h; rw [e]; exact rfl
  | decScan => obtain ⟨-, e⟩ := decScanBody_ok h; rw [e]; exact rfl
  | vmPush ch => obtain ⟨r, -, e⟩ := vmPushBody_ok h; rw [e]; exact rfl

/-- Every command but `CLR` keeps `P` when it completes from the phase it requires. -/
def Keeps (P : State → Prop) : Prop :=
  ∀ i s t, i ≠ .clr → phaseReady i s.flags = true → bodyOf i s = .ok t → P s → P t

/-! A part of `ENCODE` or of `DECODE` reaches the phase that the next part requires. -/

theorem ready_of_freqCount {s t : State} (h : freqCountBody s = .ok t) : phaseReady .treeBuild t.flags = true := by
  rw [(freqCountBody_ok h).2]; rfl

theorem ready_of_treeBuild {s t : State} (h : treeBuildBody s = .ok t) : phaseReady .codeGen t.flags = true := by
  obtain ⟨_, -, e⟩ := treeBuildBody_ok h
  rw [e]; rfl

theorem ready_of_codeGen {s t : State} (h : codeGenBody s = .ok t) : phaseReady .emit t.flags = true := by
  rw [(codeGenBody_ok h).2]; rfl

theorem ready_of_decParse {s t : State} (h : decParseBody s = .ok t) : phaseReady .decScan t.flags = true := by
  obtain ⟨_, -, e⟩ := decParseBody_ok h
  rw [e]; rfl

/-- What the parts keep, the commands made of them keep (R66). -/
theorem keeps_of_parts {P : State → Prop}
    (hP : ∀ i s t, isPart i = true → phaseReady i s.flags = true → bodyOf i s = .ok t → Frame s t i → P s → P t) :
    Keeps P := by
  have h : ∀ i s t, isPart i = true → phaseReady i s.flags = true → bodyOf i s = .ok t → P s → P t :=
    fun i s t hi hp hb => hP i s t hi hp hb (frame_of_part hi hb)
  intro i s t hi hp hb hs
  cases i with
  | clr => exact absurd rfl hi
  | encode =>
    obtain ⟨s₂, s₄, s₅, h₂, h₄, h₅, h₆⟩ := encodeBody_ok hb
    have p₁ : P { s with inPos := 0#64 } := h .inRewind _ _ rfl rfl rfl hs
    have p₂ : P s₂ := h .freqCount _ _ rfl rfl h₂ p₁
    have p₃ : P { s₂ with inPos := 0#64 } := h .inRewind _ _ rfl rfl rfl p₂
    have r₄ : phaseReady .treeBuild s₂.flags = true := ready_of_freqCount h₂
    have p₄ : P s₄ := h .treeBuild { s₂ with inPos := 0#64 } _ rfl r₄ h₄ p₃
    have p₅ : P s₅ := h .codeGen _ _ rfl (ready_of_treeBuild h₄) h₅ p₄
    exact h .emit _ _ rfl (ready_of_codeGen h₅) h₆ p₅
  | decode =>
    obtain ⟨u, h₁, h₂⟩ := decodeBody_ok hb
    exact h .decScan _ _ rfl (ready_of_decParse h₁) h₂ (h .decParse _ _ rfl rfl h₁ hs)
  | _ => exact h _ _ _ rfl hp hb hs

/-- A command that completes records no fault. -/
theorem keeps_noFault : Keeps fun s => s.err = 0#8 := by
  refine keeps_of_parts fun i s t hi _ _ hf hs => ?_
  cases i with
  | clr | encode | decode => cases hi
  | _ => exact (congrArg State.err hf).trans hs

/-- A command leaves a loaded input as it is (R11, R40). -/
theorem keeps_loaded (S : List Byte) : Keeps fun s => Loaded s S := by
  refine keeps_of_parts fun i s t hi _ _ hf hs => ?_
  cases i with
  | clr | encode | decode => cases hi
  | _ => rw [show t = _ from hf]; exact hs

/-! ## The output stream (spec/20_memory.md R45)

Commands write `OUT` by `Out` alone, so a property that `Out` keeps is kept by every command. -/

/-- `Out` with the capacity `cap` keeps `Q`. -/
def KeptByOut (cap : Word64) (Q : OutStream → Prop) : Prop :=
  ∀ o v, o.len < cap → Q o → Q ⟨Memory.write o.mem o.len.toNat v, o.len + 1#64⟩

section
variable {cap : Word64} {Q : OutStream → Prop} (hQ : KeptByOut cap Q)
include hQ

theorem put_keeps {o o' : OutStream} {v : Byte} (h : OutStream.put cap o v = .ok o') (ho : Q o) : Q o' := by
  rcases put_cases cap o v with ⟨-, e⟩ | ⟨-, e⟩ | ⟨hl, e⟩ <;> rw [e] at h <;> cases h
  exact hQ o v hl ho

theorem puts_keeps (vs : List Byte) {o o' : OutStream} (h : OutStream.puts cap o vs = .ok o') (ho : Q o) : Q o' := by
  induction vs generalizing o with
  | nil => cases h; exact ho
  | cons v vs ih =>
    rw [OutStream.puts] at h
    split at h
    · cases h
    · rename_i o₁ e
      exact ih h (put_keeps hQ e ho)

end

/-- The cursor one past a position below `hi`. -/
theorem next_le {pos hi : Word64} (h : pos < hi) : pos + 1#64 ≤ hi := by
  have := hi.isLt
  rw [BitVec.lt_def] at h
  rw [BitVec.le_def, BitVec.toNat_add]
  simp; omega

theorem zero_le_word (x : Word64) : 0#64 ≤ x := by rw [BitVec.le_def]; simp

/-- A byte with a code is emitted as the code's characters. -/
theorem emitCode_ok {s : State} {o o' : OutStream} {b : Byte} (h : emitCode s o b = .ok o') :
    ∃ c, ctLookup s.code b = some c ∧ OutStream.puts s.outCap o (bitChars c) = .ok o' := by
  unfold emitCode at h
  split at h
  · cases h
  · rename_i c e
    exact ⟨c, e, h⟩

/-- The emitting loop keeps the cursor inside the input and what `Out` keeps (R141). -/
theorem emitLoop_keeps {s : State} {Q : OutStream → Prop} (hQ : KeptByOut s.outCap Q) (n : Nat)
    {pos pos' : Word64} {o o' : OutStream} (h : emitLoop s n pos o = .ok (pos', o')) :
    (pos ≤ s.inLen → pos' ≤ s.inLen) ∧ (Q o → Q o') := by
  induction n generalizing pos o with
  | zero => cases h; exact ⟨id, id⟩
  | succ n ih =>
    rw [emitLoop] at h
    split at h
    · rename_i hlt
      split at h
      · cases h
      · split at h
        · cases h
        · rename_i o₁ e
          obtain ⟨c, -, e⟩ := emitCode_ok e
          obtain ⟨hp, hq⟩ := ih h
          exact ⟨fun _ => hp (next_le hlt), fun ho => hq (puts_keeps hQ _ e ho)⟩
    · cases h; exact ⟨id, id⟩

/-- A step of the matcher keeps what `Out` keeps (R152). -/
theorem vmStep_keeps {s : State} {Q : OutStream → Prop} (hQ : KeptByOut s.outCap Q) {pos : Word64} {c : Code}
    {o : OutStream} {ch : Byte} {r : Scan} (h : vmStep s pos c o ch = .ok r) (ho : Q o) : Q r.out := by
  rcases vmStep_ok h with ⟨-, rfl⟩ | ⟨bit, b, -, -, hl, rfl⟩ | ⟨bit, -, -, -, rfl⟩
  · exact ho
  · exact hQ o b hl ho
  · exact ho

/-- The scanning loop keeps the cursor inside the input and what `Out` keeps (R162). -/
theorem scanLoop_keeps {s : State} {Q : OutStream → Prop} (hQ : KeptByOut s.outCap Q) (n : Nat)
    {pos pos' : Word64} {c c' : Code} {o o' : OutStream} (h : scanLoop s n pos c o = .ok (pos', c', o')) :
    (s.secEnd ≤ s.inLen → pos ≤ s.inLen → pos' ≤ s.inLen) ∧ (Q o → Q o') := by
  induction n generalizing pos c o with
  | zero => cases h; exact ⟨fun _ => id, id⟩
  | succ n ih =>
    rw [scanLoop] at h
    split at h
    · rename_i hlt
      split at h
      · cases h
      · split at h
        · cases h
        · rename_i r e
          obtain ⟨hp, hq⟩ := ih h
          exact ⟨fun he _ => hp he (BitVec.le_trans (next_le hlt) he), fun ho => hq (vmStep_keeps hQ e ho)⟩
    · cases h; exact ⟨fun _ => id, id⟩

/-- What `Out` and the emptying of the stream keep, every command keeps. -/
theorem keeps_out {Q : Word64 → OutStream → Prop} (hQ : ∀ cap, KeptByOut cap (Q cap))
    (hr : ∀ cap o, Q cap o → Q cap o.restart) : Keeps fun s => Q s.outCap s.out := by
  refine keeps_of_parts fun i s t hi _ hb hf hs => ?_
  cases i with
  | clr | encode | decode => cases hi
  | emit =>
    obtain ⟨o, h₁, h₂, e⟩ := emitBody_ok hb
    rw [e]
    exact puts_keeps (hQ _) _ h₂ ((emitLoop_keeps (hQ _) _ h₁).2 (hr _ _ hs))
  | decParse =>
    obtain ⟨_, -, e⟩ := decParseBody_ok hb
    rw [e]
    exact hr _ _ hs
  | decScan =>
    obtain ⟨h, e⟩ := decScanBody_ok hb
    rw [e]
    exact (scanLoop_keeps (hQ _) _ h).2 hs
  | vmPush ch =>
    obtain ⟨r, h, e⟩ := vmPushBody_ok hb
    rw [e]
    exact vmStep_keeps (hQ _) h hs
  | _ => rw [show t = _ from hf]; exact hs

/-- The stream stays within its capacity (R45). -/
theorem keptByOut_le (cap : Word64) : KeptByOut cap fun o => o.len ≤ cap := fun _ _ hl _ => next_le hl

/-- A store at or next to a stretch of bytes from index 0 leaves such a stretch. -/
theorem addrs_write_range {m : Memory} {a n : Nat} (v : Byte) (hm : m.map Prod.fst = List.range n) (ha : a ≤ n) :
    (Memory.write m a v).map Prod.fst = List.range (max n (a + 1)) := by
  have hw : Memory.wf m = true := by rw [wf_iff, hm]; exact List.pairwise_lt_range
  refine ((wf_iff _).1 (wf_write m a v hw)).eq_of_mem_iff List.pairwise_lt_range fun x => ?_
  rw [mem_addrs_write, hm, List.mem_range, List.mem_range]
  omega

/-- The bytes below `OUT_LEN` stay listed (R45). -/
theorem keptByOut_filled (cap : Word64) : KeptByOut cap OutFilled := by
  rintro o v hl ⟨hm, ho⟩
  have hw := addrs_write_range v hm ho
  have hlen : (Memory.write o.mem o.len.toNat v).length = max o.mem.length (o.len.toNat + 1) := by
    simpa using congrArg List.length hw
  refine ⟨by rw [hlen]; exact hw, ?_⟩
  have h64 := cap.isLt
  rw [BitVec.lt_def] at hl
  rw [hlen, BitVec.toNat_add]
  simp; omega

theorem keeps_filled : Keeps fun s => OutFilled s.out :=
  keeps_out keptByOut_filled fun _ _ h => ⟨h.1, Nat.zero_le _⟩

theorem keeps_outFits : Keeps fun s => s.out.len ≤ s.outCap :=
  keeps_out (Q := fun cap o => o.len ≤ cap) keptByOut_le fun _ _ _ => zero_le_word _

/-! ## What the commands keep (spec/10_state.md R29)

One lemma for each clause of R29: what a command that completes keeps, in any state. -/

/-! ### The cursor and the end of the section -/

/-- Counting leaves the cursor inside the input (R90). -/
theorem countLoop_pos_le {s : State} (n : Nat) {pos pos' : Word64} {f f' : FreqTable}
    (h : countLoop s n pos f = .ok (pos', f')) (hp : pos ≤ s.inLen) : pos' ≤ s.inLen := by
  induction n generalizing pos f with
  | zero => cases h; exact hp
  | succ n ih =>
    rw [countLoop] at h
    split at h
    · rename_i hlt
      split at h
      · cases h
      · exact ih h (next_le hlt)
    · cases h; exact hp

/-- A marker that is found stands where the search looked (R161). -/
theorem markerFrom_lt {s : State} (n : Nat) {m k : Nat} (h : markerFrom s n m = .ok (some k)) : k < m + n := by
  induction n generalizing m with
  | zero => cases h
  | succ n ih =>
    rw [markerFrom] at h
    split at h
    · cases h
    · split at h
      · cases h; omega
      · have := ih h; omega

/-- A sequence completes when its first part does and then the rest. -/
theorem ok_of_bind {α β : Type} {r : Res α} {f : α → Res β} {b : β} (h : (r >>= f) = .ok b) :
    ∃ a, r = .ok a ∧ f a = .ok b := by
  cases r with
  | error e => cases h
  | ok a => exact ⟨a, rfl, h⟩

/-- The parts `DEC_PARSE` went through (R160). -/
theorem parseContainer_ok {s : State} {t : Rlt} {e : Nat} (h : parseContainer s = .ok (t, e)) :
    ∃ m p, findMarker s = .ok (some m) ∧ sectionEnd s m = .ok e ∧ recordsStart s (m + marker.length) = .ok p ∧
      readRecords s (s.inLen.toNat - p) p ⟨[], 0#8⟩ = .ok t := by
  obtain ⟨_ | m, hm, h⟩ := ok_of_bind h
  · cases h
  · obtain ⟨e', he, h⟩ := ok_of_bind h
    obtain ⟨p, hp, h⟩ := ok_of_bind h
    obtain ⟨t', ht, h⟩ := ok_of_bind h
    cases h
    exact ⟨m, p, hm, he, hp, ht⟩

theorem sectionEnd_le {s : State} {m e : Nat} (h : sectionEnd s m = .ok e) : e ≤ m := by
  unfold sectionEnd at h
  split at h
  · cases h; omega
  · split at h
    · cases h
    · cases h; split <;> omega

/-- `SEC_END` lies in the input (R160). -/
theorem parseContainer_end_le {s : State} {t : Rlt} {e : Nat} (h : parseContainer s = .ok (t, e)) :
    BitVec.ofNat 64 e ≤ s.inLen := by
  obtain ⟨m, p, hm, he, -, -⟩ := parseContainer_ok h
  have h₁ := markerFrom_lt _ hm
  have h₂ := sectionEnd_le he
  have h64 := s.inLen.isLt
  have hl : marker.length = 22 := rfl
  rw [BitVec.le_def, BitVec.toNat_ofNat]
  omega

/-! ### The reverse table and the candidate -/

/-- A record that is read has been inserted (R160). -/
theorem readRecord_inserts {s : State} {p q : Nat} {t t' : Rlt} (h : readRecord s p t = .ok (t', q)) :
    ∃ c b p', rltInsert t c b p' = .ok t' := by
  obtain ⟨b, -, h⟩ := ok_of_bind h
  obtain ⟨colon, -, h⟩ := ok_of_bind h
  split at h
  · cases h
  · obtain ⟨⟨c, p'⟩, -, h⟩ := ok_of_bind h
    obtain ⟨nl, -, h⟩ := ok_of_bind h
    split at h
    · cases h
    · obtain ⟨u, hu, h⟩ := ok_of_bind h
      cases h
      exact ⟨c, b, p', hu⟩

/-- What `rlt_insert` keeps, the record loop keeps (R160). -/
theorem readRecords_keeps {s : State} {P : Rlt → Prop}
    (hP : ∀ t c b p t', rltInsert t c b p = .ok t' → P t → P t') (n : Nat) {p : Nat} {t t' : Rlt}
    (h : readRecords s n p t = .ok t') (ht : P t) : P t' := by
  induction n generalizing p t with
  | zero => cases h; exact ht
  | succ n ih =>
    rw [readRecords] at h
    split at h
    · split at h
      · cases h
      · rename_i u q hu
        obtain ⟨c, b, p', hi⟩ := readRecord_inserts hu
        exact ih h (hP _ _ _ _ _ hi ht)
    · cases h; exact ht

/-- Distinct keys of 1 to 255 bits, at most 256 of them: kept by an insertion (R151). -/
theorem rltInsert_keeps_recordsOk (t : Rlt) (c : Code) (b : Byte) (p : Nat) (t' : Rlt)
    (h : rltInsert t c b p = .ok t') (ht : RecordsOk t.entries) : RecordsOk t'.entries := by
  obtain ⟨-, hnd, hall⟩ := ht
  rcases rltInsert_cases t c b p with ⟨-, e⟩ | ⟨h1, h2, h3, h4, e⟩ <;> rw [e] at h <;> cases h
  refine ⟨by simp; omega, ?_, ?_⟩
  · rw [List.map_append, List.nodup_append]
    refine ⟨hnd, by simp, ?_⟩
    rintro _ hx y hy rfl
    obtain ⟨x, hx, e⟩ := List.mem_map.1 hx
    exact h3 x hx (e.trans (by simpa using hy))
  · intro x hx
    rcases List.mem_append.1 hx with hx | hx
    · exact hall x hx
    · obtain rfl := List.mem_singleton.1 hx
      exact ⟨h1, h2⟩

/-- What a container that is parsed has as its records (R151, R160). -/
theorem parseContainer_recordsOk {s : State} {t : Rlt} {e : Nat} (h : parseContainer s = .ok (t, e)) :
    RecordsOk t.entries := by
  obtain ⟨_, _, -, -, -, h⟩ := parseContainer_ok h
  exact readRecords_keeps (P := fun t => RecordsOk t.entries) rltInsert_keeps_recordsOk _ h (by decide)

/-- A step of the matcher keeps the candidate no longer than `MAXLEN` (R152). -/
theorem vmStep_cand_le {s : State} {pos : Word64} {c : Code} {o : OutStream} {ch : Byte} {r : Scan}
    (h : vmStep s pos c o ch = .ok r) (hc : c.length ≤ s.maxLen.toNat) : r.cand.length ≤ s.maxLen.toNat := by
  rcases vmStep_ok h with ⟨-, rfl⟩ | ⟨bit, b, -, -, hl, rfl⟩ | ⟨bit, -, -, hl, rfl⟩
  · exact hc
  · exact Nat.zero_le _
  · simpa using hl

/-- What an extraction that completes has done (R102). -/
theorem pqExtract_ok {h h' : List HeapEntry} {r : HeapEntry} (he : pqExtract h = .ok (r, h')) :
    ∃ rest, h = r :: rest ∧ h' = removeRoot h ∧ h'.Perm rest := by
  rcases pqExtract_cases h with ⟨-, e⟩ | ⟨x, rest, hh, e, hp⟩
  · rw [e] at he; cases he
  · rw [e, Except.ok.injEq, Prod.mk.injEq] at he
    obtain ⟨rfl, rfl⟩ := he
    exact ⟨rest, hh, rfl, hp⟩

/-! ### The bounds -/

/-- The cursor stays inside the input and the end of the section does (R29). -/
theorem keeps_positions : Keeps fun s => s.inPos ≤ s.inLen ∧ (s.flags.rltValid = true → s.secEnd ≤ s.inLen) := by
  refine keeps_of_parts fun i s t hi hp hb hf hs => ?_
  obtain ⟨hpos, hend⟩ := hs
  cases i with
  | clr | encode | decode => cases hi
  | inRewind =>
    obtain rfl := rewindBody_ok hb
    exact ⟨zero_le_word _, hend⟩
  | freqCount =>
    obtain ⟨h, e⟩ := freqCountBody_ok hb
    have hpos' := countLoop_pos_le _ h hpos
    rw [e]
    exact ⟨hpos', hend⟩
  | emit =>
    obtain ⟨o, h, -, e⟩ := emitBody_ok hb
    rw [e]
    exact ⟨(emitLoop_keeps (keptByOut_le _) _ h).1 hpos, hend⟩
  | decParse =>
    obtain ⟨n, h, e⟩ := decParseBody_ok hb
    have hend' := parseContainer_end_le h
    rw [e]
    exact ⟨zero_le_word _, fun _ => hend'⟩
  | decScan =>
    obtain ⟨h, e⟩ := decScanBody_ok hb
    rw [e]
    exact ⟨(scanLoop_keeps (keptByOut_le _) _ h).1 (hend hp) hpos, hend⟩
  | _ => rw [show t = _ from hf]; exact ⟨hpos, hend⟩

/-- The queue holds at most 256 entries (R29). -/
theorem keeps_heapLength : Keeps fun s => s.heap.length ≤ 256 := by
  refine keeps_of_parts fun i s t hi _ hb hf hs => ?_
  cases i with
  | clr | encode | decode => cases hi
  | pqInsert key node =>
    obtain ⟨h, -⟩ := pqInsertBody_ok hb
    rcases pqInsert_cases s.heap ⟨key, node⟩ with ⟨-, e⟩ | ⟨hlt, g, e, -, hlen⟩ <;> rw [e] at h <;> cases h
    omega
  | pqExtractMin =>
    obtain ⟨r, h, -⟩ := pqExtractMinBody_ok hb
    obtain ⟨rest, hh, -, hperm⟩ := pqExtract_ok h
    rw [hh, List.length_cons] at hs
    rw [hperm.length_eq]
    omega
  | treeBuild =>
    rw [show t = _ from hf]
    exact Nat.zero_le _
  | _ => rw [show t = _ from hf]; exact hs

/-- The reverse table holds at most 256 entries, and the candidate is no longer than `MAXLEN` (R29, R18). -/
theorem keeps_matcherBounds : Keeps fun s => s.rlt.length ≤ 256 ∧ s.cand.length ≤ s.maxLen.toNat := by
  refine keeps_of_parts fun i s t hi _ hb hf hs => ?_
  obtain ⟨hrlt, hcand⟩ := hs
  cases i with
  | clr | encode | decode => cases hi
  | decParse =>
    obtain ⟨n, h, e⟩ := decParseBody_ok hb
    rw [e]
    exact ⟨(parseContainer_recordsOk h).1, Nat.zero_le _⟩
  | decScan =>
    rw [(decScanBody_ok hb).2]
    exact ⟨hrlt, Nat.zero_le _⟩
  | vmPush ch =>
    obtain ⟨r, h, e⟩ := vmPushBody_ok hb
    rw [e]
    exact ⟨hrlt, vmStep_cand_le h hcand⟩
  | _ => rw [show t = _ from hf]; exact ⟨hrlt, hcand⟩

/-- `ROOT_VALID` is set with `TREE_VALID` only (R26). -/
theorem keeps_rootImpliesTree : Keeps fun s => s.flags.rootValid = true → s.flags.treeValid = true := by
  refine keeps_of_parts fun i s t hi _ hb hf hs => ?_
  cases i with
  | clr | encode | decode => cases hi
  | freqCount | codeGen => rw [show t = _ from hf]; intro h; cases h
  | treeBuild => rw [show t = _ from hf]; exact fun _ => rfl
  | _ => rw [show t = _ from hf]; exact hs

/-- `ERR_INFO` is written by faults only (R21). -/
theorem keeps_errInfo : Keeps fun s => s.errInfo = 0#64 := by
  refine keeps_of_parts fun i s t hi _ _ hf hs => ?_
  cases i with
  | clr | encode | decode => cases hi
  | _ => rw [show t = _ from hf]; exact hs

/-- Every command keeps the bounds of R29 on cursors and counts. -/
theorem keeps_bounds : Keeps Bounds := by
  rintro i s t hi hp hb ⟨hpos, hout, hheap, hrlt, hroot, hend, hcand, hinfo⟩
  obtain ⟨hpos', hend'⟩ := keeps_positions i s t hi hp hb ⟨hpos, hend⟩
  obtain ⟨hrlt', hcand'⟩ := keeps_matcherBounds i s t hi hp hb ⟨hrlt, hcand⟩
  exact ⟨hpos', keeps_outFits i s t hi hp hb hout, keeps_heapLength i s t hi hp hb hheap, hrlt',
    keeps_rootImpliesTree i s t hi hp hb hroot, hend', hcand', keeps_errInfo i s t hi hp hb hinfo⟩

/-! ### The queue, the reverse table, the tree and its codes -/

/-- The queue stays in heap order (R106). -/
theorem keeps_heapOrdered : Keeps fun s => HeapOrdered s.heap := by
  refine keeps_of_parts fun i s t hi _ hb hf hs => ?_
  cases i with
  | clr | encode | decode => cases hi
  | pqInsert key node => exact heapOrdered_pqInsert hs (pqInsertBody_ok hb).1
  | pqExtractMin =>
    obtain ⟨r, h, -⟩ := pqExtractMinBody_ok hb
    obtain ⟨_, -, e, -⟩ := pqExtract_ok h
    rw [e]
    exact heapOrdered_removeRoot hs
  | treeBuild => rw [show t = _ from hf]; exact heapOrdered_nil
  | _ => rw [show t = _ from hf]; exact hs

/-- The reverse table keeps its keys distinct and of 1 to 255 bits (R17). -/
theorem keeps_rltKeys : Keeps fun s => s.flags.rltValid = true → RltKeys s.rlt := by
  refine keeps_of_parts fun i s t hi _ hb hf hs => ?_
  cases i with
  | clr | encode | decode => cases hi
  | decParse =>
    obtain ⟨n, h, -⟩ := decParseBody_ok hb
    exact fun _ => (parseContainer_recordsOk h).2
  | _ => rw [show t = _ from hf]; exact hs

/-- The codes recorded of an arena: none begins with another, and each has 1 to 255 bits (R132 to R134). -/
theorem treeRecords_codes {nodes : List Node} {root : NodeIx} {rs : List (Byte × Code)}
    (h : treeRecords nodes root = .ok rs) :
    (∀ x ∈ rs, ∀ y ∈ rs, x ≠ y → ¬ x.2 <+: y.2) ∧ ∀ x ∈ rs, 1 ≤ x.2.length ∧ x.2.length ≤ 255 := by
  rcases treeRecords_ok h with ⟨b, w, -, rfl⟩ | ⟨w, L, R, -, hh, rfl⟩
  · simp
  · have hsymm : Std.Symm fun x y : Byte × Code => ¬ x.2 <+: y.2 ∧ ¬ y.2 <+: x.2 := ⟨fun _ _ h => h.symm⟩
    have hpair := (HTree.node w L R).records_pairwise []
    refine ⟨fun x hx y hy hne => (hpair.forall hx hy hne).1, fun x hx => ?_⟩
    obtain ⟨p, hp, hl⟩ := HTree.mem_records hx
    refine ⟨HTree.one_le_of_mem_records hx, ?_⟩
    rw [hp, List.nil_append]
    omega

/-- What `CODE_GEN` records (R131): nothing without a root, otherwise the codes of the tree. -/
theorem codesOf_ok {nodes : List Node} {root : Option NodeIx} {T : CodeTable} {n : BitVec 9}
    (h : codesOf nodes root = .ok (T, n)) :
    (root = none ∧ T = emptyCode ∧ n = 0#9) ∨
    ∃ ix rs, root = some ix ∧ treeRecords nodes ix = .ok rs ∧ recordAll rs emptyCode 0#9 = (T, n) := by
  unfold codesOf at h
  split at h
  · cases h; exact .inl ⟨rfl, rfl, rfl⟩
  · rename_i ix
    split at h
    · cases h
    · rename_i rs hrs
      exact .inr ⟨ix, rs, rfl, hrs, Except.ok.inj h⟩

/-- The table of an arena: no code begins with another, and each has 1 to 255 bits (R133, R134). -/
theorem codesOf_codes {nodes : List Node} {root : Option NodeIx} {T : CodeTable} {n : BitVec 9}
    (h : codesOf nodes root = .ok (T, n)) : PrefixCode T ∧ CodeLengths T := by
  rcases codesOf_ok h with ⟨-, rfl, -⟩ | ⟨ix, rs, -, hrs, e⟩
  · exact ⟨fun b _ c _ _ hb => by simp at hb, fun b c hb => by simp at hb⟩
  · obtain ⟨hne, hlen⟩ := treeRecords_codes hrs
    have hmem : ∀ {b c}, ctLookup T b = some c → (b, c) ∈ rs := fun hb =>
      mem_of_ctLookup_recordAll (n := 0#9) (by rwa [e])
    exact ⟨fun b₁ b₂ c₁ c₂ hb h₁ h₂ => hne _ (hmem h₁) _ (hmem h₂) fun e => hb (congrArg Prod.fst e),
      fun b c hb => hlen _ (hmem hb)⟩

/-- A valid code table stays a table of codes none of which begins with another, of 1 to 255 bits (R133, R134). -/
theorem keeps_codes : Keeps fun s => s.flags.ctValid = true → PrefixCode s.code ∧ CodeLengths s.code := by
  refine keeps_of_parts fun i s t hi _ hb hf hs => ?_
  cases i with
  | clr | encode | decode => cases hi
  | freqCount | treeBuild => rw [show t = _ from hf]; intro h; cases h
  | codeGen => exact fun _ => codesOf_codes (codeGenBody_ok hb).1
  | _ => rw [show t = _ from hf]; exact hs

/-- What R29 says of the arena and of the table made from it. -/
def ArenaOk (s : State) : Prop := ArenaBounds s ∧ (s.flags.rootValid = true → TreeOk s.nodes s.root)

/-- The arena that `TREE_BUILD` makes: at most 511 nodes, and a root is that of a tree (R121, R123). -/
theorem buildTree_arena {f : FreqTable} {nodes : List Node} {root : Option NodeIx}
    (h : buildTree f = .ok (nodes, root)) :
    nodes.length ≤ 511 ∧ ∀ ix ∈ root, ix.toNat < nodes.length ∧ TreeOk nodes ix := by
  rcases buildTree_ok f with ⟨-, e⟩ | ⟨-, more, ix, T, e, hlen, -, -, hrep, hleaves⟩ <;> rw [e] at h <;> cases h
  · exact ⟨Nat.zero_le _, by simp⟩
  · have hk := length_presentBytes_le f
    refine ⟨by simp; omega, ?_⟩
    rintro _ ⟨⟩
    have hheight := T.height_lt_leaves
    rw [hleaves.length_eq] at hheight
    obtain ⟨rs, hrs, hsyms⟩ := treeRecords_of_rep hrep (by omega)
    exact ⟨hrep.lt, rs, hrs, hsyms ▸ hleaves.nodup_iff.2 (nodup_byteValues.filter _)⟩

/-- Distinct byte values are at most 256. -/
theorem length_le_of_nodup {bs : List Byte} (h : bs.Nodup) : bs.length ≤ 256 := by
  have := (List.subperm_of_subset h fun b _ => mem_byteValues b).length_le
  rwa [length_byteValues] at this

/-- `CT_CNT` counts at most one code for each byte value (R29). -/
theorem codesOf_count_le {nodes : List Node} {root : Option NodeIx} {T : CodeTable} {n : BitVec 9}
    (hT : ∀ ix ∈ root, TreeOk nodes ix) (h : codesOf nodes root = .ok (T, n)) : n.toNat ≤ 256 := by
  rcases codesOf_ok h with ⟨-, -, rfl⟩ | ⟨ix, rs, rfl, hrs, e⟩
  · exact Nat.zero_le _
  · obtain ⟨rs', hrs', hnd⟩ := hT ix rfl
    obtain rfl : rs = rs' := by rw [hrs] at hrs'; exact Except.ok.inj hrs'
    have hl := length_le_of_nodup hnd
    rw [List.length_map] at hl
    rw [← show (recordAll rs emptyCode 0#9).2 = n from congrArg Prod.snd e, recordAll_count, BitVec.zero_add,
      BitVec.toNat_ofNat]
    omega

/-- The root that `CODE_GEN` starts from is that of a tree. -/
theorem treeOk_of_root {s : State} (h : s.flags.rootValid = true → TreeOk s.nodes s.root) :
    ∀ ix ∈ (if s.flags.rootValid then some s.root else none), TreeOk s.nodes ix := by
  rintro ix hix
  split at hix
  · rename_i hv
    obtain rfl := Option.some.inj hix
    exact h hv
  · cases hix

/-- The arena stays a tree that fits, and the count of the table made from it within 256 (R15, R29). -/
theorem keeps_arenaOk : Keeps ArenaOk := by
  refine keeps_of_parts fun i s t hi _ hb hf hs => ?_
  obtain ⟨⟨hn, hr, hc⟩, hT⟩ := hs
  cases i with
  | clr | encode | decode => cases hi
  | freqCount =>
    rw [show t = _ from hf]
    exact ⟨⟨hn, by rintro ⟨⟩, hc⟩, by rintro ⟨⟩⟩
  | treeBuild =>
    obtain ⟨root, h, e⟩ := treeBuildBody_ok hb
    obtain ⟨hn, hr⟩ := buildTree_arena h
    rw [e]
    cases root with
    | none => exact ⟨⟨hn, by rintro ⟨⟩, hc⟩, by rintro ⟨⟩⟩
    | some ix => exact ⟨⟨hn, fun _ => (hr ix rfl).1, hc⟩, fun _ => (hr ix rfl).2⟩
  | codeGen =>
    obtain ⟨h, e⟩ := codeGenBody_ok hb
    have hcnt := codesOf_count_le (treeOk_of_root hT) h
    rw [e]
    exact ⟨⟨Nat.zero_le _, by rintro ⟨⟩, hcnt⟩, by rintro ⟨⟩⟩
  | _ => rw [show t = _ from hf]; exact ⟨⟨hn, hr, hc⟩, hT⟩

/-! ## No stop (spec/20_memory.md R43, spec/10_state.md R15)

Over a loaded input, an output within its capacity and an arena that is a tree, every command's pseudocode completes or
raises a fault. -/

/-- A piece of pseudocode completes or raises a fault: the model does not stop. -/
def Answers {α : Type} (r : Res α) : Prop := (∃ a, r = .ok a) ∨ ∃ k info, r = raise k info

theorem answers_ok {α : Type} (a : α) : Answers (.ok a : Res α) := .inl ⟨a, rfl⟩

theorem answers_raise {α : Type} (k : FaultKind) (info : Word64) : Answers (raise k info : Res α) :=
  .inr ⟨k, info, rfl⟩

theorem answers_bind {α β : Type} {r : Res α} {f : α → Res β} (h : Answers r)
    (hf : ∀ a, r = .ok a → Answers (f a)) : Answers (r >>= f) := by
  rcases h with ⟨a, rfl⟩ | ⟨k, info, rfl⟩
  · exact hf a rfl
  · exact answers_raise k info

/-! ### The output -/

theorem answers_put {cap : Word64} {o : OutStream} (ho : o.len ≤ cap) (v : Byte) :
    Answers (OutStream.put cap o v) := by
  rcases put_cases cap o v with ⟨-, e⟩ | ⟨h, -⟩ | ⟨-, e⟩
  · rw [e]; exact answers_raise _ _
  · exact absurd ho (BitVec.not_le.2 h)
  · rw [e]; exact answers_ok _

theorem answers_puts {cap : Word64} (vs : List Byte) {o : OutStream} (ho : o.len ≤ cap) :
    Answers (OutStream.puts cap o vs) := by
  rcases Nat.lt_or_ge cap.toNat (o.len.toNat + vs.length) with h | h
  · rw [puts_full vs ho h]; exact answers_raise _ _
  · obtain ⟨o', e, -⟩ := puts_ok cap o vs h
    rw [e]; exact answers_ok _

theorem answers_emitCode {s : State} {o : OutStream} (ho : o.len ≤ s.outCap) (b : Byte) : Answers (emitCode s o b) := by
  unfold emitCode
  split
  · exact answers_raise _ _
  · exact answers_puts _ ho

theorem answers_vmStep {s : State} {o : OutStream} (ho : o.len ≤ s.outCap) (pos : Word64) (c : Code) (ch : Byte) :
    Answers (vmStep s pos c o ch) := by
  cases hb : bitOfChar ch with
  | none => rw [vmStep_skip _ _ _ _ hb]; exact answers_ok _
  | some bit =>
    cases hr : rltFind s.rlt (c ++ [bit]) with
    | some r =>
      rw [vmStep_match _ _ _ hb hr]
      rcases answers_put ho r with ⟨o', e⟩ | ⟨k, info, e⟩ <;> rw [e]
      · exact answers_ok _
      · exact answers_raise k info
    | none =>
      rw [vmStep_noMatch _ _ _ hb hr]
      split
      · exact answers_raise _ _
      · exact answers_ok _

theorem answers_rltInsert (t : Rlt) (c : Code) (b : Byte) (p : Nat) : Answers (rltInsert t c b p) := by
  rcases rltInsert_cases t c b p with ⟨-, e⟩ | ⟨-, -, -, -, e⟩ <;> rw [e]
  · exact answers_raise _ _
  · exact answers_ok _

/-! ### The input -/

section
variable {s : State} {S : List Byte} (hS : Loaded s S)
include hS

theorem answers_memRead {a : Word64} (ha : a < s.inLen) : Answers (memRead s a) := by
  rcases memRead_cases s a with ⟨h, -⟩ | ⟨-, -, e⟩ | ⟨-, -, h, -⟩ | ⟨b, -, -, -, e⟩
  · exact absurd ha (BitVec.not_lt.2 h)
  · rw [e]; exact answers_raise _ _
  · rw [hS.1, read_ofBytes, List.getElem?_eq_none_iff] at h
    rw [BitVec.lt_def, toNat_inLen hS] at ha
    omega
  · rw [e]; exact answers_ok _

theorem answers_memReadAt {p : Nat} (hp : p < s.inLen.toNat) : Answers (memReadAt s p) := by
  have h64 := s.inLen.isLt
  refine answers_memRead hS ?_
  rw [BitVec.lt_def, BitVec.toNat_ofNat]
  omega

theorem answers_countLoop (n : Nat) (pos : Word64) (f : FreqTable) : Answers (countLoop s n pos f) := by
  induction n generalizing pos f with
  | zero => exact answers_ok _
  | succ n ih =>
    rw [countLoop]
    split
    · rename_i hlt
      rcases answers_memRead hS hlt with ⟨b, e⟩ | ⟨k, info, e⟩ <;> rw [e]
      · exact ih _ _
      · exact answers_raise k info
    · exact answers_ok _

theorem answers_emitLoop (n : Nat) (pos : Word64) {o : OutStream} (ho : o.len ≤ s.outCap) :
    Answers (emitLoop s n pos o) := by
  induction n generalizing pos o with
  | zero => exact answers_ok _
  | succ n ih =>
    rw [emitLoop]
    split
    · rename_i hlt
      rcases answers_memRead hS hlt with ⟨b, e⟩ | ⟨k, info, e⟩ <;> rw [e]
      · rcases answers_emitCode ho b with ⟨o', e'⟩ | ⟨k, info, e'⟩ <;> simp only [e']
        · obtain ⟨c, -, h⟩ := emitCode_ok e'
          exact ih _ (puts_keeps (keptByOut_le _) _ h ho)
        · exact answers_raise k info
      · exact answers_raise k info
    · exact answers_ok _

theorem answers_scanLoop (he : s.secEnd ≤ s.inLen) (n : Nat) (pos : Word64) (c : Code) {o : OutStream}
    (ho : o.len ≤ s.outCap) : Answers (scanLoop s n pos c o) := by
  induction n generalizing pos c o with
  | zero => exact answers_ok _
  | succ n ih =>
    rw [scanLoop]
    split
    · rename_i hlt
      have hin : pos < s.inLen := by rw [BitVec.lt_def] at hlt ⊢; rw [BitVec.le_def] at he; omega
      rcases answers_memRead hS hin with ⟨b, e⟩ | ⟨k, info, e⟩ <;> rw [e]
      · rcases answers_vmStep ho (pos + 1#64) c b with ⟨r, e'⟩ | ⟨k, info, e'⟩ <;> simp only [e']
        · exact ih _ _ (vmStep_keeps (keptByOut_le _) e' ho)
        · exact answers_raise k info
      · exact answers_raise k info
    · exact answers_ok _

/-! ### The parser -/

theorem answers_nextIs (p : Nat) (v : Byte) : Answers (nextIs s p v) := by
  unfold nextIs
  split
  · rename_i hp
    rcases answers_memReadAt hS hp with ⟨b, e⟩ | ⟨k, info, e⟩ <;> rw [e]
    · exact answers_ok _
    · exact answers_raise k info
  · exact answers_ok _

theorem answers_nextBit (p : Nat) : Answers (nextBit s p) := by
  unfold nextBit
  split
  · rename_i hp
    rcases answers_memReadAt hS hp with ⟨b, e⟩ | ⟨k, info, e⟩ <;> rw [e]
    · exact answers_ok _
    · exact answers_raise k info
  · exact answers_ok _

theorem answers_readSpan (n : Nat) {p : Nat} (hp : p + n ≤ s.inLen.toNat) : Answers (readSpan s n p) := by
  induction n generalizing p with
  | zero => exact answers_ok _
  | succ n ih =>
    rw [readSpan]
    rcases answers_memReadAt hS (show p < s.inLen.toNat by omega) with ⟨b, e⟩ | ⟨k, info, e⟩ <;> rw [e]
    · rcases ih (show p + 1 + n ≤ s.inLen.toNat by omega) with ⟨bs, e'⟩ | ⟨k, info, e'⟩ <;> simp only [e']
      · exact answers_ok _
      · exact answers_raise k info
    · exact answers_raise k info

theorem answers_markerFrom (n : Nat) {m : Nat} (hn : n + m + marker.length ≤ s.inLen.toNat + 1) :
    Answers (markerFrom s n m) := by
  induction n generalizing m with
  | zero => exact answers_ok _
  | succ n ih =>
    rw [markerFrom]
    rcases answers_readSpan hS marker.length (p := m) (by omega) with ⟨w, e⟩ | ⟨k, info, e⟩ <;> rw [e]
    · simp only
      split
      · exact answers_ok _
      · exact ih (by omega)
    · exact answers_raise k info

theorem answers_findMarker : Answers (findMarker s) := by
  unfold findMarker
  rcases Nat.lt_or_ge (s.inLen.toNat + 1) marker.length with h | h
  · rw [Nat.sub_eq_zero_of_le (Nat.le_of_lt h)]; exact answers_ok _
  · exact answers_markerFrom hS _ (by omega)

theorem answers_readCode (n p : Nat) (c : Code) : Answers (readCode s n p c) := by
  induction n generalizing p c with
  | zero =>
    rw [readCode]
    rcases answers_nextBit hS p with ⟨_ | bit, e⟩ | ⟨k, info, e⟩ <;> rw [e]
    · exact answers_ok _
    · exact answers_raise _ _
    · exact answers_raise k info
  | succ n ih =>
    rw [readCode]
    rcases answers_nextBit hS p with ⟨_ | bit, e⟩ | ⟨k, info, e⟩ <;> rw [e]
    · exact answers_ok _
    · exact ih _ _
    · exact answers_raise k info

theorem answers_readRecord {p : Nat} (hp : p < s.inLen.toNat) (t : Rlt) : Answers (readRecord s p t) := by
  refine answers_bind (answers_memReadAt hS hp) fun sym _ => answers_bind (answers_nextIs hS _ _) fun colon _ => ?_
  split
  · exact answers_raise _ _
  refine answers_bind (answers_readCode hS _ _ _) fun x _ => answers_bind (answers_nextIs hS _ _) fun nl _ => ?_
  split
  · exact answers_raise _ _
  exact answers_bind (answers_rltInsert _ _ _ _) fun t' _ => answers_ok _

theorem answers_readRecords (n p : Nat) (t : Rlt) : Answers (readRecords s n p t) := by
  induction n generalizing p t with
  | zero => exact answers_ok _
  | succ n ih =>
    rw [readRecords]
    split
    · rename_i hp
      rcases answers_readRecord hS hp t with ⟨⟨t', q⟩, e⟩ | ⟨k, info, e⟩ <;> rw [e]
      · exact ih _ _
      · exact answers_raise k info
    · exact answers_ok _

theorem answers_sectionEnd {m : Nat} (hm : m ≤ s.inLen.toNat) : Answers (sectionEnd s m) := by
  unfold sectionEnd
  split
  · exact answers_ok _
  · rcases answers_memReadAt hS (show m - 1 < s.inLen.toNat by omega) with ⟨b, e⟩ | ⟨k, info, e⟩ <;> rw [e]
    · exact answers_ok _
    · exact answers_raise k info

theorem answers_recordsStart (p : Nat) : Answers (recordsStart s p) := by
  unfold recordsStart
  split
  · rename_i hp
    rcases answers_memReadAt hS hp with ⟨b, e⟩ | ⟨k, info, e⟩ <;> rw [e]
    · simp only
      split
      · exact answers_ok _
      · exact answers_raise _ _
    · exact answers_raise k info
  · exact answers_ok _

theorem answers_parseContainer : Answers (parseContainer s) := by
  refine answers_bind (answers_findMarker hS) fun r hr => ?_
  cases r with
  | none => exact answers_raise _ _
  | some m =>
    have hm := markerFrom_lt _ hr
    have hl : marker.length = 22 := rfl
    exact answers_bind (answers_sectionEnd hS (by omega)) fun e _ =>
      answers_bind (answers_recordsStart hS _) fun p _ =>
      answers_bind (answers_readRecords hS _ _ _) fun t _ => answers_ok _

end

/-! ### The tree -/

theorem answers_codesOf {nodes : List Node} {root : Option NodeIx} (hT : ∀ ix ∈ root, TreeOk nodes ix) :
    Answers (codesOf nodes root) := by
  cases root with
  | none => exact answers_ok _
  | some ix =>
    obtain ⟨rs, e, -⟩ := hT ix rfl
    unfold codesOf
    simp only [e]
    exact answers_ok _

/-! ### The commands -/

theorem answers_pqInsertBody (key : Word64) (node : NodeIx) (s : State) : Answers (pqInsertBody key node s) := by
  unfold pqInsertBody
  rcases pqInsert_cases s.heap ⟨key, node⟩ with ⟨-, e⟩ | ⟨-, h, e, -⟩ <;> rw [e]
  · exact answers_raise _ _
  · exact answers_ok _

theorem answers_pqExtractMinBody (s : State) : Answers (pqExtractMinBody s) := by
  unfold pqExtractMinBody
  rcases pqExtract_cases s.heap with ⟨-, e⟩ | ⟨r, rest, -, e, -⟩ <;> rw [e]
  · exact answers_raise _ _
  · exact answers_ok _

theorem answers_pqPeekBody (s : State) : Answers (pqPeekBody s) := by
  unfold pqPeekBody
  cases s.heap.head? with
  | none => exact answers_raise _ _
  | some r => exact answers_ok _

theorem answers_freqCountBody {s : State} {S : List Byte} (hS : Loaded s S) : Answers (freqCountBody s) := by
  unfold freqCountBody
  rcases answers_countLoop hS (s.inLen.toNat - s.inPos.toNat) s.inPos zeroFreq with ⟨x, e⟩ | ⟨k, info, e⟩ <;> rw [e]
  · exact answers_ok _
  · exact answers_raise k info

theorem answers_treeBuildBody (s : State) : Answers (treeBuildBody s) := by
  unfold treeBuildBody
  rcases buildTree_ok s.freq with ⟨-, e⟩ | ⟨-, more, root, T, e, -⟩ <;> rw [e]
  · exact answers_ok _
  · exact answers_ok _

theorem answers_codeGenBody {s : State} (hT : s.flags.rootValid = true → TreeOk s.nodes s.root) :
    Answers (codeGenBody s) := by
  unfold codeGenBody
  rcases answers_codesOf (treeOk_of_root hT) with ⟨x, e⟩ | ⟨k, info, e⟩ <;> rw [e]
  · exact answers_ok _
  · exact answers_raise k info

theorem answers_emitBody {s : State} {S : List Byte} (hS : Loaded s S) : Answers (emitBody s) := by
  unfold emitBody
  have h0 : s.out.restart.len ≤ s.outCap := zero_le_word _
  rcases answers_emitLoop hS (s.inLen.toNat - s.inPos.toNat) s.inPos h0 with
    ⟨⟨pos, o⟩, e⟩ | ⟨k, info, e⟩ <;> rw [e]
  · have ho := (emitLoop_keeps (keptByOut_le _) _ e).2 h0
    rcases answers_puts (trailerBytes s.code) ho with ⟨o', e'⟩ | ⟨k, info, e'⟩ <;> simp only [e']
    · exact answers_ok _
    · exact answers_raise k info
  · exact answers_raise k info

theorem answers_decParseBody {s : State} {S : List Byte} (hS : Loaded s S) : Answers (decParseBody s) := by
  unfold decParseBody
  rcases answers_parseContainer hS with ⟨x, e⟩ | ⟨k, info, e⟩ <;> rw [e]
  · exact answers_ok _
  · exact answers_raise k info

theorem answers_decScanBody {s : State} {S : List Byte} (hS : Loaded s S) (he : s.secEnd ≤ s.inLen)
    (ho : s.out.len ≤ s.outCap) : Answers (decScanBody s) := by
  unfold decScanBody
  rcases answers_scanLoop hS he (s.secEnd.toNat - s.inPos.toNat) s.inPos s.cand ho with
    ⟨⟨pos, c, o⟩, e⟩ | ⟨k, info, e⟩ <;> rw [e]
  · simp only
    split
    · exact answers_raise _ _
    · exact answers_ok _
  · exact answers_raise k info

theorem answers_vmPushBody {s : State} (ho : s.out.len ≤ s.outCap) (ch : Byte) : Answers (vmPushBody ch s) := by
  unfold vmPushBody
  rcases answers_vmStep ho s.inPos s.cand ch with ⟨r, e⟩ | ⟨k, info, e⟩ <;> rw [e]
  · exact answers_ok _
  · exact answers_raise k info

/-! ## Good states (spec/10_state.md R29) -/

/-- A good state with no fault recorded. -/
structure Running (s : State) : Prop where
  noFault : s.err = 0#8
  loaded : ∃ S, Loaded s S
  filled : OutFilled s.out
  bounds : Bounds s
  arena : ArenaOk s
  heap : HeapOrdered s.heap
  codes : s.flags.ctValid = true → PrefixCode s.code ∧ CodeLengths s.code
  keys : s.flags.rltValid = true → RltKeys s.rlt

theorem Running.good {s : State} (h : Running s) : Good s :=
  ⟨⟨h.loaded, h.filled⟩, fun he => absurd h.noFault he,
    fun _ => ⟨h.bounds, h.arena.1, h.heap, h.codes, h.keys, h.arena.2⟩⟩

theorem Running.of_good {s : State} (h : Good s) (he : s.err = 0#8) : Running s := by
  obtain ⟨⟨hload, hfill⟩, -, hrun⟩ := h
  obtain ⟨hb, ha, hh, hc, hk, ht⟩ := hrun he
  exact ⟨he, hload, hfill, hb, ⟨ha, ht⟩, hh, hc, hk⟩

/-- A command that completes from a good state ends in one. -/
theorem keeps_running : Keeps Running := by
  intro i s t hi hp hb hs
  exact
    { noFault := keeps_noFault i s t hi hp hb hs.noFault
      loaded := hs.loaded.imp fun S hS => keeps_loaded S i s t hi hp hb hS
      filled := keeps_filled i s t hi hp hb hs.filled
      bounds := keeps_bounds i s t hi hp hb hs.bounds
      arena := keeps_arenaOk i s t hi hp hb hs.arena
      heap := keeps_heapOrdered i s t hi hp hb hs.heap
      codes := keeps_codes i s t hi hp hb hs.codes
      keys := keeps_rltKeys i s t hi hp hb hs.keys }

/-- From a good state whose phase it requires no part stops the model. -/
theorem answers_part {i : Instr} (hi : isPart i = true) {s : State} (hs : Running s)
    (hp : phaseReady i s.flags = true) : Answers (bodyOf i s) := by
  obtain ⟨S, hS⟩ := hs.loaded
  obtain ⟨-, hout, -, -, -, hend, -, -⟩ := hs.bounds
  cases i with
  | clr | encode | decode => cases hi
  | inRewind => exact answers_ok _
  | pqInsert key node => exact answers_pqInsertBody key node s
  | pqExtractMin => exact answers_pqExtractMinBody s
  | pqPeek => exact answers_pqPeekBody s
  | freqCount => exact answers_freqCountBody hS
  | treeBuild => exact answers_treeBuildBody s
  | codeGen => exact answers_codeGenBody hs.arena.2
  | emit => exact answers_emitBody hS
  | decParse => exact answers_decParseBody hS
  | decScan => exact answers_decScanBody hS (hend hp) hout
  | vmPush ch => exact answers_vmPushBody hout ch

/-- A part and what follows it, from a good state: the rest begins in a good state. -/
theorem answers_part_then {i : Instr} (hi : isPart i = true) {s : State} (hs : Running s)
    (hp : phaseReady i s.flags = true) {f : State → Res State}
    (hf : ∀ t, bodyOf i s = .ok t → Running t → Answers (f t)) : Answers (bodyOf i s >>= f) :=
  answers_bind (answers_part hi hs hp) fun t ht =>
    hf t ht (keeps_running i s t (by rintro rfl; cases hi) hp ht hs)

/-- From a good state no command stops the model. -/
theorem answers_body {i : Instr} {s : State} (hs : Running s) (hp : phaseReady i s.flags = true) :
    Answers (bodyOf i s) := by
  cases i with
  | clr => exact answers_ok _
  | encode =>
    refine answers_part_then (i := .inRewind) rfl hs rfl fun s₁ _ r₁ => ?_
    refine answers_part_then (i := .freqCount) rfl r₁ rfl fun s₂ h₂ r₂ => ?_
    refine answers_part_then (i := .inRewind) rfl r₂ rfl fun s₃ h₃ r₃ => ?_
    have p₂ : phaseReady .treeBuild s₂.flags = true := ready_of_freqCount h₂
    have p₃ : phaseReady .treeBuild s₃.flags = true := by rw [rewindBody_ok h₃]; exact p₂
    refine answers_part_then (i := .treeBuild) rfl r₃ p₃ fun s₄ h₄ r₄ => ?_
    refine answers_part_then (i := .codeGen) rfl r₄ (ready_of_treeBuild h₄) fun s₅ h₅ r₅ => ?_
    exact answers_part (i := .emit) rfl r₅ (ready_of_codeGen h₅)
  | decode =>
    exact answers_part_then (i := .decParse) rfl hs rfl fun u h r =>
      answers_part (i := .decScan) rfl r (ready_of_decParse h)
  | _ => exact answers_part rfl hs hp

/-! ### What a step can end in -/

/-- A fault leaves a good state (R201, R202). -/
theorem good_enterFault {s : State} (h : Good s) (k : FaultKind) (info : Word64) : Good (enterFault s k info) := by
  obtain ⟨⟨hload, -⟩, -, -⟩ := h
  exact ⟨⟨hload, rfl, Nat.zero_le _⟩, fun _ => rfl, fun he => absurd he (number_ne_zero k)⟩

/-- A block with its state cleared and an input loaded is in a good state (R181, R220). -/
theorem running_clearAll {s : State} {S : List Byte} (hS : Loaded s S) : Running (clearAll s) where
  noFault := rfl
  loaded := ⟨S, hS⟩
  filled := ⟨rfl, Nat.zero_le _⟩
  bounds := ⟨zero_le_word _, zero_le_word _, Nat.zero_le _, Nat.zero_le _, by rintro ⟨⟩, by rintro ⟨⟩, Nat.zero_le _, rfl⟩
  arena := ⟨⟨Nat.zero_le _, by rintro ⟨⟩, Nat.zero_le _⟩, by rintro ⟨⟩⟩
  heap := heapOrdered_nil
  codes := by rintro ⟨⟩
  keys := by rintro ⟨⟩

/-- Hardware reset leaves a good state (R220): that of `CLR` with an empty input. -/
theorem good_hardwareReset (s : State) : Good (hardwareReset s) :=
  (running_clearAll (s := { s with inMem := [], inLen := 0#64 }) (S := []) ⟨rfl, rfl, by decide⟩).good

/-- A load that R183 allows leaves a good state. -/
theorem good_load {s : State} (h : Good s) (he : s.err = 0#8) {S : List Byte} (hS : S.length < 2 ^ 64) :
    Good { s with
      inMem := Memory.ofBytes S, inLen := BitVec.ofNat 64 S.length, inPos := 0#64, flags := noFlags } := by
  obtain ⟨-, -, hfill, ⟨-, hout, hheap, hrlt, -, -, hcand, hinfo⟩, ⟨⟨hn, -, hc⟩, -⟩, hh, -, -⟩ := Running.of_good h he
  exact Running.good
    { noFault := he
      loaded := ⟨S, rfl, rfl, hS⟩
      filled := hfill
      bounds := ⟨zero_le_word _, hout, hheap, hrlt, by rintro ⟨⟩, by rintro ⟨⟩, hcand, hinfo⟩
      arena := ⟨⟨hn, by rintro ⟨⟩, hc⟩, by rintro ⟨⟩⟩
      heap := hh
      codes := by rintro ⟨⟩
      keys := by rintro ⟨⟩ }

/-- From a good state every command ends in a good state: discarded, refused its phase, faulted or completed (R180). -/
theorem exec_good {s : State} (h : Good s) (i : Instr) : ∃ t, exec i s = .next t ∧ Good t := by
  by_cases hi : i = .clr
  · obtain ⟨⟨⟨S, hS⟩, -⟩, -, -⟩ := h
    exact ⟨_, hi ▸ exec_clr s, (running_clearAll hS).good⟩
  rw [exec_eq_accept hi]
  by_cases he : s.err = 0#8
  · cases hp : phaseReady i s.flags with
    | false => exact ⟨_, accept_unready _ he hp, good_enterFault h _ _⟩
    | true =>
      have hs := Running.of_good h he
      rw [accept_ready _ he hp]
      rcases answers_body hs hp with ⟨t, e⟩ | ⟨k, info, e⟩ <;> rw [e]
      · exact ⟨t, settle_ok s t, (keeps_running i s t hi hp e hs).good⟩
      · exact ⟨_, settle_raise s k info, good_enterFault h _ _⟩
  · exact ⟨s, accept_faulted i _ he, h⟩

/-- A word that is not legal ends in a good state (R63, R198). -/
theorem rejectWord_good {s : State} (h : Good s) (w : CommandWord) : ∃ t, rejectWord w s = .next t ∧ Good t := by
  rcases rejectWord_cases w s with ⟨-, e⟩ | ⟨-, e⟩
  · exact ⟨s, e, h⟩
  · exact ⟨_, e, good_enterFault h _ _⟩

/-- A load ends in a good state or is refused, the latter exactly where R183 does not allow it (log 14). -/
theorem hostLoad_good {s : State} (h : Good s) (S : List Byte) :
    (∃ t, hostLoad S s = .next t ∧ Good t) ∨
    ((s.err ≠ 0#8 ∨ 2 ^ 64 ≤ S.length) ∧ hostLoad S s = .refused .hostMoveNotAllowed) := by
  by_cases hc : s.err ≠ 0#8 ∨ 2 ^ 64 ≤ S.length
  · exact .inr ⟨hc, if_pos hc⟩
  · have he : s.err = 0#8 := by by_contra he; exact hc (.inl he)
    exact .inl ⟨_, if_neg hc, good_load h he (Nat.lt_of_not_le fun hl => hc (.inr hl))⟩

/-- Which moves the host will make next is no part of what makes a state good (log 1). -/
theorem good_withPort {s : State} (h : Good s) (moves : List HostMove) : Good { s with port := moves } := h

/-- Settles O59: each move of the host taken in turn; a command completes or raises a fault by `answers_body`, and
where it completes `keeps_running` gives the good state. -/
theorem goodStatesNeverStop : Obligations.GoodStatesNeverStop := by
  intro s hs
  cases hport : s.port with
  | nil => exact .inl ⟨s, step_idle hport, hs⟩
  | cons m rest =>
    have hu := good_withPort hs rest
    cases m with
    | present w =>
      left
      cases hd : decode w with
      | ok i => rw [step_present hport hd]; exact exec_good hu i
      | error e => rw [step_present_illegal hport hd]; exact rejectWord_good hu w
    | load S =>
      rw [step_load hport]
      exact (hostLoad_good hu S).imp id fun ⟨hc, e⟩ => ⟨S, rest, rfl, hc, e⟩
    | reset => exact .inl ⟨_, step_reset hport, good_hardwareReset _⟩

end Sys2Proof.Proofs

namespace Sys2Proof.Proofs

open Sys2Proof.Machine Sys2Proof.Laws

/-! ## What a command ends in (spec/47_control.md R180) -/

/-- Everything a command can end in, `CLR` included: the word was discarded, a fault was raised, or its pseudocode
completed, for a command but `CLR` with no fault recorded and from the phase it requires. -/
theorem exec_cases {i : Instr} {s t : State} (h : exec i s = .next t) :
    (s.err ≠ 0#8 ∧ t = s) ∨ (∃ k info, t = enterFault s k info) ∨
    (bodyOf i s = .ok t ∧ (i ≠ .clr → s.err = 0#8 ∧ phaseReady i s.flags = true)) := by
  by_cases hi : i = .clr
  · subst hi
    cases h
    exact .inr (.inr ⟨rfl, fun hne => absurd rfl hne⟩)
  · rw [exec_eq_accept hi] at h
    rcases accept_cases h with h | ⟨-, h⟩ | ⟨he, hp, hb⟩
    · exact .inl h
    · exact .inr (.inl h)
    · exact .inr (.inr ⟨hb, fun _ => ⟨he, hp⟩⟩)

/-- A command that ends with no fault recorded completed its pseudocode. -/
theorem exec_completed {i : Instr} {s t : State} (h : exec i s = .next t) (ht : t.err = 0#8) :
    bodyOf i s = .ok t ∧ (i ≠ .clr → s.err = 0#8 ∧ phaseReady i s.flags = true) := by
  rcases exec_cases h with ⟨he, rfl⟩ | ⟨k, info, rfl⟩ | h
  · exact absurd ht he
  · exact absurd ht (number_ne_zero k)
  · exact h

/-! ## One step and what it keeps (spec/10_state.md R29)

A step is a command, a word that is not legal, a load, or a hardware reset. So a property that the commands keep need
only be checked of a state with everything cleared and of a load. -/

/-- What the commands keep, a state with everything cleared has and a load keeps, holds after every step that ends
with no fault recorded (R180, R181, R183, R220). -/
theorem step_keeps {P : State → Prop} (hcmd : Keeps P) (hclear : ∀ s, P (clearAll s))
    (hload : ∀ s S, S.length < 2 ^ 64 → P s → P { s with
      inMem := Memory.ofBytes S, inLen := BitVec.ofNat 64 S.length, inPos := 0#64, flags := noFlags })
    (hport : ∀ s moves, P s → P { s with port := moves }) {s t : State} (h : step s = .next t)
    (hs : s.err = 0#8 → P s) (ht : t.err = 0#8) : P t := by
  rcases step_cases h with ⟨-, rfl⟩ | ⟨rest, ⟨w, i, -, -, h⟩ | ⟨w, e, -, -, h⟩ | ⟨S, -, h⟩ | ⟨-, rfl⟩⟩
  · exact hs ht
  · obtain ⟨hb, hready⟩ := exec_completed h ht
    by_cases hi : i = .clr
    · subst hi
      cases hb
      exact hclear _
    · obtain ⟨he, hp⟩ := hready hi
      exact hcmd i _ t hi hp hb (hport s rest (hs he))
  · rcases rejectWord_cases w { s with port := rest } with ⟨he, e⟩ | ⟨-, e⟩ <;> rw [e] at h <;> cases h
    · exact absurd ht he
    · exact absurd ht (number_ne_zero .illegalCommand)
  · obtain ⟨he, hS, rfl⟩ := hostLoad_next h
    exact hload _ S hS (hport s rest (hs he))
  · exact hclear { s with port := rest, inMem := [], inLen := 0#64 }

/-- A state with everything cleared is within the bounds (R181). -/
theorem bounds_clearAll (s : State) : Bounds (clearAll s) :=
  ⟨zero_le_word _, zero_le_word _, Nat.zero_le _, Nat.zero_le _, by rintro ⟨⟩, by rintro ⟨⟩, Nat.zero_le _, rfl⟩

/-- Settles O56: the commands by `keeps_bounds`; a load rewinds the cursor and clears the flags. -/
theorem stepKeepsBounds : Obligations.StepKeepsBounds := by
  intro s t h
  refine step_keeps keeps_bounds bounds_clearAll (fun s S _ hs => ?_) (fun _ _ hs => hs) h
  obtain ⟨-, hout, hheap, hrlt, -, -, hcand, hinfo⟩ := hs
  exact ⟨zero_le_word _, hout, hheap, hrlt, by rintro ⟨⟩, by rintro ⟨⟩, hcand, hinfo⟩

/-- Settles O57: the commands by `keeps_heapOrdered`; a load leaves the queue as it is. -/
theorem stepKeepsHeapOrder : Obligations.StepKeepsHeapOrder := fun _ _ h =>
  step_keeps keeps_heapOrdered (fun _ => heapOrdered_nil) (fun _ _ _ hs => hs) (fun _ _ hs => hs) h

/-- Settles O58: the commands by `keeps_codes`; a load and a state with everything cleared have no valid table. -/
theorem stepKeepsPrefixCode : Obligations.StepKeepsPrefixCode := fun _ _ h =>
  step_keeps keeps_codes (fun _ => by rintro ⟨⟩) (fun _ _ _ _ => by rintro ⟨⟩) (fun _ _ hs => hs) h

/-! ## The tree that is built (spec/10_state.md R15) -/

/-- The tree of a table with a nonzero count has one leaf for each byte value present (R15, R121). -/
theorem buildTree_leaves {f : FreqTable} {nodes : List Node} {root : Option NodeIx} (hf : presentBytes f ≠ [])
    (h : buildTree f = .ok (nodes, root)) :
    ∃ ix rs, root = some ix ∧ treeRecords nodes ix = .ok rs ∧ (rs.map Prod.fst).Perm (presentBytes f) := by
  rcases buildTree_ok f with ⟨hnil, -⟩ | ⟨-, more, ix, T, e, -, -, -, hrep, hleaves⟩
  · exact absurd hnil hf
  · rw [e] at h
    cases h
    have hheight := T.height_lt_leaves
    rw [hleaves.length_eq] at hheight
    obtain ⟨rs, hrs, hsyms⟩ := treeRecords_of_rep hrep (hheight.trans_le (length_presentBytes_le f))
    exact ⟨ix, rs, rfl, hrs, hsyms ▸ hleaves⟩

/-- The queue never overflows while a tree is built, so `TREE_BUILD` completes (R123). -/
theorem buildTree_completes (f : FreqTable) : ∃ r, buildTree f = .ok r := by
  rcases buildTree_ok f with ⟨-, e⟩ | ⟨-, _, _, _, e, -⟩ <;> exact ⟨_, e⟩

/-- Settles O27: the command completes, and the arena it leaves holds the tree of `buildTree_leaves`. -/
theorem treeBuildLeavesATree : Obligations.TreeBuildLeavesATree := by
  intro s t he hfreq hpresent h
  obtain ⟨⟨nodes, root⟩, hb⟩ := buildTree_completes s.freq
  obtain ⟨ix, rs, rfl, hrs, hperm⟩ := buildTree_leaves hpresent hb
  have hbody : treeBuildBody s = .ok { s with
      heap := [], nodes := nodes, root := ix, flags := flagsAfterBuild true s.flags } := by
    rw [treeBuildBody, hb]
    rfl
  have hp : phaseReady .treeBuild s.flags = true := hfreq
  rw [exec_eq_accept (by rintro ⟨⟩), accept_ready _ he hp, show bodyOf .treeBuild s = _ from hbody] at h
  cases h
  exact ⟨rs, hrs, hperm⟩

/-! ## What a command leaves alone (spec/10_state.md R26) -/

/-- A command that completes writes what its rule names and nothing else (R26): what `ENCODE` and `DECODE` write is
what their parts write. -/
theorem frame_of_body {i : Instr} {s t : State} (h : bodyOf i s = .ok t) : Frame s t i := by
  cases i with
  | clr => cases h; exact rfl
  | encode =>
    obtain ⟨s₂, s₄, s₅, h₂, h₄, h₅, h₆⟩ := encodeBody_ok h
    have e₂ := (freqCountBody_ok h₂).2
    obtain ⟨root, -, e₄⟩ := treeBuildBody_ok h₄
    have e₅ := (codeGenBody_ok h₅).2
    obtain ⟨o, -, -, e₆⟩ := emitBody_ok h₆
    rw [e₆, e₅, e₄, e₂]
    exact rfl
  | decode =>
    obtain ⟨u, h₁, h₂⟩ := decodeBody_ok h
    obtain ⟨n, -, e₁⟩ := decParseBody_ok h₁
    rw [(decScanBody_ok h₂).2, e₁]
    exact rfl
  | _ => exact frame_of_part rfl h

/-- Settles O52: a command that ends with no fault recorded completed its pseudocode, whose frame is
`frame_of_body`. -/
theorem commandsWriteOnlyWhatTheirRulesName : Obligations.CommandsWriteOnlyWhatTheirRulesName := by
  intro i s t h ht
  exact frame_of_body (exec_completed h ht).1

/-- The input, the parameters and the host's coming moves of `t` are those of `s` (R11, log 1, log 2). -/
def SameInput (s t : State) : Prop :=
  t.inMem = s.inMem ∧ t.inLen = s.inLen ∧ t.outCap = s.outCap ∧ t.inFault = s.inFault ∧ t.port = s.port

/-- No row "Writes" names the input (R11, R40). -/
theorem sameInput_of_frame {i : Instr} {s t : State} (hf : Frame s t i) : SameInput s t := by
  cases i <;> (rw [show t = _ from hf]; exact ⟨rfl, rfl, rfl, rfl, rfl⟩)

/-- Settles O51: a command that is discarded or faults leaves the input, and one that completes by its frame. -/
theorem noCommandWritesTheInput : Obligations.NoCommandWritesTheInput := by
  intro i s t h
  rcases exec_cases h with ⟨-, rfl⟩ | ⟨k, info, rfl⟩ | ⟨hb, -⟩
  · exact ⟨rfl, rfl, rfl, rfl, rfl⟩
  · exact ⟨rfl, rfl, rfl, rfl, rfl⟩
  · exact sameInput_of_frame (frame_of_body hb)

/-! ## What a command stores (spec/20_memory.md R45) -/

/-- The stream `o'` is the stream `o` but for bytes stored from `o`'s end up to its own. -/
def Appends (o o' : OutStream) : Prop :=
  o.len.toNat ≤ o'.len.toNat ∧
  ∀ a, a < o.len.toNat ∨ o'.len.toNat ≤ a → Memory.read o'.mem a = Memory.read o.mem a

theorem Appends.refl (o : OutStream) : Appends o o := ⟨Nat.le_refl _, fun _ _ => rfl⟩

/-- `Out` stores at the end of the stream (R45). -/
theorem keptByOut_appends (cap : Word64) (o : OutStream) : KeptByOut cap (Appends o) := by
  rintro o' v hl ⟨hle, hread⟩
  have h64 := cap.isLt
  rw [BitVec.lt_def] at hl
  have hlen : (o'.len + 1#64).toNat = o'.len.toNat + 1 := by
    rw [BitVec.toNat_add]
    simp
    omega
  refine ⟨by simp only [hlen]; omega, fun a ha => ?_⟩
  simp only [hlen] at ha
  rw [read_write_other _ _ (by omega), hread a (by omega)]

/-- `EMIT` empties the stream and then appends (R141). -/
theorem emitBody_appends {s t : State} (h : emitBody s = .ok t) : Appends s.out.restart t.out := by
  obtain ⟨o, hloop, hputs, -⟩ := emitBody_ok h
  exact puts_keeps (keptByOut_appends _ _) _ hputs
    ((emitLoop_keeps (keptByOut_appends _ _) _ hloop).2 (Appends.refl _))

/-- `DEC_SCAN` appends (R162). -/
theorem decScanBody_appends {s t : State} (h : decScanBody s = .ok t) : Appends s.out t.out :=
  (scanLoop_keeps (keptByOut_appends _ _) _ (decScanBody_ok h).1).2 (Appends.refl _)

/-- `VM_PUSH` appends (R153). -/
theorem vmPushBody_appends {ch : Byte} {s t : State} (h : vmPushBody ch s = .ok t) : Appends s.out t.out := by
  obtain ⟨r, hr, e⟩ := vmPushBody_ok h
  rw [e]
  exact vmStep_keeps (keptByOut_appends _ _) hr (Appends.refl _)

/-- What a command but `CLR` leaves as it was in the stream, by the place it stores from (R12, R45). -/
theorem storesOnlyOutput_of_body {i : Instr} {s t : State} (hi : i ≠ .clr) (h : bodyOf i s = .ok t) :
    match storesFrom s i with
    | none => t.out.mem = s.out.mem
    | some b => ∃ o : OutStream, o.mem = s.out.mem ∧ o.len.toNat = b ∧ Appends o t.out := by
  cases i with
  | clr => exact absurd rfl hi
  | emit => exact ⟨s.out.restart, rfl, rfl, emitBody_appends h⟩
  | encode =>
    obtain ⟨s₂, s₄, s₅, h₂, h₄, h₅, h₆⟩ := encodeBody_ok h
    obtain ⟨_, -, e₄⟩ := treeBuildBody_ok h₄
    have hout : s₅.out = s.out := by rw [(codeGenBody_ok h₅).2, e₄, (freqCountBody_ok h₂).2]
    exact ⟨s.out.restart, rfl, rfl, hout ▸ emitBody_appends h₆⟩
  | decode =>
    obtain ⟨u, h₁, h₂⟩ := decodeBody_ok h
    obtain ⟨_, -, e₁⟩ := decParseBody_ok h₁
    have hout : u.out = s.out.restart := by rw [e₁]
    exact ⟨s.out.restart, rfl, rfl, hout ▸ decScanBody_appends h₂⟩
  | decScan => exact ⟨s.out, rfl, rfl, decScanBody_appends h⟩
  | vmPush ch => exact ⟨s.out, rfl, rfl, vmPushBody_appends h⟩
  | decParse =>
    obtain ⟨_, -, e⟩ := decParseBody_ok h
    show t.out.mem = s.out.mem
    rw [e, restart_mem]
  | _ => exact congrArg (fun u => u.out.mem) (frame_of_part rfl h)

/-- Settles O53: the bytes outside those stored are as before, by the place a command stores from. -/
theorem commandsStoreOnlyTheirOutput : Obligations.CommandsStoreOnlyTheirOutput := by
  intro i s t h _ ht hi a ha
  have hstore := storesOnlyOutput_of_body hi (exec_completed h ht).1
  cases hfrom : storesFrom s i with
  | none =>
    rw [hfrom] at hstore
    exact congrArg (Memory.read · a) hstore
  | some b =>
    rw [hfrom] at hstore
    obtain ⟨o, hmem, hlen, -, hread⟩ := hstore
    rw [← hmem]
    exact hread a (hlen ▸ ha b hfrom)

/-! ## A clear phase flag (spec/60_exceptions.md R197) -/

/-- A command whose required flag is clear ends in `SequenceError` with its op byte (R26, R197). -/
theorem faultsWith_unready {i : Instr} (hi : i ≠ .clr) {s : State} (he : s.err = 0#8)
    (hp : phaseReady i s.flags = false) : FaultsWith (exec i s) s 7#8 (i.opcode.setWidth 64) := by
  rw [exec_eq_accept hi, accept_unready _ he hp]
  exact faultsWith_raise s .sequenceError _

/-- Settles O8: the five commands that require a flag, each by `faultsWith_unready`. -/
theorem clearPhaseFlagRaisesSequenceError : Obligations.ClearPhaseFlagRaisesSequenceError := by
  intro s he
  have faults : ∀ i, i ≠ .clr → phaseReady i s.flags = false →
      FaultsWith (exec i s) s 7#8 (i.opcode.setWidth 64) := fun i hi => faultsWith_unready hi he
  exact ⟨faults .treeBuild (by rintro ⟨⟩), faults .codeGen (by rintro ⟨⟩), faults .emit (by rintro ⟨⟩),
    fun h => ⟨faults .decScan (by rintro ⟨⟩) h, fun ch => faults (.vmPush ch) (by rintro ⟨⟩) h⟩⟩

/-! ## The registers the host reads (spec/10_state.md R20, R23) -/

/-- A count that fits 9 bits is read as it is (R23). -/
theorem toNat_csrCount {n : Nat} (h : n < 512) : ((BitVec.ofNat 9 n).setWidth 64).toNat = n := by
  rw [BitVec.toNat_setWidth_of_le (by decide), toNat_nodeIx h]

/-- There is no register past number 15 (R23). -/
theorem csrRead_unnumbered (s : State) {n : Nat} (h : 15 < n) : csrRead s n = 0#64 := by
  obtain ⟨k, rfl⟩ : ∃ k, n = k + 16 := ⟨n - 16, by omega⟩
  rfl

/-- Settles O15: the registers by number, the counts by `toNat_csrCount`, the bits of `STATUS` by `getLsbD_status`. -/
theorem csrReadReturnsTheNumberedRegister : Obligations.CsrReadReturnsTheNumberedRegister := by
  intro s
  refine ⟨⟨rfl, rfl, rfl, rfl, rfl, rfl, rfl, rfl, toNat_csrCount, toNat_csrCount, rfl, rfl, toNat_csrCount, rfl,
    toNat_csrCount, rfl, fun _ => csrRead_unnumbered s⟩, ?_⟩
  have hhigh : ∀ k, 7 ≤ k → s.status.getLsbD k = false := fun k hk => by
    rw [getLsbD_status]
    iterate 7 rw [if_neg (by omega)]
  have herrv : s.status.getLsbD 1 = true ↔ s.err ≠ 0#8 := by
    rw [show s.status.getLsbD 1 = (s.err != 0#8) from getLsbD_status s 1, bne_iff_ne]
  exact ⟨getLsbD_status s 0, herrv, getLsbD_status s 2, getLsbD_status s 3, getLsbD_status s 4,
    getLsbD_status s 5, getLsbD_status s 6, hhigh⟩

/-! ## Reset (spec/10_state.md R28) -/

/-- `STATUS` after reset: no fault and no phase flag (R28). -/
theorem status_reset : State.reset.status = 0#32 := by decide

/-- Settles O12: the fields of the state after reset, and every register read from them. -/
theorem resetLeavesCountsAndRegistersZero : Obligations.ResetLeavesCountsAndRegistersZero := by
  refine ⟨rfl, rfl, rfl, rfl, rfl, rfl, rfl, rfl, rfl, rfl, rfl, status_reset, rfl, rfl, rfl, rfl, fun n => ?_⟩
  by_cases hn : 15 < n
  · exact csrRead_unnumbered _ hn
  · interval_cases n <;> decide

/-- While no code table is valid, `FREQ`, `CODE` and the count of free values are no part of what makes a state
good (log 4, log 5). -/
theorem good_withTables {s : State} (h : Good s) (hct : s.flags.ctValid = false) (f : FreqTable) (c : CodeTable)
    (n : Nat) : Good { s with freq := f, code := c, freeCtr := n } := by
  obtain ⟨hstreams, hfaulted, hrun⟩ := h
  refine ⟨hstreams, hfaulted, fun he => ?_⟩
  obtain ⟨hbounds, harena, hheap, -, hkeys, htree⟩ := hrun he
  exact ⟨hbounds, harena, hheap, fun hv => absurd (hct.symm.trans hv) (by decide), hkeys, htree⟩

/-- Settles O60: the state after reset is what hardware reset leaves, with the model's choice of `FREQ` and `CODE`
(R220, log 4). -/
theorem resetIsGood : Obligations.ResetIsGood :=
  good_withTables (good_hardwareReset State.reset) rfl State.reset.freq State.reset.code 0

end Sys2Proof.Proofs

namespace Sys2Proof.Proofs

open Sys2Proof.Machine Sys2Proof.Laws

/-! ## The form of the memories (spec/20_memory.md R40) -/

/-- Both memories are in canonical form (log 3). -/
def MemoriesOk (s : State) : Prop := Memory.wf s.inMem = true ∧ Memory.wf s.out.mem = true

/-- Commands store by `Out` alone, and a store keeps the form (R45). -/
theorem keeps_outForm : Keeps fun s => Memory.wf s.out.mem = true :=
  keeps_out (Q := fun _ o => Memory.wf o.mem = true) (fun _ _ _ _ ho => wf_write _ _ _ ho) fun _ _ ho => ho

/-- A fault and `CLR` empty `OUT`, and no command writes `IN` (R11, R181, R201). -/
theorem exec_keeps_memoriesOk {i : Instr} {s t : State} (h : exec i s = .next t) (hs : MemoriesOk s) :
    MemoriesOk t := by
  obtain ⟨hin, hout⟩ := hs
  obtain ⟨hmem, -⟩ := noCommandWritesTheInput i s t h
  refine ⟨hmem ▸ hin, ?_⟩
  rcases exec_cases h with ⟨-, rfl⟩ | ⟨k, info, rfl⟩ | ⟨hb, hready⟩
  · exact hout
  · rfl
  · by_cases hi : i = .clr
    · subst hi
      cases hb
      rfl
    · exact keeps_outForm i s t hi (hready hi).2 hb hout

/-- Settles O54: the commands by `exec_keeps_memoriesOk`; a rejected word, a load and a reset each leave a memory as
it was, freshly loaded, or empty. -/
theorem stepKeepsMemoryForm : Obligations.StepKeepsMemoryForm := by
  intro s t h hin hout
  rcases step_cases h with ⟨-, rfl⟩ | ⟨rest, ⟨w, i, -, -, h⟩ | ⟨w, e, -, -, h⟩ | ⟨S, -, h⟩ | ⟨-, rfl⟩⟩
  · exact ⟨hin, hout⟩
  · exact exec_keeps_memoriesOk h ⟨hin, hout⟩
  · rcases rejectWord_cases w { s with port := rest } with ⟨-, e⟩ | ⟨-, e⟩ <;> rw [e] at h <;> cases h
    · exact ⟨hin, hout⟩
    · exact ⟨hin, rfl⟩
  · obtain ⟨-, -, rfl⟩ := hostLoad_next h
    exact ⟨wf_ofBytes S, hout⟩
  · exact ⟨rfl, rfl⟩

/-! ## `Out` of a sequence (spec/20_memory.md R45) -/

/-- Settles O16: the reads of `puts_ok`, inside and outside the appended stretch. -/
theorem outAppendsWhereThereIsRoom : Obligations.OutAppendsWhereThereIsRoom := by
  intro cap o vs hroom
  obtain ⟨o', hputs, hlen, hread⟩ := puts_ok cap o vs hroom
  refine ⟨o', hputs, hlen, fun k hk => ?_, fun a ha => ?_⟩
  · rw [hread, if_pos (by omega), Nat.add_sub_cancel_left]
  · rw [hread, if_neg (by omega)]

end Sys2Proof.Proofs

namespace Sys2Proof.Proofs

open Sys2Proof.Machine Sys2Proof.Laws

/-! ## Failing streams: the encoder (spec/20_memory.md R43, R45, spec/60_exceptions.md R190)

For each command that reads or writes a stream: what its pseudocode raises. -/

/-- A command whose pseudocode raises `IOFailure` ends with it (R191). -/
theorem ioFails_of_body (i : Instr) (hi : i ≠ .clr) {s : State} (he : s.err = 0#8)
    (hp : phaseReady i s.flags = true) {write : Bool} {pos : Word64}
    (hb : bodyOf i s = raise .ioFailure (ioInfo write pos)) : IoFails (exec i s) s write pos := by
  rw [exec_eq_accept hi, accept_ready _ he hp, hb]
  exact ioFails_raise s write pos

/-! ### The counter -/

/-- Counting what is left of a readable input (R90). -/
theorem freqCountBody_loaded {s : State} {S : List Byte} (hS : Loaded s S) (hp : s.inPos ≤ s.inLen)
    (hr : Readable s s.inPos s.inLen) :
    freqCountBody s = .ok { s with
      inPos := s.inLen, freq := countList zeroFreq (S.drop s.inPos.toNat), flags := flagsAfterCount s.flags } := by
  have hturns : s.inLen.toNat - s.inPos.toNat = (S.drop s.inPos.toNat).length := by
    rw [List.length_drop, toNat_inLen hS]
  rw [freqCountBody, hturns, countLoop_loaded hS _ s.inPos zeroFreq hp rfl hr]

theorem freqCountBody_fails {s : State} {S : List Byte} {a : Word64} (hS : Loaded s S) (hp : s.inPos ≤ a)
    (ha : a < s.inLen) (hf : a ∈ s.inFault) (hr : Readable s s.inPos a) : freqCountBody s = failureAt a := by
  rw [freqCountBody, countLoop_fails hS zeroFreq hp ha hf hr]
  rfl

/-! ### The emitter -/

theorem container_eq (t : CodeTable) (S : List Byte) : container t S = bitSection t S ++ trailerBytes t := by
  rw [container, trailerBytes_eq]
  simp only [List.append_assoc]

/-- From a readable input whose bytes all have codes, `EMIT` is `Out` of the container (R141). -/
theorem emitBody_loaded {s : State} {S : List Byte} (hS : Loaded s S) (hp : s.inPos ≤ s.inLen)
    (hr : Readable s s.inPos s.inLen) (hc : ∀ b ∈ S.drop s.inPos.toNat, (ctLookup s.code b).isSome = true) :
    emitBody s = (OutStream.puts s.outCap s.out.restart (container s.code (S.drop s.inPos.toNat))).map
      fun o => { s with inPos := s.inLen, out := o } := by
  have hturns : s.inLen.toNat - s.inPos.toNat = (S.drop s.inPos.toNat).length := by
    rw [List.length_drop, toNat_inLen hS]
  rw [emitBody, hturns, emitLoop_loaded hS _ s.inPos _ hp rfl hr, emitList_eq_puts _ _ _ hc, container_eq, puts_append]
  cases OutStream.puts s.outCap s.out.restart (bitSection s.code (S.drop s.inPos.toNat)) with
  | error e => rfl
  | ok o =>
    simp only
    cases OutStream.puts s.outCap o (trailerBytes s.code) <;> rfl

theorem emitBody_fails {s : State} {S : List Byte} {a : Word64} (hS : Loaded s S) (hp : s.inPos ≤ a) (ha : a < s.inLen)
    (hf : a ∈ s.inFault) (hr : Readable s s.inPos a)
    (hc : ∀ b ∈ (S.take a.toNat).drop s.inPos.toNat, (ctLookup s.code b).isSome = true)
    (hroom : (bitSection s.code ((S.take a.toNat).drop s.inPos.toNat)).length ≤ s.outCap.toNat) :
    emitBody s = failureAt a := by
  obtain ⟨o, ho, -⟩ := puts_ok s.outCap s.out.restart _ (show 0 + _ ≤ _ by rwa [Nat.zero_add])
  rw [emitBody, emitLoop_fails hS hp ha hf hr ((emitList_eq_puts _ _ _ hc).trans ho)]
  rfl

theorem emitBody_full {s : State} {S : List Byte} (hS : Loaded s S) (hp : s.inPos ≤ s.inLen)
    (hr : Readable s s.inPos s.inLen) (hc : ∀ b ∈ S.drop s.inPos.toNat, (ctLookup s.code b).isSome = true)
    (hfull : s.outCap.toNat < (container s.code (S.drop s.inPos.toNat)).length) :
    emitBody s = raise .ioFailure (ioInfo true s.outCap) := by
  rw [emitBody_loaded hS hp hr hc, puts_full _ (zero_le_word _) (hfull.trans_eq (Nat.zero_add _).symm)]
  rfl

/-! ### The composite command -/

/-- Once its first parts complete, `ENCODE` is its last (R142). -/
theorem encodeBody_eq_emitBody {s u v w : State} (hu : freqCountBody { s with inPos := 0#64 } = .ok u)
    (hv : treeBuildBody { u with inPos := 0#64 } = .ok v) (hw : codeGenBody v = .ok w) :
    encodeBody s = emitBody w := by
  simp only [encodeBody, rewindBody, bind, Except.bind, hu, hv, hw]

theorem encodeBody_fails {s : State} {S : List Byte} {a : Word64} (hS : Loaded s S) (ha : a < s.inLen)
    (hf : a ∈ s.inFault) (hr : Readable s 0#64 a) : encodeBody s = failureAt a := by
  have h : freqCountBody { s with inPos := 0#64 } = failureAt a := freqCountBody_fails hS (zero_le_word a) ha hf hr
  simp only [encodeBody, rewindBody, bind, Except.bind, h]
  rfl

/-- The bytes with a nonzero count are those that were counted. -/
theorem mem_presentBytes_count {S : List Byte} (hS : S.length < 2 ^ 64) (b : Byte) :
    b ∈ presentBytes (countList zeroFreq S) ↔ b ∈ S := by
  have hle : S.count b ≤ S.length := List.count_le_length
  have hcount : tget (countList zeroFreq S) b = 0#64 ↔ S.count b = 0 := by
    rw [tget_countList, zeroFreq, tget_replicate, BitVec.zero_add, ← BitVec.toNat_inj, BitVec.toNat_ofNat,
      Nat.mod_eq_of_lt (hle.trans_lt hS)]
    rfl
  rw [presentBytes, List.mem_filter, decide_eq_true_eq, Ne, hcount, ← Ne, ← Nat.pos_iff_ne_zero, List.count_pos_iff]
  exact and_iff_right (mem_byteValues b)

/-- The code table of a tree that was built has a code for exactly the bytes with a nonzero count (R131). -/
theorem codesOf_isSome_iff {f : FreqTable} {nodes : List Node} {root : Option NodeIx} {T : CodeTable} {n : BitVec 9}
    (hb : buildTree f = .ok (nodes, root)) (hc : codesOf nodes root = .ok (T, n)) (b : Byte) :
    (ctLookup T b).isSome = true ↔ b ∈ presentBytes f := by
  rcases buildTree_ok f with ⟨hnil, e⟩ | ⟨hne, -⟩
  · rw [e] at hb
    cases hb
    cases hc
    simp [hnil]
  · obtain ⟨ix, rs, rfl, hrs, hperm⟩ := buildTree_leaves hne hb
    simp only [codesOf, hrs, Except.ok.injEq] at hc
    have hnodup : (rs.map Prod.fst).Nodup := hperm.nodup_iff.2 (nodup_byteValues.filter _)
    rw [← hperm.mem_iff, Option.isSome_iff_exists, show T = (recordAll rs emptyCode 0#9).1 by rw [hc]]
    simp [ctLookup_recordAll_nodup hnodup]

/-- The codes `CODE_GEN` makes of the tree `TREE_BUILD` left (R121, R131). -/
theorem codeGenBody_isSome_iff {u v w : State} (hv : treeBuildBody u = .ok v) (hw : codeGenBody v = .ok w) (b : Byte) :
    (ctLookup w.code b).isSome = true ↔ b ∈ presentBytes u.freq := by
  obtain ⟨root, hbuild, e⟩ := treeBuildBody_ok hv
  refine codesOf_isSome_iff (root := root) (n := w.ctCnt) hbuild ?_ b
  have hroot : (if v.flags.rootValid then some v.root else none) = root := by
    rw [e]
    cases root <;> rfl
  rw [← hroot]
  exact (codeGenBody_ok hw).1

/-- A sequence that ends with no fault recorded completed its first part, and the rest from there (R66). -/
theorem runParts_cons_completed {i : Instr} {is : List Instr} {s t : State}
    (h : runParts (i :: is) s = .next t) (ht : t.err = 0#8) : ∃ u, bodyOf i s = .ok u ∧ runParts is u = .next t := by
  rw [runParts] at h
  split at h
  · rename_i u hu
    split at h
    · rename_i hue
      exact ⟨u, (exec_completed hu hue).1, h⟩
    · rename_i hue
      cases h
      exact absurd ht hue
  · cases h
  · cases h

/-- `ENCODE` of a readable input, once its parts before `EMIT` complete: the input is still loaded, the cursor stands
at its start, and every byte of it has a code (R142). -/
theorem encodeBody_of_parts {s t : State} {S : List Byte} (hS : Loaded s S) (hr : Readable s 0#64 s.inLen)
    (h : runParts [.inRewind, .freqCount, .inRewind, .treeBuild, .codeGen] s = .next t) (ht : t.err = 0#8) :
    encodeBody s = emitBody t ∧ SameInput s t ∧ t.inPos = 0#64 ∧
      ∀ b, (ctLookup t.code b).isSome = true ↔ b ∈ S := by
  obtain ⟨_, h₁, h⟩ := runParts_cons_completed h ht
  cases h₁
  obtain ⟨u, hu, h⟩ := runParts_cons_completed h ht
  obtain ⟨_, h₃, h⟩ := runParts_cons_completed h ht
  cases h₃
  obtain ⟨v, hv, h⟩ := runParts_cons_completed h ht
  obtain ⟨w, hw, h⟩ := runParts_cons_completed h ht
  cases h
  have hcount : freqCountBody { s with inPos := 0#64 } = _ := freqCountBody_loaded hS (zero_le_word _) hr
  have hfreq : u.freq = countList zeroFreq S := by
    cases hu.symm.trans hcount
    rfl
  obtain ⟨_, -, ev⟩ := treeBuildBody_ok hv
  have hsame : SameInput s t := by
    rw [(codeGenBody_ok hw).2, ev, (freqCountBody_ok hu).2]
    exact ⟨rfl, rfl, rfl, rfl, rfl⟩
  refine ⟨encodeBody_eq_emitBody hu hv hw, hsame, by rw [(codeGenBody_ok hw).2, ev], fun b => ?_⟩
  rw [codeGenBody_isSome_iff hv hw b, hfreq]
  exact mem_presentBytes_count hS.2.2 b

theorem encodeBody_full {s t : State} {S : List Byte} (hS : Loaded s S) (hr : Readable s 0#64 s.inLen)
    (h : runParts [.inRewind, .freqCount, .inRewind, .treeBuild, .codeGen] s = .next t) (ht : t.err = 0#8)
    (hfull : s.outCap.toNat < (container t.code S).length) :
    encodeBody s = raise .ioFailure (ioInfo true s.outCap) := by
  obtain ⟨hemit, ⟨hmem, hlen, hcap, hfault, -⟩, hpos, hcodes⟩ := encodeBody_of_parts hS hr h ht
  have hall : S.drop t.inPos.toNat = S := by rw [hpos]; rfl
  have hS' : Loaded t S := by rwa [Loaded, hmem, hlen]
  rw [hemit, ← hcap]
  refine emitBody_full hS' (hpos ▸ zero_le_word _) ?_ (fun b hb => (hcodes b).2 (hall ▸ hb)) (by rwa [hall, hcap])
  rwa [Readable, hpos, hlen, hfault]

end Sys2Proof.Proofs

namespace Sys2Proof.Proofs

open Sys2Proof.Machine Sys2Proof.Laws

/-! ## Parsing a container of the grammar (spec/46_decoder.md R160, R161, spec/30_encoding.md R73) -/

/-- The search answers the first place of the marker (R161). -/
theorem findMarker_of_firstMarker {s : State} {S : List Byte} {m : Nat} (hS : Loaded s S) (hr : ReadableFrom s 0)
    (hm : FirstMarker S m) : findMarker s = .ok (some m) := by
  obtain ⟨hat, hfirst⟩ := hm
  have hle := markerAt_le hat
  have hl : marker.length = 22 := rfl
  obtain ⟨r, hfind, hspec⟩ := markerFrom_loaded hS (S.length + 1 - 22) hr (Nat.le_refl _)
  rw [findMarker, toNat_inLen hS, hl, hfind]
  cases r with
  | none => exact absurd hat (hspec m (Nat.zero_le _) (by omega))
  | some k =>
    obtain ⟨-, -, hk, hbefore⟩ := hspec
    rcases Nat.lt_trichotomy k m with hlt | rfl | hgt
    · exact absurd hk (hfirst k hlt)
    · rfl
    · exact absurd hat (hbefore m (Nat.zero_le _) hgt)

/-- The section ends before the newline that stands before the marker, if one does (R160). -/
theorem sectionEnd_loaded {s : State} {sec rest : List Byte} {nl : Bool} (hS : Loaded s (sec ++ sectionNL nl ++ rest))
    (hr : ReadableFrom s 0) (hnl : nl = false → sec.getLast? ≠ some charNL) :
    sectionEnd s (sec ++ sectionNL nl).length = .ok sec.length := by
  cases nl with
  | true =>
    have hbyte : (sec ++ sectionNL true ++ rest)[sec.length]? = some charNL := by simp [sectionNL]
    have hlen : (sec ++ sectionNL true).length = sec.length + 1 := by simp [sectionNL]
    rw [sectionEnd, hlen, if_neg (Nat.succ_ne_zero _), Nat.add_sub_cancel,
      memReadAt_loaded hS (hr.mono (Nat.zero_le _)) hbyte]
    rfl
  | false =>
    simp only [sectionNL, Bool.false_eq_true, if_false, List.append_nil] at hS ⊢
    rcases List.eq_nil_or_concat sec with rfl | ⟨init, b, rfl⟩
    · rfl
    · have hb : b ≠ charNL := fun e => hnl rfl (by simp [e])
      have hbyte : (init.concat b ++ rest)[init.length]? = some b := by simp
      rw [sectionEnd, List.length_concat, if_neg (Nat.succ_ne_zero _), Nat.add_sub_cancel,
        memReadAt_loaded hS (hr.mono (Nat.zero_le _)) hbyte]
      simp only [if_neg hb]

/-- The records begin behind the newline after the marker, or there are none (R160). -/
theorem recordsStart_loaded {s : State} {before : List Byte} {tail : Option (List RltEntry)}
    (hS : Loaded s (before ++ tailBytes tail)) (hr : ReadableFrom s 0) :
    ∃ p, recordsStart s before.length = .ok p ∧
      (before ++ tailBytes tail).drop p = recordsBytes (tail.getD []) := by
  have hlen := toNat_inLen hS
  cases tail with
  | none =>
    simp only [tailBytes, List.append_nil] at hlen ⊢
    exact ⟨before.length, by rw [recordsStart, hlen, if_neg (Nat.lt_irrefl _)], List.drop_length⟩
  | some recs =>
    have hbyte : (before ++ tailBytes (some recs))[before.length]? = some charNL := by simp [tailBytes]
    have hlt : before.length < s.inLen.toNat := by rw [hlen]; simp [tailBytes]
    refine ⟨before.length + 1, ?_, ?_⟩
    · rw [recordsStart, if_pos hlt, memReadAt_loaded hS (hr.mono (Nat.zero_le _)) hbyte]
      rfl
    · rw [List.drop_length_add_append]
      rfl

/-- A readable container of the grammar is parsed to its records and its section's end (R73, R160). -/
theorem parseContainer_loaded {s : State} {sec : List Byte} {nl : Bool} {tail : Option (List RltEntry)}
    (hS : Loaded s (containerForm sec nl tail)) (hr : ReadableFrom s 0)
    (hsec : SectionMeant sec nl (containerForm sec nl tail)) (hok : RecordsOk (tail.getD [])) :
    ∃ m, parseContainer s = .ok (⟨tail.getD [], m⟩, sec.length) ∧ m.toNat = longestKey (tail.getD []) := by
  obtain ⟨hnl, hfirst⟩ := hsec
  have hfind := findMarker_of_firstMarker hS hr hfirst
  have hend : sectionEnd s (sec ++ sectionNL nl).length = .ok sec.length :=
    sectionEnd_loaded (rest := marker ++ tailBytes tail) (by rw [← List.append_assoc]; exact hS) hr hnl
  obtain ⟨p, hstart, hdrop⟩ := recordsStart_loaded (before := sec ++ sectionNL nl ++ marker) hS hr
  rw [List.length_append] at hstart
  obtain ⟨m, hrecs, hlongest⟩ := readRecords_loaded hS (tail.getD []) (s.inLen.toNat - p) (hr.mono (Nat.zero_le p))
    ⟨[], 0#8⟩ hdrop (by rw [toNat_inLen hS]) hok rfl
  refine ⟨m, ?_, hlongest⟩
  simp only [parseContainer, bind, Except.bind, hfind, hend, hstart, hrecs]
  rfl

/-- `DEC_PARSE` of a readable container of the grammar (R160). -/
theorem decParseBody_loaded {s : State} {sec : List Byte} {nl : Bool} {tail : Option (List RltEntry)}
    (hS : Loaded s (containerForm sec nl tail)) (hr : ReadableFrom s 0)
    (hsec : SectionMeant sec nl (containerForm sec nl tail)) (hok : RecordsOk (tail.getD [])) :
    ∃ m, m.toNat = longestKey (tail.getD []) ∧ decParseBody s = .ok { s with
      inPos := 0#64, out := s.out.restart, rlt := tail.getD [], maxLen := m, cand := [],
      secEnd := BitVec.ofNat 64 sec.length, flags := flagsAfterParse s.flags } := by
  obtain ⟨m, hparse, hlongest⟩ := parseContainer_loaded hS hr hsec hok
  refine ⟨m, hlongest, ?_⟩
  unfold decParseBody
  rw [hparse]

/-! ## Failing streams: the decoder (spec/20_memory.md R43, R45, spec/60_exceptions.md R190) -/

theorem decParseBody_fails {s : State} {sec : List Byte} {nl : Bool} {tail : Option (List RltEntry)} {a : Word64}
    (hS : Loaded s (containerForm sec nl tail)) (hsec : SectionMeant sec nl (containerForm sec nl tail))
    (hok : RecordsOk (tail.getD [])) (ha : a < s.inLen) (hf : a ∈ s.inFault) (hr : Readable s 0#64 a) :
    decParseBody s = failureAt a := by
  obtain ⟨m, hparse, -⟩ := parseContainer_loaded (s := unfailing s) hS (fun _ hx => absurd hx List.not_mem_nil) hsec hok
  unfold decParseBody
  rw [parseContainer_fails (firstFailure_of hS ha hf hr) hparse]
  rfl

/-- A failing part of `DECODE` ends the whole (R66). -/
theorem decodeBody_of_decParseBody_raise {s : State} {k : FaultKind} {info : Word64}
    (h : decParseBody s = raise k info) : decodeBody s = raise k info := by
  simp only [decodeBody, bind, Except.bind, h]
  rfl

theorem decodeBody_eq_decScanBody {s u : State} (h : decParseBody s = .ok u) : decodeBody s = decScanBody u := by
  simp only [decodeBody, bind, Except.bind, h]

theorem decScanBody_fails {s : State} {S : List Byte} {a : Word64} {syms : List RltEntry} {rest : Code}
    (hS : Loaded s S) (he : s.secEnd ≤ s.inLen) (hready : ScanReady s) (hp : s.inPos ≤ a) (ha : a < s.secEnd)
    (hf : a ∈ s.inFault) (hr : Readable s s.inPos a)
    (hsplit : ScanSplit s ((S.take a.toNat).drop s.inPos.toNat) syms rest) (hrest : rest.length ≤ s.maxLen.toNat) :
    decScanBody s = failureAt a := by
  obtain ⟨hkeys, hlong, hcand⟩ := hready
  obtain ⟨hbits, hmatch, hnokey, hroom⟩ := hsplit
  have hscan := scanList_keys s hkeys hlong syms rest _ s.inPos s.cand s.out hmatch hcand hbits hrest hnokey
  obtain ⟨o, ho, -⟩ := puts_ok s.outCap s.out (syms.map RltEntry.sym) (by rwa [List.length_map])
  rw [ho] at hscan
  rw [decScanBody, scanLoop_fails hS he hp ha hf hr hscan]
  rfl

theorem decScanBody_full {s : State} {S : List Byte} {syms : List RltEntry} (hS : Loaded s S)
    (he : s.secEnd ≤ s.inLen) (hready : ScanReady s) (hp : s.inPos ≤ s.secEnd) (hr : Readable s s.inPos s.secEnd)
    (hmatch : ∀ e ∈ syms, Matchable s.rlt e)
    (hbits : s.cand ++ sectionBits (charsLeft s S) = syms.flatMap RltEntry.code) (ho : s.out.len ≤ s.outCap)
    (hfull : s.outCap.toNat < s.out.len.toNat + syms.length) :
    decScanBody s = raise .ioFailure (ioInfo true s.outCap) := by
  obtain ⟨hkeys, hlong, hcand⟩ := hready
  have hscan := scanList_keys s hkeys hlong syms [] _ s.inPos s.cand s.out hmatch hcand
    (hbits.trans (List.append_nil _).symm) (Nat.zero_le _) (not_prefix_nil hkeys)
  rw [puts_full _ ho (by rwa [List.length_map])] at hscan
  rw [decScanBody, scanLoop_charsLeft hS he hp hr, hscan]
  rfl

/-- The state `DEC_PARSE` leaves of a container of the grammar is ready for a scan (R17, R160). -/
theorem scanReady_parsed {s : State} (hkeys : RltKeys s.rlt) (hlong : s.maxLen.toNat = longestKey s.rlt)
    (hcand : s.cand = []) : ScanReady s :=
  ⟨hkeys, fun _ he => hlong ▸ le_longestKey he, fun e he => hcand ▸ not_prefix_nil hkeys e he⟩

theorem decodeBody_full {s : State} {sec : List Byte} {nl : Bool} {tail : Option (List RltEntry)}
    {syms : List RltEntry} (hS : Loaded s (containerForm sec nl tail)) (hr : Readable s 0#64 s.inLen)
    (hsec : SectionMeant sec nl (containerForm sec nl tail)) (hok : RecordsOk (tail.getD []))
    (hmatch : ∀ e ∈ syms, Matchable (tail.getD []) e) (hbits : sectionBits sec = syms.flatMap RltEntry.code)
    (hfull : s.outCap.toNat < syms.length) : decodeBody s = raise .ioFailure (ioInfo true s.outCap) := by
  obtain ⟨m, hlong, hparse⟩ := decParseBody_loaded hS (readableFrom_zero hr) hsec hok
  have hlen : sec.length ≤ (containerForm sec nl tail).length := by simp [containerForm]
  have hend : (BitVec.ofNat 64 sec.length).toNat = sec.length := by
    have h64 := hS.2.2
    rw [BitVec.toNat_ofNat]
    omega
  have hle : BitVec.ofNat 64 sec.length ≤ s.inLen := by rw [BitVec.le_def, hend, toNat_inLen hS]; exact hlen
  rw [decodeBody_eq_decScanBody hparse]
  refine decScanBody_full hS hle (scanReady_parsed hok.2 hlong rfl) (zero_le_word _) ?_ hmatch ?_ (zero_le_word _)
    (hfull.trans_eq (Nat.zero_add _).symm)
  · intro x hx ⟨hlo, hhi⟩
    rw [BitVec.le_def] at hle
    rw [BitVec.lt_def] at hhi
    exact hr x hx ⟨hlo, BitVec.lt_def.2 (hhi.trans_le hle)⟩
  · rw [charsLeft, hend, containerForm, List.append_assoc, List.append_assoc, List.take_left]
    exact hbits

/-- A bit that completes a key, with the output full (R152). -/
theorem vmPushBody_full {s : State} {ch : Byte} {bit : Bool} {r : Byte} (hch : bitOfChar ch = some bit)
    (hfind : rltFind s.rlt (s.cand ++ [bit]) = some r) (hlen : s.out.len = s.outCap) :
    vmPushBody ch s = raise .ioFailure (ioInfo true s.out.len) := by
  have hput : OutStream.put s.outCap s.out r = raise .ioFailure (ioInfo true s.out.len) := if_pos hlen
  rw [vmPushBody, vmStep_match s _ _ hch hfind, hput]
  rfl

/-- Settles O19: each command by what its pseudocode raises. -/
theorem streamFailuresRaiseIoFailure : Obligations.StreamFailuresRaiseIoFailure := by
  refine ⟨?failingRead, ?fullOutput, ?parse, ?decode, ?scan, ?push⟩
  case failingRead =>
    intro s S a he hS ha hf
    refine ⟨fun hp hr => ⟨?_, fun hct hc hroom => ?_⟩, fun hr => ?_⟩
    · exact ioFails_of_body .freqCount (by rintro ⟨⟩) he rfl (freqCountBody_fails hS hp ha hf hr)
    · exact ioFails_of_body .emit (by rintro ⟨⟩) he hct (emitBody_fails hS hp ha hf hr hc hroom)
    · exact ioFails_of_body .encode (by rintro ⟨⟩) he rfl (encodeBody_fails hS ha hf hr)
  case fullOutput =>
    intro s S he hS
    refine ⟨fun hct hp hr hc hfull => ?_, fun t hr hparts ht hfull => ?_⟩
    · exact ioFails_of_body .emit (by rintro ⟨⟩) he hct (emitBody_full hS hp hr hc hfull)
    · exact ioFails_of_body .encode (by rintro ⟨⟩) he rfl (encodeBody_full hS hr hparts ht hfull)
  case parse =>
    intro s sec nl tail a he hS hsec hok ha hf hr
    have hparse := decParseBody_fails hS hsec hok ha hf hr
    exact ⟨ioFails_of_body .decParse (by rintro ⟨⟩) he rfl hparse,
      ioFails_of_body .decode (by rintro ⟨⟩) he rfl (decodeBody_of_decParseBody_raise hparse)⟩
  case decode =>
    intro s sec nl tail syms he hS hr hsec hok hmatch hbits hfull
    exact ioFails_of_body .decode (by rintro ⟨⟩) he rfl (decodeBody_full hS hr hsec hok hmatch hbits hfull)
  case scan =>
    intro s S syms he hrlt hS hse hready
    refine ⟨fun a rest hp ha hf hr hsplit hrest => ?_, fun hp hr hmatch hbits ho hfull => ?_⟩
    · exact ioFails_of_body .decScan (by rintro ⟨⟩) he hrlt (decScanBody_fails hS hse hready hp ha hf hr hsplit hrest)
    · exact ioFails_of_body .decScan (by rintro ⟨⟩) he hrlt (decScanBody_full hS hse hready hp hr hmatch hbits ho hfull)
  case push =>
    intro s ch bit r he hrlt hch hfind hlen
    exact ioFails_of_body (.vmPush ch) (by rintro ⟨⟩) he hrlt
      (vmPushBody_full (bitOfChar_eq_some.2 hch) hfind hlen)

end Sys2Proof.Proofs

namespace Sys2Proof.Proofs

/-! ## Command words by their fields (spec/30_encoding.md R60) -/

section Fields

variable (op rsv : Byte) (b : BitVec 16) (a : Word64) (w : CommandWord)

@[simp] theorem opField_append : opField (op ++ rsv ++ b ++ a) = op :=
  (BitVec.extractLsb'_append_eq_of_le (by decide)).trans <|
    (BitVec.extractLsb'_append_eq_of_le (by decide)).trans BitVec.extractLsb'_append_eq_left

@[simp] theorem rsvField_append : rsvField (op ++ rsv ++ b ++ a) = rsv :=
  (BitVec.extractLsb'_append_eq_of_le (by decide)).trans <|
    (BitVec.extractLsb'_append_eq_of_le (by decide)).trans BitVec.extractLsb'_append_eq_right

@[simp] theorem bField_append : bField (op ++ rsv ++ b ++ a) = b :=
  (BitVec.extractLsb'_append_eq_of_le (by decide)).trans BitVec.extractLsb'_append_eq_right

@[simp] theorem aField_append : aField (op ++ rsv ++ b ++ a) = a :=
  BitVec.extractLsb'_append_eq_right

/-- The four fields are the whole word, most significant first. -/
theorem fields_append : opField w ++ rsvField w ++ bField w ++ aField w = w := by
  rw [opField, rsvField, BitVec.extractLsb'_append_extractLsb'_eq_extractLsb' (by decide), bField,
    BitVec.extractLsb'_append_extractLsb'_eq_extractLsb' (by decide), aField,
    BitVec.extractLsb'_append_extractLsb'_eq_extractLsb' (by decide)]
  exact BitVec.extractLsb'_eq_self

/-- R63's `word & mask == match`, field by field. -/
theorem and_append_eq_append_iff (mop mrsv op rsv : Byte) (mb b : BitVec 16) (ma a : Word64) :
    w &&& (mop ++ mrsv ++ mb ++ ma) = op ++ rsv ++ b ++ a ↔
      opField w &&& mop = op ∧ rsvField w &&& mrsv = rsv ∧ bField w &&& mb = b ∧ aField w &&& ma = a := by
  conv_lhs => rw [← fields_append w, BitVec.and_append, BitVec.and_append, BitVec.and_append]
  constructor
  · intro h
    exact ⟨by simpa using congrArg opField h, by simpa using congrArg rsvField h,
      by simpa using congrArg bField h, by simpa using congrArg aField h⟩
  · rintro ⟨rfl, rfl, rfl, rfl⟩
    rfl

end Fields

/-! ## The operands of a command (spec/30_encoding.md R62) -/

/-- The low `m` bits of a word, widened again, are the word under a mask of `m` ones. -/
theorem setWidth_extractLsb'_zero {n : Nat} (x : BitVec n) (m : Nat) :
    (x.extractLsb' 0 m).setWidth n = x &&& (BitVec.allOnes m).setWidth n := by
  ext j hj
  simp [hj, Bool.and_comm]

/-- A word with no bit outside a mask is not changed by the mask. -/
theorem and_eq_self_of_and_not_eq_zero {n : Nat} {x m : BitVec n} (h : x &&& ~~~m = 0#n) : x &&& m = x := by
  calc x &&& m = (x &&& m) ||| (x &&& ~~~m) := by rw [h, BitVec.or_zero]
    _ = x := by ext; simp [← Bool.and_or_distrib_left]

/-- A widened word has no bit outside the ones of its own width. -/
theorem setWidth_and_not_allOnes {m n : Nat} (x : BitVec m) :
    x.setWidth n &&& ~~~(BitVec.allOnes m).setWidth n = 0#n := by
  ext j hj
  simpa using BitVec.lt_of_getLsbD

/-- The low `m` bits of a widened `m`-bit word are the word. -/
theorem extractLsb'_setWidth {m n : Nat} (hmn : m ≤ n) (x : BitVec m) : (x.setWidth n).extractLsb' 0 m = x := by
  rw [← BitVec.setWidth_eq_extractLsb' hmn, BitVec.setWidth_setWidth_of_le x hmn, BitVec.setWidth_eq]

/-- A command's operand B has no bit outside those it uses. -/
theorem operandB_and_not_usedB (i : Instr) : i.operandB &&& ~~~usedB i = 0#16 := by
  cases i with
  | pqInsert key node => exact setWidth_and_not_allOnes node
  | vmPush ch => exact setWidth_and_not_allOnes ch
  | _ => rfl

/-- A command that does not use operand A has it 0. -/
theorem operandA_eq_zero {i : Instr} (hi : usesA i = false) : i.operandA = 0#64 := by
  cases i with
  | pqInsert key node => cases hi
  | _ => rfl

/-! ## The command of an opcode (spec/30_encoding.md R61) -/

/-- Each command once, in the order of the opcode table, with its operands taken from the fields `b` and `a`. -/
def commandsWith (b : BitVec 16) (a : Word64) : List Instr :=
  [.clr, .inRewind, .pqInsert a (b.extractLsb' 0 9), .pqExtractMin, .pqPeek, .freqCount, .treeBuild, .codeGen, .emit,
    .encode, .decParse, .decScan, .vmPush (b.extractLsb' 0 8), .decode]

/-- A search for an opcode asks the first command first. -/
theorem find?_opcode_cons (op : Byte) (i : Instr) (l : List Instr) :
    (i :: l).find? (op = ·.opcode) = if op = i.opcode then some i else l.find? (op = ·.opcode) := by
  by_cases h : op = i.opcode <;> simp [h]

/-- The decoder's choice by opcode is a search of the commands. -/
theorem instrOfOp_eq_find? (op : Byte) (b : BitVec 16) (a : Word64) :
    instrOfOp op b a = (commandsWith b a).find? (op = ·.opcode) := by
  simp only [commandsWith, find?_opcode_cons, List.find?_nil]
  rfl

/-- No earlier command has the same opcode. -/
theorem instrOfOp_opcode {b : BitVec 16} {a : Word64} :
    ∀ i ∈ commandsWith b a, instrOfOp i.opcode b a = some i := by
  simp only [commandsWith, List.forall_mem_cons]
  exact ⟨rfl, rfl, rfl, rfl, rfl, rfl, rfl, rfl, rfl, rfl, rfl, rfl, rfl, rfl, List.forall_mem_nil _⟩

/-- An opcode names the one command that has it. -/
theorem instrOfOp_eq_some_iff {op : Byte} {b : BitVec 16} {a : Word64} {i : Instr} :
    instrOfOp op b a = some i ↔ i ∈ commandsWith b a ∧ i.opcode = op := by
  constructor
  · intro h
    rw [instrOfOp_eq_find?] at h
    exact ⟨List.mem_of_find?_eq_some h, by simpa [eq_comm] using List.find?_some h⟩
  · rintro ⟨hmem, rfl⟩
    exact instrOfOp_opcode i hmem

/-- Every command is among those with its own operands. -/
theorem mem_commandsWith_operands (i : Instr) : i ∈ commandsWith i.operandB i.operandA := by
  cases i with
  | pqInsert key node => simp [commandsWith, Instr.operandB, Instr.operandA, extractLsb'_setWidth]
  | vmPush ch => simp [commandsWith, Instr.operandB, extractLsb'_setWidth]
  | _ => simp [commandsWith]

/-- The operands of a command with the fields `b` and `a` are the bits it uses. -/
theorem operands_of_mem_commandsWith {b : BitVec 16} {a : Word64} :
    ∀ i ∈ commandsWith b a, i.operandB = b &&& usedB i ∧ i.operandA = if usesA i then a else 0#64 := by
  have node := setWidth_extractLsb'_zero b 9
  have ch := setWidth_extractLsb'_zero b 8
  simpa [commandsWith, Instr.operandB, Instr.operandA, usedB, usesA] using And.intro node ch

/-! ## The rows of the opcode table and the decoder (spec/30_encoding.md R63) -/

/-- The row of the opcode table for a command. -/
def rowOf (i : Instr) : OpcodeRow where
  mnemonic := i.mnemonic
  fixed := i.opcode ++ 0#8 ++ 0#16 ++ 0#64
  mask := 0xFF#8 ++ 0xFF#8 ++ ~~~usedB i ++ if usesA i then 0#64 else BitVec.allOnes 64

/-- The rows are those of the commands, in the table's order; no row depends on the values of the operands. -/
theorem opcodeTable_eq_map (b : BitVec 16) (a : Word64) : opcodeTable = (commandsWith b a).map rowOf :=
  calc opcodeTable = (commandsWith 0#16 0#64).map rowOf := by decide
    _ = (commandsWith b a).map rowOf := rfl

/-- A command's row fixes `op`, and asks 0 of `rsv` and of the operand bits that the command does not use. -/
theorem rowOf_admits_iff (i : Instr) (w : CommandWord) :
    (rowOf i).admits w = true ↔ opField w = i.opcode ∧ rsvField w = 0#8 ∧ bField w &&& ~~~usedB i = 0#16 ∧
      (usesA i = false → aField w = 0#64) := by
  have hop (x : Byte) : x &&& 0xFF#8 = x := BitVec.and_allOnes
  have ha : aField w &&& (if usesA i then 0#64 else BitVec.allOnes 64) = 0#64 ↔
      (usesA i = false → aField w = 0#64) := by
    cases usesA i <;> simp [-BitVec.reduceAllOnes]
  rw [OpcodeRow.admits, beq_iff_eq, rowOf, and_append_eq_append_iff, hop, hop, ha]

/-- The decoder accepts a word as the command of its fields whose row admits it. -/
theorem decode_eq_ok_iff {w : CommandWord} {i : Instr} :
    decode w = .ok i ↔ i ∈ commandsWith (bField w) (aField w) ∧ (rowOf i).admits w = true := by
  rw [rowOf_admits_iff, decode]
  constructor
  · intro h
    split at h
    · cases h
    · next j hj =>
      obtain ⟨hmem, hop⟩ := instrOfOp_eq_some_iff.1 hj
      split_ifs at h with hrsv hb ha
      cases h
      exact ⟨hmem, hop.symm, of_not_not hrsv, of_not_not hb, by simpa using ha⟩
  · rintro ⟨hmem, hop, hrsv, hb, ha⟩
    simpa [instrOfOp_eq_some_iff.2 ⟨hmem, hop.symm⟩, hrsv, hb] using ha

/-- A word is legal when the row of a command with the word's own fields admits it. -/
theorem legal_iff {w : CommandWord} :
    legal w = true ↔ ∃ i ∈ commandsWith (bField w) (aField w), (rowOf i).admits w = true := by
  rw [legal, opcodeTable_eq_map, List.any_map, List.any_eq_true]
  rfl

/-! ## Decoder, encoder and table agree (spec/30_encoding.md R60 to R64) -/

/-- Settles O1: the word's fields are the command's own opcode and operands. -/
theorem decodeOfEncode : Obligations.DecodeOfEncode := by
  intro i
  rw [decode_eq_ok_iff, rowOf_admits_iff, encode]
  simp only [opField_append, rsvField_append, bField_append, aField_append, true_and]
  exact ⟨mem_commandsWith_operands i, operandB_and_not_usedB i, operandA_eq_zero⟩

/-- Settles O2: a field of a legal word is what the command uses of it, the rest being 0. -/
theorem encodeOfDecode : Obligations.EncodeOfDecode := by
  intro w i h
  obtain ⟨hmem, hrow⟩ := decode_eq_ok_iff.1 h
  obtain ⟨hop, hrsv, hb, ha⟩ := (rowOf_admits_iff i w).1 hrow
  obtain ⟨hB, hA⟩ := operands_of_mem_commandsWith i hmem
  have hB' : i.operandB = bField w := hB.trans (and_eq_self_of_and_not_eq_zero hb)
  have hA' : i.operandA = aField w := by
    cases huses : usesA i with
    | true => rw [hA, if_pos huses]
    | false => rw [operandA_eq_zero huses, ha huses]
  rw [encode, ← hop, ← hrsv, hB', hA', fields_append]

/-- Settles O3: decoder and table ask the same of the commands with the word's fields. -/
theorem decoderAcceptsExactlyLegalWords : Obligations.DecoderAcceptsExactlyLegalWords := by
  intro w
  simp only [decode_eq_ok_iff, legal_iff]

/-- Settles O4: the accepted words are the decoder's own tests; each refused word fails one check. -/
theorem specWordsDecode : Obligations.SpecWordsDecode := by
  refine ⟨decode_word_clr, decode_word_inRewind, decode_word_pqInsert, decode_word_pqExtractMin,
    decode_word_treeBuild, decode_word_codeGen, decode_word_encode, decode_word_decode, decode_word_vmPush, ?_⟩
  decide

end Sys2Proof.Proofs

namespace Sys2Proof.Proofs

open Sys2Proof.Machine Sys2Proof.Laws

/-! ## The frequency counter (spec/40_frequency_counter.md R90, R91) -/

/-- A command that is ready and whose pseudocode completes ends in what the pseudocode answers (R180). -/
theorem exec_of_body {i : Instr} (hi : i ≠ .clr) {s t : State} (he : s.err = 0#8)
    (hp : phaseReady i s.flags = true) (hb : bodyOf i s = .ok t) : exec i s = .next t := by
  rw [exec_eq_accept hi, accept_ready _ he hp, hb, settle_ok]

/-- From cleared counters each counter is the number of occurrences of its byte value. -/
theorem tget_countList_zeroFreq (bs : List Byte) (b : Byte) :
    tget (countList zeroFreq bs) b = BitVec.ofNat 64 (bs.count b) := by
  rw [tget_countList, zeroFreq, tget_replicate, BitVec.zero_add]

/-- Settles O18: the counters are those of `freqCountBody_loaded`, read by `tget_countList_zeroFreq`. -/
theorem freqCountCountsRemainingBytes : Obligations.FreqCountCountsRemainingBytes := by
  intro s S he hS hp hr
  have hbody : bodyOf .freqCount s = .ok _ := freqCountBody_loaded hS hp hr
  exact ⟨countList zeroFreq (S.drop s.inPos.toNat), exec_of_body (by rintro ⟨⟩) he rfl hbody,
    tget_countList_zeroFreq _⟩

/-- Settles O17: the command asks for no phase flag, and its pseudocode completes in every state. -/
theorem inRewindSetsCursorToZero : Obligations.InRewindSetsCursorToZero :=
  fun _ he => exec_of_body (by rintro ⟨⟩) he rfl rfl

end Sys2Proof.Proofs

namespace Sys2Proof.Proofs

open Sys2Proof.Machine Sys2Proof.Laws

/-! ## The priority queue (spec/41_priority_queue.md R101 to R106) -/

/-- Settles O20: the entries are those of `pqInsert_cases`, the moves those of `pqInsert_rises`, the order that of
`heapOrdered_pqInsert`. -/
theorem pqInsertAddsEntryAndKeepsOrder : Obligations.PqInsertAddsEntryAndKeepsOrder := by
  intro s key node he hroom
  rcases pqInsert_cases s.heap ⟨key, node⟩ with ⟨hfull, _⟩ | ⟨_, h, hins, hperm, _⟩
  · omega
  · have hbody : bodyOf (.pqInsert key node) s = .ok { s with heap := h } := by
      simp only [bodyOf, pqInsertBody, hins]
    exact ⟨h, exec_of_body (by rintro ⟨⟩) he rfl hbody, hperm, pqInsert_rises hins, (heapOrdered_pqInsert · hins)⟩

/-- Settles O22: the entries are those of `perm_removeRoot`, the moves those of `removeRoot_sinks`, the order that of
`heapOrdered_removeRoot`. -/
theorem pqExtractMinReturnsMinimum : Obligations.PqExtractMinReturnsMinimum := by
  intro s r rest he hheap
  have hbody : bodyOf .pqExtractMin s =
      .ok { s with heap := removeRoot (r :: rest), resA := r.key, resB := r.node.setWidth 16 } := by
    simp only [bodyOf, pqExtractMinBody, pqExtract, hheap, List.head?_cons]
  refine ⟨_, exec_of_body (by rintro ⟨⟩) he rfl hbody, perm_removeRoot r rest, ?_, fun ho => ?_⟩
  · rintro init last rfl
    exact removeRoot_sinks r init last
  · rw [hheap] at ho ⊢
    exact ⟨heapOrdered_removeRoot ho, fun _ => root_le_mem ho⟩

/-- As many extractions as a queue has entries return every entry once (R102). -/
theorem perm_drain (n : Nat) (h : List HeapEntry) (hn : h.length = n) : (drain n h).Perm h := by
  induction n generalizing h with
  | zero => rw [List.eq_nil_of_length_eq_zero hn, drain]
  | succ n ih =>
    rcases pqExtract_cases h with ⟨rfl, _⟩ | ⟨r, rest, rfl, hx, hperm⟩
    · cases hn
    · have hlen : (removeRoot (r :: rest)).length = n := hperm.length_eq.trans (Nat.succ.inj hn)
      simp only [drain, hx]
      exact ((ih _ hlen).trans hperm).cons r

/-- Extractions from a queue in heap order return keys that never decrease: each root is at most every entry that
remains (R106). -/
theorem pairwise_drain (n : Nat) (h : List HeapEntry) (hn : h.length = n) (ho : HeapOrdered h) :
    (drain n h).Pairwise fun x y => x.key ≤ y.key := by
  induction n generalizing h with
  | zero => exact .nil
  | succ n ih =>
    rcases pqExtract_cases h with ⟨rfl, _⟩ | ⟨r, rest, rfl, hx, hperm⟩
    · cases hn
    · have hlen : (removeRoot (r :: rest)).length = n := hperm.length_eq.trans (Nat.succ.inj hn)
      simp only [drain, hx]
      refine .cons (fun e he => root_le_mem ho ?_) (ih _ hlen (heapOrdered_removeRoot ho))
      exact .tail _ (((perm_drain n _ hlen).trans hperm).mem_iff.1 he)

/-- Settles O24: the entries are those of `perm_drain`, in the order of `pairwise_drain`. -/
theorem successiveExtractionsAreSorted : Obligations.SuccessiveExtractionsAreSorted :=
  fun h ho => ⟨perm_drain _ h rfl, pairwise_drain _ h rfl ho⟩

/-- Settles O23: the pseudocode reads the root. -/
theorem pqPeekReturnsRoot : Obligations.PqPeekReturnsRoot := by
  intro s r rest he hheap
  have hbody : bodyOf .pqPeek s = .ok { s with resA := r.key, resB := r.node.setWidth 16 } := by
    simp only [bodyOf, pqPeekBody, hheap, List.head?_cons]
  exact exec_of_body (by rintro ⟨⟩) he rfl hbody

end Sys2Proof.Proofs

namespace Sys2Proof.Proofs

open Sys2Proof.Machine Sys2Proof.Laws

/-! ## Building a tree step by step (spec/42_tree_builder.md R120, R121)

A tree is built in two phases: leaves are added one by one, then trees are merged two by two. What each step of a phase
keeps holds at its end. -/

/-- The leaves of a frequency table, in the order they are loaded (R120). -/
def leavesOf (f : FreqTable) : List Node := (presentBytes f).map fun b => .leaf b (tget f b)

/-- The weights in the queue, added up without wrapping around. -/
def queuedWeight (q : List HeapEntry) : Nat := (q.map fun e => e.key.toNat).sum

/-- Every count is the count of a byte value that is present. -/
theorem totalCount_eq_sum_present (f : FreqTable) :
    totalCount f = ((presentBytes f).map fun b => (tget f b).toNat).sum := by
  rw [totalCount, presentBytes]
  induction byteValues with
  | nil => rfl
  | cons b bs ih => by_cases hb : tget f b = 0#64 <;> simp [hb, ih]

/-- After loading, the arena holds the leaves and the queue their counts (R120). -/
theorem loadLeaves_entries (f : FreqTable) :
    ∃ q, loadLeaves (entries f) ⟨[], []⟩ = .ok ⟨q, leavesOf f⟩ ∧ q.length = (presentBytes f).length ∧
      queuedWeight q = totalCount f := by
  have hpresent := presentOf_entries f
  obtain ⟨q, hload, hlen, -, hkeys⟩ := loadLeaves_ok (entries f) ⟨[], []⟩ [] ⟨[], by simp, by simp, by simp⟩ rfl
    (by rw [hpresent]; simpa using length_presentBytes_le f)
  rw [hpresent] at hload hlen hkeys
  refine ⟨q, by simpa [leavesOf, Function.comp_def] using hload, by simpa using hlen, ?_⟩
  have hsum := (hkeys.map BitVec.toNat).sum_eq
  rw [totalCount_eq_sum_present]
  simpa [queuedWeight, Function.comp_def] using hsum

/-- What an insertion adds to the queue, when it succeeds (R101). -/
theorem pqInsert_perm {q q' : List HeapEntry} {e : HeapEntry} (h : pqInsert q e = .ok q') : q'.Perm (e :: q) := by
  rcases pqInsert_cases q e with ⟨-, hx⟩ | ⟨-, q₁, hx, hp, -⟩ <;> rw [hx] at h <;> cases h
  exact hp

/-- What adding a leaf keeps, loading keeps; while leaves are loaded the queue holds every node of the arena. -/
theorem loadLeaves_induction {P : Forest → Prop}
    (hleaf : ∀ q nodes b w q', P ⟨q, nodes⟩ → nodes.length < 512 →
      pqInsert q ⟨w, BitVec.ofNat 9 nodes.length⟩ = .ok q' → P ⟨q', nodes ++ [.leaf b w]⟩)
    (es : List (Byte × Word64)) {g g' : Forest} (hg : P g) (hlen : g.nodes.length = g.heap.length)
    (h : loadLeaves es g = .ok g') : P g' := by
  induction es generalizing g with
  | nil => cases h; exact hg
  | cons x es ih =>
    obtain ⟨b, w⟩ := x
    rw [loadLeaves] at h
    split at h
    · exact ih hg hlen h
    · split at h
      · cases h
      · next g₁ hadd =>
        obtain ⟨q₁, hins, rfl⟩ := addNode_eq_ok hadd
        rcases pqInsert_cases g.heap ⟨w, BitVec.ofNat 9 g.nodes.length⟩ with ⟨-, e⟩ | ⟨hroom, q, e, -, hq⟩ <;>
          rw [e] at hins <;> cases hins
        exact ih (hleaf _ _ b w _ hg (by omega) e) (by simp [hq, hlen]) h

/-- What a merge has done, when it succeeds (R121): to the two roots taken, in the order they are taken, and to the
entries that stay. -/
theorem mergeTwo_entries {g g' : Forest} (h : mergeTwo g = .ok g') :
    ∃ e₁ e₂ rest, g.heap.Perm (e₁ :: e₂ :: rest) ∧
      g'.nodes = g.nodes ++ [.internal (weightSum e₁.key e₂.key) e₁.node e₂.node] ∧
      g'.heap.Perm (⟨weightSum e₁.key e₂.key, BitVec.ofNat 9 g.nodes.length⟩ :: rest) ∧
      (HeapOrdered g.heap → HeapOrdered g'.heap ∧ e₁.key ≤ e₂.key ∧ ∀ e ∈ rest, e₂.key ≤ e.key) := by
  obtain ⟨e₁, q₁, e₂, q₂, h₁, h₂, hadd⟩ := mergeTwo_eq_ok h
  obtain ⟨q', hins, rfl⟩ := addNode_eq_ok hadd
  obtain ⟨rest₁, hq, hq₁, hperm₁⟩ := pqExtract_ok h₁
  obtain ⟨rest₂, hq₁', hq₂, hperm₂⟩ := pqExtract_ok h₂
  refine ⟨e₁, e₂, rest₂, ?_, rfl, (pqInsert_perm hins).trans (hperm₂.cons _), fun ho => ?_⟩
  · rw [hq]
    exact .cons _ (hperm₁.symm.trans (.of_eq hq₁'))
  · have ho₁ : HeapOrdered q₁ := hq₁ ▸ heapOrdered_removeRoot ho
    refine ⟨heapOrdered_pqInsert (hq₂ ▸ heapOrdered_removeRoot ho₁) hins, ?_, fun e he => ?_⟩
    · exact root_le_mem (hq ▸ ho) (.tail _ (hperm₁.mem_iff.1 (hq₁' ▸ .head _)))
    · exact root_le_mem (hq₁' ▸ ho₁) (.tail _ he)

/-- What a merge keeps, merging keeps; it ends with at most one entry in the queue, that of the root (R121, R123). -/
theorem mergeLoop_induction {P : Forest → Prop}
    (hmerge : ∀ g g', P g → g.nodes.length < 512 → mergeTwo g = .ok g' → P g') (n : Nat) {g : Forest} {nodes : List Node}
    {root : Option NodeIx} (hg : P g) (hn : g.heap.length ≤ n) (hfits : g.nodes.length + g.heap.length ≤ 512)
    (h : mergeLoop n g = .ok (nodes, root)) :
    ∃ q, P ⟨q, nodes⟩ ∧ (root = none ∨ ∃ e, q = [e] ∧ root = some e.node) := by
  induction n generalizing g with
  | zero => cases h; exact ⟨_, hg, .inl rfl⟩
  | succ n ih =>
    rw [mergeLoop] at h
    split at h
    · cases h; exact ⟨_, hg, .inl rfl⟩
    · next e hq => cases h; exact ⟨_, hg, .inr ⟨e, hq, rfl⟩⟩
    · split at h
      · cases h
      · next g' hm =>
        obtain ⟨e₁, e₂, rest, hp, hnodes, hp', -⟩ := mergeTwo_entries hm
        have hlen : g.heap.length = rest.length + 2 := hp.length_eq
        have hlen' : g'.heap.length = rest.length + 1 := hp'.length_eq
        have hnodes' : g'.nodes.length = g.nodes.length + 1 := by rw [hnodes, List.length_append]; rfl
        exact ih (hmerge g g' hg (by omega) hm) (by omega) (by omega) h

/-- What holds before a tree is built and is kept by each leaf and each merge holds when it is built; between the
phases the invariant may be exchanged. -/
theorem buildTree_induction {P R : Forest → Prop} {f : FreqTable} {nodes : List Node} {root : Option NodeIx}
    (hempty : P ⟨[], []⟩)
    (hleaf : ∀ q nodes b w q', P ⟨q, nodes⟩ → nodes.length < 512 →
      pqInsert q ⟨w, BitVec.ofNat 9 nodes.length⟩ = .ok q' → P ⟨q', nodes ++ [.leaf b w]⟩)
    (hloaded : ∀ q, queuedWeight q = totalCount f → P ⟨q, leavesOf f⟩ → R ⟨q, leavesOf f⟩)
    (hmerge : ∀ g g', R g → g.nodes.length < 512 → mergeTwo g = .ok g' → R g')
    (h : buildTree f = .ok (nodes, root)) :
    ∃ q, R ⟨q, nodes⟩ ∧ (root = none ∨ ∃ e, q = [e] ∧ root = some e.node) := by
  obtain ⟨q, hload, hlen, hweight⟩ := loadLeaves_entries f
  rw [buildTree, hload] at h
  have hk := length_presentBytes_le f
  refine mergeLoop_induction hmerge _ (hloaded q hweight (loadLeaves_induction hleaf _ hempty rfl hload)) le_rfl ?_ h
  simp only [leavesOf, List.length_map]
  omega

end Sys2Proof.Proofs

namespace Sys2Proof.Proofs

open Sys2Proof.Machine Sys2Proof.Laws

/-! ## The tree's shape, and the queue's part in it (spec/42_tree_builder.md R120 to R123, R125) -/

/-- `TREE_BUILD` of a table whose tree is known (R121). -/
theorem exec_treeBuild {s : State} (he : s.err = 0#8) (hfreq : s.flags.freqValid = true) {nodes : List Node}
    {root : Option NodeIx} (hb : buildTree s.freq = .ok (nodes, root)) :
    exec .treeBuild s = .next { s with
      heap := [], nodes := nodes, root := root.getD 0#9, flags := flagsAfterBuild root.isSome s.flags } := by
  refine exec_of_body (by rintro ⟨⟩) he hfreq ?_
  simp only [bodyOf, treeBuildBody, hb]

/-- `PQ_INSERT` from the queue's own procedure (R103). -/
theorem exec_pqInsert {s : State} (he : s.err = 0#8) {key : Word64} {node : NodeIx} {q : List HeapEntry}
    (h : pqInsert s.heap ⟨key, node⟩ = .ok q) : exec (.pqInsert key node) s = .next { s with heap := q } := by
  refine exec_of_body (by rintro ⟨⟩) he rfl ?_
  simp only [bodyOf, pqInsertBody, h]

/-- `PQ_EXTRACT_MIN` from the queue's own procedure (R104). -/
theorem exec_pqExtractMin {s : State} (he : s.err = 0#8) {e : HeapEntry} {q : List HeapEntry}
    (h : pqExtract s.heap = .ok (e, q)) :
    exec .pqExtractMin s = .next { s with heap := q, resA := e.key, resB := e.node.setWidth 16 } := by
  refine exec_of_body (by rintro ⟨⟩) he rfl ?_
  simp only [bodyOf, pqExtractMinBody, h]

/-- The node carried by an entry is what `RES_B` holds of it (R104). -/
theorem setWidth_resB (node : NodeIx) : (node.setWidth 16).setWidth 9 = node := by
  rw [BitVec.setWidth_setWidth_of_le node (by decide), BitVec.setWidth_eq]

/-- A sum of weights that fits in 64 bits is exact (R92). -/
theorem weightSum_of_lt {x y : Word64} (h : x.toNat + y.toNat < 2 ^ 64) : weightSum x y = x + y := by
  rw [weightSum, if_pos h]

/-- Which queue made a node depends on the queue before and after it only. -/
theorem madeByQueue_congr {s : State} {Q Q' : Nat → List HeapEntry} {i : Nat} {n : Node} (h : MadeByQueue s Q i n)
    (h₀ : Q' i = Q i) (h₁ : Q' (i + 1) = Q (i + 1)) : MadeByQueue s Q' i n := by
  cases n <;> simpa only [MadeByQueue, h₀, h₁] using h

/-- The nodes of the arena are those the queue's commands make, starting from the empty queue and ending with the
present one: `Q i` is the queue when the arena holds `i` nodes. -/
def QueueHistory (s : State) (Q : Nat → List HeapEntry) (g : Forest) : Prop :=
  Q 0 = [] ∧ Q g.nodes.length = g.heap ∧ ∀ i n, g.nodes[i]? = some n → MadeByQueue s Q i n

/-- A node at some place of a longer arena is an old one at its old place or the new one. -/
theorem getElem?_concat_cases {nodes : List Node} {n m : Node} {i : Nat} (h : (nodes ++ [n])[i]? = some m) :
    nodes[i]? = some m ∨ (i = nodes.length ∧ m = n) := by
  rcases Nat.lt_trichotomy i nodes.length with hlt | rfl | hgt
  · exact .inl (by rwa [List.getElem?_append_left hlt] at h)
  · rw [List.getElem?_concat_length] at h
    exact .inr ⟨rfl, (Option.some.inj h).symm⟩
  · rw [List.getElem?_eq_none (by simp; omega)] at h
    cases h

/-- A history goes on with a node that the queue makes. -/
theorem QueueHistory.concat {s : State} {Q : Nat → List HeapEntry} {g : Forest} (h : QueueHistory s Q g) {n : Node}
    {q : List HeapEntry} (hn : ∀ Q', Q' g.nodes.length = g.heap → Q' (g.nodes.length + 1) = q →
      MadeByQueue s Q' g.nodes.length n) :
    ∃ Q', QueueHistory s Q' ⟨q, g.nodes ++ [n]⟩ := by
  obtain ⟨hzero, hnow, hmade⟩ := h
  have hnext : Function.update Q (g.nodes.length + 1) q (g.nodes.length + 1) = q := Function.update_self ..
  have hold : ∀ i ≤ g.nodes.length, Function.update Q (g.nodes.length + 1) q i = Q i := fun i hi =>
    Function.update_of_ne (by omega) ..
  refine ⟨Function.update Q (g.nodes.length + 1) q, (hold 0 (Nat.zero_le _)).trans hzero, ?_, fun i m hm => ?_⟩
  · rw [List.length_append]
    exact hnext
  · rcases getElem?_concat_cases hm with hm | ⟨rfl, rfl⟩
    · have hi := (List.getElem?_eq_some_iff.1 hm).1
      exact madeByQueue_congr (hmade i m hm) (hold i hi.le) (hold (i + 1) hi)
    · exact hn _ ((hold _ le_rfl).trans hnow) hnext

/-- The queue makes a leaf by `PQ_INSERT` (R120). -/
theorem madeByQueue_leaf {s : State} (he : s.err = 0#8) {Q : Nat → List HeapEntry} {i : Nat} {b : Byte} {w : Word64}
    (h : pqInsert (Q i) ⟨w, BitVec.ofNat 9 i⟩ = .ok (Q (i + 1))) : MadeByQueue s Q i (.leaf b w) :=
  exec_pqInsert (s := { s with heap := Q i }) he h

/-- The queue makes an internal node by two `PQ_EXTRACT_MIN` and a `PQ_INSERT` (R121). -/
theorem madeByQueue_internal {s : State} (he : s.err = 0#8) {Q : Nat → List HeapEntry} {i : Nat} {e₁ e₂ : HeapEntry}
    {q₁ q₂ : List HeapEntry} (h₁ : pqExtract (Q i) = .ok (e₁, q₁)) (h₂ : pqExtract q₁ = .ok (e₂, q₂))
    (h : pqInsert q₂ ⟨weightSum e₁.key e₂.key, BitVec.ofNat 9 i⟩ = .ok (Q (i + 1))) :
    MadeByQueue s Q i (.internal (weightSum e₁.key e₂.key) e₁.node e₂.node) := by
  let u : State := { s with heap := q₁, resA := e₁.key, resB := e₁.node.setWidth 16 }
  let v : State := { u with heap := q₂, resA := e₂.key, resB := e₂.node.setWidth 16 }
  have hu : exec .pqExtractMin { s with heap := Q i } = .next u :=
    exec_pqExtractMin (s := { s with heap := Q i }) he h₁
  have hv : exec .pqExtractMin u = .next v := exec_pqExtractMin (s := u) he h₂
  exact ⟨u, v, hu, (setWidth_resB _).symm, hv, (setWidth_resB _).symm, weightSum_of_lt, exec_pqInsert (s := v) he h⟩

/-- Every entry of the queue names a node of the arena and has its weight as key. -/
def QueuedNodes (g : Forest) : Prop := ∀ e ∈ g.heap, ∃ n, g.nodes[e.node.toNat]? = some n ∧ nodeFreq n = e.key

theorem queuedNodes_empty : QueuedNodes ⟨[], []⟩ := fun _ he => absurd he List.not_mem_nil

/-- The queue after a node is added: its entry and entries that were there before. -/
theorem QueuedNodes.concat {g : Forest} (h : QueuedNodes g) (hlen : g.nodes.length < 512) {n : Node}
    {q rest : List HeapEntry} (hq : q.Perm (⟨nodeFreq n, BitVec.ofNat 9 g.nodes.length⟩ :: rest))
    (hrest : ∀ e ∈ rest, e ∈ g.heap) : QueuedNodes ⟨q, g.nodes ++ [n]⟩ := by
  intro e he
  rcases List.mem_cons.1 (hq.mem_iff.1 he) with rfl | he
  · exact ⟨n, by rw [toNat_nodeIx hlen, List.getElem?_concat_length], rfl⟩
  · obtain ⟨m, hm, hkey⟩ := h e (hrest e he)
    exact ⟨m, by rw [List.getElem?_append_left (List.getElem?_eq_some_iff.1 hm).1, hm], hkey⟩

/-- A merge keeps what the queue's entries stand for. -/
theorem QueuedNodes.merge {g g' : Forest} (h : QueuedNodes g) (hlen : g.nodes.length < 512)
    (hm : mergeTwo g = .ok g') : QueuedNodes g' := by
  obtain ⟨e₁, e₂, rest, hperm, hnodes, hperm', -⟩ := mergeTwo_entries hm
  obtain ⟨q', nodes'⟩ := g'
  subst hnodes
  exact h.concat hlen hperm' fun e he => hperm.mem_iff.2 (.tail _ (.tail _ he))

/-- Every node of a tree that is built is one the queue makes; when there is a tree, the queue at the end holds its root
alone (R120, R121). -/
theorem buildTree_history {s : State} (he : s.err = 0#8) {f : FreqTable} {nodes : List Node} {root : Option NodeIx}
    (hb : buildTree f = .ok (nodes, root)) :
    ∃ Q, Q 0 = [] ∧ (∀ i n, nodes[i]? = some n → MadeByQueue s Q i n) ∧
      ∀ ix, root = some ix → ∀ n, nodes[ix.toNat]? = some n → Q nodes.length = [⟨nodeFreq n, ix⟩] := by
  have hfinal := buildTree_induction (P := fun g => QueuedNodes g ∧ ∃ Q, QueueHistory s Q g)
    (R := fun g => QueuedNodes g ∧ ∃ Q, QueueHistory s Q g)
    ⟨queuedNodes_empty, fun _ => [], rfl, rfl, fun _ _ hn => by cases hn⟩ ?leaf (fun _ _ h => h) ?merge hb
  case leaf =>
    rintro q nodes b w q' ⟨hqueued, Q, hQ⟩ hlen hins
    refine ⟨hqueued.concat hlen (pqInsert_perm hins) fun _ h => h, hQ.concat fun Q' h₀ h₁ => ?_⟩
    exact madeByQueue_leaf he (by rw [h₀, h₁]; exact hins)
  case merge =>
    rintro g g' ⟨hqueued, Q, hQ⟩ hlen hm
    refine ⟨hqueued.merge hlen hm, ?_⟩
    obtain ⟨e₁, q₁, e₂, q₂, h₁, h₂, hadd⟩ := mergeTwo_eq_ok hm
    obtain ⟨q', hins, rfl⟩ := addNode_eq_ok hadd
    exact hQ.concat fun Q' hnow hnext => madeByQueue_internal he (by rw [hnow]; exact h₁) h₂ (by rw [hnext]; exact hins)
  obtain ⟨q, ⟨hqueued, Q, hzero, hnow, hmade⟩, hroot⟩ := hfinal
  refine ⟨Q, hzero, hmade, ?_⟩
  rintro ix rfl n hn
  rcases hroot with hnone | ⟨e, rfl, hsome⟩
  · cases hnone
  · cases hsome
    obtain ⟨m, hm, hkey⟩ := hqueued e (.head _)
    cases hn.symm.trans hm
    rw [hkey]
    exact hnow

/-- Settles O25: the shape of the arena is that of `buildTree_ok`, the queue's history that of `buildTree_history`. -/
theorem treeBuildShape : Obligations.TreeBuildShape := by
  intro s he hfreq k
  rcases buildTree_ok s.freq with ⟨hnil, hb⟩ | ⟨hne, more, ix, -, hb, hmore, hinternal, hix, -⟩
  · have hk : k = 0 := by simp only [k, hnil, List.length_nil]
    obtain ⟨Q, hzero, hmade, -⟩ := buildTree_history he hb
    refine ⟨[], 0#9, ?_, fun _ => ⟨rfl, rfl⟩, fun hpos => absurd hk hpos.ne', Q, hzero, hmade, fun n hn => by cases hn⟩
    rw [exec_treeBuild he hfreq hb, hk]
    rfl
  · have hk : 0 < k := List.length_pos_of_ne_nil hne
    have hlen : (leavesOf s.freq).length = k := List.length_map ..
    obtain ⟨Q, hzero, hmade, hlast⟩ := buildTree_history he hb
    refine ⟨leavesOf s.freq ++ more, ix, ?_, fun h0 => absurd h0 hk.ne', fun _ => ⟨?_, ?_, ?_, ?_⟩, Q, hzero, hmade,
      hlast ix rfl⟩
    · rw [exec_treeBuild he hfreq hb, decide_eq_true hk]
      rfl
    · rw [List.length_append, hlen]
      omega
    · omega
    · exact List.take_left' hlen
    · rwa [List.drop_left' hlen]

end Sys2Proof.Proofs

namespace Sys2Proof.Proofs

open Sys2Proof.Machine Sys2Proof.Laws

/-! ## The weights of the tree (spec/42_tree_builder.md R124) -/

/-- The node at `j` is a child of the internal node at `i`. -/
def IsChild (nodes : List Node) (i j : Nat) : Prop :=
  ∃ f l r, nodes[i]? = some (.internal f l r) ∧ (j = l.toNat ∨ j = r.toNat)

/-- The internal node at `ix` with these fields is the merge of two nodes of least weight among those its merge found in
the queue: its weight is their sum, the left one weighs no more than the right one, and the right one no more than a
node made before and not merged by then (R124). -/
def LeastMerge (nodes : List Node) (ix : Nat) (f : Word64) (l r : NodeIx) : Prop :=
  ∃ nl nr, nodes[l.toNat]? = some nl ∧ nodes[r.toNat]? = some nr ∧ l.toNat < ix ∧ r.toNat < ix ∧
    f.toNat = (nodeFreq nl).toNat + (nodeFreq nr).toNat ∧ nodeFreq nl ≤ nodeFreq nr ∧
    ∀ j n, j < ix → nodes[j]? = some n → (∀ i ≤ ix, ¬ IsChild nodes i j) → nodeFreq nr ≤ nodeFreq n

/-- An old node stays where it is when the arena grows. -/
theorem getElem?_concat_of_some {nodes : List Node} {m : Node} {i : Nat} (h : nodes[i]? = some m) (n : Node) :
    (nodes ++ [n])[i]? = some m := by
  rw [List.getElem?_append_left (List.getElem?_eq_some_iff.1 h).1, h]

theorem IsChild.concat {nodes : List Node} {i j : Nat} (h : IsChild nodes i j) (n : Node) :
    IsChild (nodes ++ [n]) i j := by
  obtain ⟨f, l, r, hi, hj⟩ := h
  exact ⟨f, l, r, getElem?_concat_of_some hi n, hj⟩

/-- A merge stays one of least weights when the arena grows: it speaks of the nodes before it only. -/
theorem LeastMerge.concat {nodes : List Node} {ix : Nat} {f : Word64} {l r : NodeIx} (h : LeastMerge nodes ix f l r)
    (hix : ix < nodes.length) (n : Node) : LeastMerge (nodes ++ [n]) ix f l r := by
  obtain ⟨nl, nr, hl, hr, hlix, hrix, hsum, hle, hleast⟩ := h
  refine ⟨nl, nr, getElem?_concat_of_some hl n, getElem?_concat_of_some hr n, hlix, hrix, hsum, hle,
    fun j m hj hm hfree => hleast j m hj ?_ fun i hi hc => hfree i hi (hc.concat n)⟩
  rwa [List.getElem?_append_left (hj.trans hix)] at hm

/-- What queue and arena are between two merges (R124). -/
structure Weighed (g : Forest) : Prop where
  /-- The queue's root is its minimum. -/
  ordered : HeapOrdered g.heap
  /-- The queue's entries stand for nodes of the arena. -/
  queued : QueuedNodes g
  /-- A node that no merge has taken is in the queue. -/
  pending : ∀ j < g.nodes.length, (∃ e ∈ g.heap, e.node.toNat = j) ∨ ∃ i, IsChild g.nodes i j
  /-- Every merge took two nodes of least weight. -/
  merged : ∀ (ix : Nat) f l r, g.nodes[ix]? = some (.internal f l r) → LeastMerge g.nodes ix f l r
  /-- What is in the queue weighs at least what the right child of any merge weighs, so at least half of the merge. -/
  half : ∀ (ix : Nat) f l r, g.nodes[ix]? = some (.internal f l r) → ∀ e ∈ g.heap, f.toNat ≤ 2 * e.key.toNat
  /-- Later merges weigh at least as much. -/
  sorted : ∀ (i j : Nat) f f' l r l' r', i ≤ j → g.nodes[i]? = some (.internal f l r) →
    g.nodes[j]? = some (.internal f' l' r') → f ≤ f'

/-- What queue and arena are while leaves are loaded (R120). -/
structure Loading (g : Forest) : Prop where
  ordered : HeapOrdered g.heap
  queued : QueuedNodes g
  pending : ∀ j < g.nodes.length, ∃ e ∈ g.heap, e.node.toNat = j

theorem loading_empty : Loading ⟨[], []⟩ where
  ordered := heapOrdered_nil
  queued := queuedNodes_empty
  pending _ hj := absurd hj (Nat.not_lt_zero _)

theorem Loading.addLeaf {q : List HeapEntry} {nodes : List Node} (h : Loading ⟨q, nodes⟩) (hlen : nodes.length < 512)
    (b : Byte) {w : Word64} {q' : List HeapEntry} (hins : pqInsert q ⟨w, BitVec.ofNat 9 nodes.length⟩ = .ok q') :
    Loading ⟨q', nodes ++ [.leaf b w]⟩ where
  ordered := heapOrdered_pqInsert h.ordered hins
  queued := h.queued.concat hlen (pqInsert_perm hins) fun _ he => he
  pending j hj := by
    have hmem (e : HeapEntry) := (pqInsert_perm hins).mem_iff (a := e)
    rw [List.length_append, List.length_singleton] at hj
    rcases Nat.lt_succ_iff_lt_or_eq.1 hj with hj | rfl
    · obtain ⟨e, he, hej⟩ := h.pending j hj
      exact ⟨e, (hmem e).2 (.tail _ he), hej⟩
    · exact ⟨_, (hmem _).2 (.head _), toNat_nodeIx hlen⟩

/-- Nothing is merged among leaves. -/
theorem not_internal_of_leavesOf {f : FreqTable} {i : Nat} {w : Word64} {l r : NodeIx}
    (h : (leavesOf f)[i]? = some (.internal w l r)) : False := by
  obtain ⟨b, -, hb⟩ := List.mem_map.1 (List.mem_of_getElem? h)
  cases hb

theorem Loading.weighed {q : List HeapEntry} {f : FreqTable} (h : Loading ⟨q, leavesOf f⟩) : Weighed ⟨q, leavesOf f⟩ where
  ordered := h.ordered
  queued := h.queued
  pending j hj := .inl (h.pending j hj)
  merged _ _ _ _ hi := (not_internal_of_leavesOf hi).elim
  half _ _ _ _ hi := (not_internal_of_leavesOf hi).elim
  sorted _ _ _ _ _ _ _ _ _ hi := (not_internal_of_leavesOf hi).elim

theorem queuedWeight_perm {q q' : List HeapEntry} (h : q.Perm q') : queuedWeight q = queuedWeight q' :=
  (h.map _).sum_eq

theorem queuedWeight_cons (e : HeapEntry) (q : List HeapEntry) : queuedWeight (e :: q) = e.key.toNat + queuedWeight q :=
  rfl

/-- The value of a sum of weights that fits in 64 bits (R92). -/
theorem toNat_weightSum {x y : Word64} (h : x.toNat + y.toNat < 2 ^ 64) : (weightSum x y).toNat = x.toNat + y.toNat := by
  rw [weightSum_of_lt h, BitVec.toNat_add_of_lt h]

/-- The least two entries `e₁`, `e₂` of the queue have been merged to a node that weighs `w`, what they weigh together;
`rest` stays, and the queue is in heap order again (R121, R106). -/
structure Merges (g g' : Forest) (e₁ e₂ : HeapEntry) (w : Word64) (rest : List HeapEntry) : Prop where
  room : g.nodes.length < 512
  before : g.heap.Perm (e₁ :: e₂ :: rest)
  after : g'.heap.Perm (⟨w, BitVec.ofNat 9 g.nodes.length⟩ :: rest)
  arena : g'.nodes = g.nodes ++ [.internal w e₁.node e₂.node]
  sum : w.toNat = e₁.key.toNat + e₂.key.toNat
  left_le : e₁.key ≤ e₂.key
  right_le : ∀ e ∈ rest, e₂.key ≤ e.key
  ordered : HeapOrdered g'.heap

/-- A merge from a queue in heap order whose weights fit in 64 bits (R121, R106). -/
theorem merges_of_mergeTwo {g g' : Forest} (ho : HeapOrdered g.heap) (hlen : g.nodes.length < 512)
    (hfits : queuedWeight g.heap < 2 ^ 64) (hm : mergeTwo g = .ok g') :
    ∃ e₁ e₂ w rest, Merges g g' e₁ e₂ w rest := by
  obtain ⟨e₁, e₂, rest, hperm, hnodes, hperm', hmin⟩ := mergeTwo_entries hm
  obtain ⟨ho', hleft, hright⟩ := hmin ho
  rw [queuedWeight_perm hperm, queuedWeight_cons, queuedWeight_cons] at hfits
  exact ⟨e₁, e₂, _, rest, hlen, hperm, hperm', hnodes, toNat_weightSum (by omega), hleft, hright, ho'⟩

section
variable {g g' : Forest} {e₁ e₂ : HeapEntry} {w : Word64} {rest : List HeapEntry} (m : Merges g g' e₁ e₂ w rest)
include m

theorem Merges.mem_before (e : HeapEntry) : e ∈ g.heap ↔ e = e₁ ∨ e = e₂ ∨ e ∈ rest := by
  rw [m.before.mem_iff, List.mem_cons, List.mem_cons]

theorem Merges.mem_after (e : HeapEntry) : e ∈ g'.heap ↔ e = ⟨w, BitVec.ofNat 9 g.nodes.length⟩ ∨ e ∈ rest := by
  rw [m.after.mem_iff, List.mem_cons]

/-- A merge adds no weight to the queue and takes none away. -/
theorem Merges.queuedWeight_eq : queuedWeight g'.heap = queuedWeight g.heap := by
  rw [queuedWeight_perm m.before, queuedWeight_perm m.after]
  simp only [queuedWeight_cons, m.sum, Nat.add_assoc]

/-- The merged entries' nodes are the children of the new node. -/
theorem Merges.isChild {j : Nat} (hj : j = e₁.node.toNat ∨ j = e₂.node.toNat) : IsChild g'.nodes g.nodes.length j := by
  rw [m.arena]
  exact ⟨_, _, _, List.getElem?_concat_length, hj⟩

theorem Merges.isChild_of_old {i j : Nat} (h : IsChild g.nodes i j) : IsChild g'.nodes i j := by
  rw [m.arena]
  exact h.concat _

/-- An internal node after a merge was there before or is the new one. -/
theorem Merges.internal_cases {ix : Nat} {f : Word64} {l r : NodeIx} (h : g'.nodes[ix]? = some (.internal f l r)) :
    g.nodes[ix]? = some (.internal f l r) ∨ (ix = g.nodes.length ∧ f = w ∧ l = e₁.node ∧ r = e₂.node) := by
  rw [m.arena] at h
  rcases getElem?_concat_cases h with h | ⟨hix, hnew⟩
  · exact .inl h
  · cases hnew
    exact .inr ⟨hix, rfl, rfl, rfl⟩

variable (h : Weighed g)
include h

/-- A node that was in the queue stays there or becomes a child; the new one enters. -/
theorem Weighed.merge_pending {j : Nat} (hj : j < g'.nodes.length) :
    (∃ e ∈ g'.heap, e.node.toNat = j) ∨ ∃ i, IsChild g'.nodes i j := by
  rw [m.arena, List.length_append, List.length_singleton] at hj
  rcases Nat.lt_succ_iff_lt_or_eq.1 hj with hj | rfl
  · rcases h.pending j hj with ⟨e, he, rfl⟩ | ⟨i, hi⟩
    · rcases (m.mem_before e).1 he with rfl | rfl | he
      · exact .inr ⟨_, m.isChild (.inl rfl)⟩
      · exact .inr ⟨_, m.isChild (.inr rfl)⟩
      · exact .inl ⟨e, (m.mem_after e).2 (.inr he), rfl⟩
    · exact .inr ⟨i, m.isChild_of_old hi⟩
  · exact .inl ⟨_, (m.mem_after _).2 (.inl rfl), toNat_nodeIx m.room⟩

/-- A node that is no child after a merge was in the queue with the two merged, so it weighs at least as much. -/
theorem Weighed.right_le_of_free {j : Nat} {n : Node} (hn : g.nodes[j]? = some n)
    (hfree : ∀ i ≤ g.nodes.length, ¬ IsChild g'.nodes i j) : e₂.key ≤ nodeFreq n := by
  rcases h.pending j (List.getElem?_eq_some_iff.1 hn).1 with ⟨e, he, rfl⟩ | ⟨i, hi⟩
  · obtain ⟨n', hn', hkey⟩ := h.queued e he
    cases hn.symm.trans hn'
    rw [hkey]
    rcases (m.mem_before e).1 he with rfl | rfl | he
    · exact absurd (m.isChild (.inl rfl)) (hfree _ le_rfl)
    · exact BitVec.le_refl _
    · exact m.right_le e he
  · obtain ⟨f, l, r, hix, -⟩ := id hi
    exact absurd (m.isChild_of_old hi) (hfree i (List.getElem?_eq_some_iff.1 hix).1.le)

/-- The new node is a merge of two of least weight. -/
theorem Weighed.merge_least : LeastMerge g'.nodes g.nodes.length w e₁.node e₂.node := by
  obtain ⟨n₁, hn₁, hkey₁⟩ := h.queued e₁ ((m.mem_before _).2 (.inl rfl))
  obtain ⟨n₂, hn₂, hkey₂⟩ := h.queued e₂ ((m.mem_before _).2 (.inr (.inl rfl)))
  have hold {i : Nat} {n : Node} (hi : g.nodes[i]? = some n) : g'.nodes[i]? = some n :=
    m.arena ▸ getElem?_concat_of_some hi _
  refine ⟨n₁, n₂, hold hn₁, hold hn₂, (List.getElem?_eq_some_iff.1 hn₁).1, (List.getElem?_eq_some_iff.1 hn₂).1,
    by rw [m.sum, hkey₁, hkey₂], by rw [hkey₁, hkey₂]; exact m.left_le, fun j n hj hn hfree => ?_⟩
  rw [m.arena, List.getElem?_append_left hj] at hn
  rw [hkey₂]
  exact h.right_le_of_free m hn hfree

/-- What was merged before weighs no more than what is merged now: each of the two weighs at least half of it. -/
theorem Weighed.merged_le {ix : Nat} {f : Word64} {l r : NodeIx} (hi : g.nodes[ix]? = some (.internal f l r)) :
    f.toNat ≤ w.toNat := by
  have h₁ := h.half ix f l r hi e₁ ((m.mem_before _).2 (.inl rfl))
  have h₂ := h.half ix f l r hi e₂ ((m.mem_before _).2 (.inr (.inl rfl)))
  rw [m.sum]
  omega

theorem Weighed.merge_half {ix : Nat} {f : Word64} {l r : NodeIx} (hi : g'.nodes[ix]? = some (.internal f l r))
    {e : HeapEntry} (he : e ∈ g'.heap) : f.toNat ≤ 2 * e.key.toNat := by
  rcases (m.mem_after e).1 he with rfl | he
  · rcases m.internal_cases hi with hi | ⟨-, rfl, -⟩
    · exact (h.merged_le m hi).trans (Nat.le_mul_of_pos_left _ Nat.two_pos)
    · exact Nat.le_mul_of_pos_left _ Nat.two_pos
  · rcases m.internal_cases hi with hi | ⟨-, rfl, -⟩
    · exact h.half ix f l r hi e ((m.mem_before e).2 (.inr (.inr he)))
    · have hleft := BitVec.le_def.1 m.left_le
      have hright := BitVec.le_def.1 (m.right_le e he)
      rw [m.sum]
      omega

theorem Weighed.merge_sorted {i j : Nat} {f f' : Word64} {l r l' r' : NodeIx} (hij : i ≤ j)
    (hi : g'.nodes[i]? = some (.internal f l r)) (hj : g'.nodes[j]? = some (.internal f' l' r')) : f ≤ f' := by
  rcases m.internal_cases hi with hi | ⟨rfl, rfl, -⟩ <;> rcases m.internal_cases hj with hj | ⟨rfl, rfl, -⟩
  · exact h.sorted i j f f' l r l' r' hij hi hj
  · exact BitVec.le_def.2 (h.merged_le m hi)
  · exact absurd (List.getElem?_eq_some_iff.1 hj).1 hij.not_gt
  · exact BitVec.le_refl _

end

/-- A merge of weights that fit in 64 bits keeps what queue and arena are, and the weight in the queue. -/
theorem Weighed.merge {g g' : Forest} (h : Weighed g) (hlen : g.nodes.length < 512)
    (hfits : queuedWeight g.heap < 2 ^ 64) (hm : mergeTwo g = .ok g') :
    Weighed g' ∧ queuedWeight g'.heap = queuedWeight g.heap := by
  obtain ⟨e₁, e₂, w, rest, m⟩ := merges_of_mergeTwo h.ordered hlen hfits hm
  refine ⟨⟨m.ordered, h.queued.merge hlen hm, fun j => h.merge_pending m, fun ix f l r hi => ?_,
    fun ix f l r hi e => h.merge_half m hi, fun i j f f' l r l' r' => h.merge_sorted m⟩, m.queuedWeight_eq⟩
  rcases m.internal_cases hi with hi | ⟨rfl, rfl, rfl, rfl⟩
  · rw [m.arena]
    exact (h.merged ix f l r hi).concat (List.getElem?_eq_some_iff.1 hi).1 _
  · exact h.merge_least m

/-- The arena of a tree whose counts add up to less than 2^64, and the queue it was built with: when there is a tree, its
root alone, with the weight of all (R124). -/
theorem buildTree_weighed {f : FreqTable} {nodes : List Node} {root : Option NodeIx} (hfits : totalCount f < 2 ^ 64)
    (hb : buildTree f = .ok (nodes, root)) :
    ∃ q, Weighed ⟨q, nodes⟩ ∧ queuedWeight q = totalCount f ∧ (root = none ∨ ∃ e, q = [e] ∧ root = some e.node) := by
  obtain ⟨q, ⟨hw, htotal⟩, hroot⟩ := buildTree_induction (P := Loading)
    (R := fun g => Weighed g ∧ queuedWeight g.heap = totalCount f) loading_empty
    (fun q nodes b w q' h hlen hins => h.addLeaf hlen b hins) (fun q htotal h => ⟨h.weighed, htotal⟩)
    (fun g g' ⟨hw, htotal⟩ hlen hm =>
      have ⟨hw', heq⟩ := hw.merge hlen (htotal ▸ hfits) hm
      ⟨hw', heq.trans htotal⟩) hb
  exact ⟨q, hw, htotal, hroot⟩

/-! ### The leaves below a node -/

/-- An arena whose first `k` nodes are leaves, in which a child comes before its parent, holds a tree at every index; the
tree has no more levels than there are internal nodes up to that index. -/
theorem rep_of_children {nodes : List Node} {k : Nat}
    (hint : ∀ (ix : Nat) f l r, nodes[ix]? = some (.internal f l r) → k ≤ ix ∧ l.toNat < ix ∧ r.toNat < ix)
    (ix : NodeIx) (hix : ix.toNat < nodes.length) : ∃ T, Rep nodes ix T ∧ T.height ≤ ix.toNat + 1 - k := by
  induction hn : ix.toNat using Nat.strong_induction_on generalizing ix with
  | _ n ih =>
    subst hn
    have hnode := List.getElem?_eq_getElem hix
    cases hm : nodes[ix.toNat] with
    | leaf b w => exact ⟨.leaf b w, .leaf (hm ▸ hnode), Nat.zero_le _⟩
    | internal f l r =>
      rw [hm] at hnode
      obtain ⟨hk, hl, hr⟩ := hint _ f l r hnode
      obtain ⟨L, hL, hheightL⟩ := ih _ hl l (hl.trans hix) rfl
      obtain ⟨R, hR, hheightR⟩ := ih _ hr r (hr.trans hix) rfl
      refine ⟨.node f L R, .node hnode hL hR, ?_⟩
      simp only [HTree.height]
      omega

/-- Where leaves weigh their counts and an internal node weighs what its children weigh together, a node weighs what the
counts of the leaves below it add up to. -/
theorem weight_of_rep {nodes : List Node} {f : FreqTable}
    (hleaf : ∀ (ix : Nat) b w, nodes[ix]? = some (.leaf b w) → w = tget f b)
    (hmerged : ∀ (ix : Nat) w l r, nodes[ix]? = some (.internal w l r) → LeastMerge nodes ix w l r)
    {ix : NodeIx} {T : HTree} (h : Rep nodes ix T) {n : Node} (hn : nodes[ix.toNat]? = some n) :
    (nodeFreq n).toNat = (T.leaves.map fun b => (tget f b).toNat).sum := by
  induction h generalizing n with
  | leaf h =>
    cases hn.symm.trans h
    simp [nodeFreq, HTree.leaves, hleaf _ _ _ h]
  | node h hl hr ihl ihr =>
    cases hn.symm.trans h
    obtain ⟨nl, nr, hnl, hnr, -, -, hsum, -⟩ := hmerged _ _ _ _ h
    rw [nodeFreq, hsum, ihl hnl, ihr hnr, HTree.leaves, List.map_append, List.sum_append]

/-- The arena of a tree: leaves with their counts, then internal nodes, fewer than 256 (R123). -/
theorem buildTree_nodes {f : FreqTable} {nodes : List Node} {root : Option NodeIx}
    (hb : buildTree f = .ok (nodes, root)) :
    ∃ more, nodes = leavesOf f ++ more ∧ (∀ n ∈ more, leafSym n = none) ∧ more.length < 256 := by
  have hk := length_presentBytes_le f
  rcases buildTree_ok f with ⟨hnil, e⟩ | ⟨-, more, ix, T, e, hlen, hmore, -⟩ <;> rw [e] at hb <;> cases hb
  · exact ⟨[], by rw [leavesOf, hnil]; rfl, fun _ h => absurd h List.not_mem_nil, by decide⟩
  · exact ⟨more, rfl, hmore, by omega⟩

/-- A leaf of the arena is one of those loaded, with its count. -/
theorem leaf_weight {f : FreqTable} {more : List Node} (hmore : ∀ n ∈ more, leafSym n = none) {ix : Nat} {b : Byte}
    {w : Word64} (h : (leavesOf f ++ more)[ix]? = some (.leaf b w)) : w = tget f b := by
  rcases List.mem_append.1 (List.mem_of_getElem? h) with hmem | hmem
  · obtain ⟨b', -, hb'⟩ := List.mem_map.1 hmem
    cases hb'
    rfl
  · cases hmore _ hmem

/-- An internal node comes after the leaves. -/
theorem le_of_internal {f : FreqTable} {more : List Node} {ix : Nat} {w : Word64} {l r : NodeIx}
    (h : (leavesOf f ++ more)[ix]? = some (.internal w l r)) : (leavesOf f).length ≤ ix := by
  by_contra hlt
  rw [List.getElem?_append_left (Nat.lt_of_not_le hlt)] at h
  exact not_internal_of_leavesOf h

/-- Settles O26: the arena is `Weighed`, its merges being of least weights; the leaves below a node are those of the
tree of `rep_of_children`, weighed by `weight_of_rep`; the root alone is left in the queue, whose weight is the total. -/
theorem treeBuildWeights : Obligations.TreeBuildWeights := by
  intro s t he hfreq hfits h
  obtain ⟨⟨nodes, root⟩, hb⟩ := buildTree_completes s.freq
  rw [exec_treeBuild he hfreq hb] at h
  cases h
  obtain ⟨q, hw, htotal, hroot⟩ := buildTree_weighed hfits hb
  obtain ⟨more, rfl, hmore, hlen⟩ := buildTree_nodes hb
  refine ⟨fun ix f l r hi => ?least, hw.sorted, fun ix n hn => ?below, fun hvalid => ?total⟩
  case least =>
    obtain ⟨nl, nr, hnl, hnr, hl, hr, hsum, hle, hleast⟩ := hw.merged ix f l r hi
    refine ⟨nl, nr, hnl, hnr, hl, hr, hsum, hle, fun j n hj hn hfree => hleast j n hj hn ?_⟩
    rintro i hle ⟨f', l', r', hi', hchild⟩
    obtain ⟨hne, hne'⟩ := hfree i f' l' r' hle hi'
    exact hchild.elim hne hne'
  case below =>
    have hix := (List.getElem?_eq_some_iff.1 hn).1
    obtain ⟨T, hrep, hheight⟩ := rep_of_children (k := (leavesOf s.freq).length) (fun ix w l r hi =>
      have ⟨_, _, _, _, hl, hr, _⟩ := hw.merged ix w l r hi
      ⟨le_of_internal hi, hl, hr⟩) ix hix
    rw [List.length_append] at hix
    obtain ⟨rs, hrs, hsyms⟩ := treeRecords_of_rep hrep (by omega)
    refine ⟨rs, hrs, ?_⟩
    rw [weight_of_rep (fun _ _ _ => leaf_weight hmore) hw.merged hrep hn, ← hsyms, List.map_map]
    rfl
  case total =>
    rcases hroot with rfl | ⟨e, rfl, rfl⟩
    · cases hvalid
    · obtain ⟨n, hn, hkey⟩ := hw.queued e (.head _)
      exact ⟨n, hn, (congrArg BitVec.toNat hkey).trans htotal⟩

end Sys2Proof.Proofs

namespace Sys2Proof.Proofs

open Sys2Proof.Machine Sys2Proof.Laws

/-! ## `ENCODE` and the fault registers (spec/44_encoder.md R144, spec/10_state.md R21) -/

/-- `ENCODE` that completes leaves `ERR_INFO` as it was: its rule does not name it (R142). -/
theorem exec_encode_errInfo {s : State} (he : s.err = 0#8) (hok : (encodeBody s).isOk = true) :
    ∃ t, exec .encode s = .next t ∧ t.errInfo = s.errInfo := by
  cases hb : encodeBody s with
  | error e => rw [hb] at hok; cases hok
  | ok t =>
    have hframe : Frame s t .encode := frame_of_body (i := .encode) hb
    exact ⟨t, exec_of_body (by rintro ⟨⟩) he rfl hb, by rw [show t = _ from hframe]⟩

/-- Refutes O38, in its clause on `ERR_INFO` alone: the statement asks `ERR = 0` of both states but not that they agree
in `ERR_INFO`, which `ENCODE` leaves as it was when it completes. The two states are reset and reset with 1 in
`ERR_INFO`, both with the empty input. No run reaches the second, since `ERR_INFO` is 0 while `ERR` is (R21,
`stepKeepsBounds`). -/
theorem not_treeAndContainerDependOnTheInputOnly : ¬ Obligations.TreeAndContainerDependOnTheInputOnly := by
  rintro ⟨-, hencode⟩
  obtain ⟨t₁, h₁, hinfo₁⟩ := exec_encode_errInfo (s := State.reset) rfl (by decide +kernel)
  obtain ⟨t₂, h₂, hinfo₂⟩ := exec_encode_errInfo (s := { State.reset with errInfo := 1#64 }) rfl (by decide +kernel)
  obtain ⟨-, hinfo, -⟩ := hencode State.reset { State.reset with errInfo := 1#64 } t₁ t₂ rfl rfl rfl rfl rfl rfl h₁ h₂
  rw [hinfo₁, hinfo₂] at hinfo
  exact absurd hinfo (by decide)

end Sys2Proof.Proofs

namespace Sys2Proof.Proofs

open Sys2Proof.Machine Sys2Proof.Laws

/-! ## The code table (spec/43_code_table.md R131 to R136) -/

/-- A walk that does not complete has met an arena that is no tree (log 12). -/
theorem walk_error {nodes : List Node} (n : Nat) {ix : NodeIx} {acc : Code} {e : Abort}
    (h : walk nodes n ix acc = .error e) : e = .stop .malformedTree := by
  induction n generalizing ix acc e with
  | zero => cases h; rfl
  | succ n ih =>
    rw [walk] at h
    split at h
    · cases h; rfl
    · cases h
    · split at h
      · rename_i hl; cases h; exact ih hl
      · split at h
        · rename_i hr; cases h; exact ih hr
        · cases h

/-- Making the table raises no fault: it completes, or the model stops (log 12). -/
theorem codesOf_error {nodes : List Node} {root : Option NodeIx} {e : Abort} (h : codesOf nodes root = .error e) :
    e = .stop .malformedTree := by
  unfold codesOf at h
  split at h
  · cases h
  · split at h
    · rename_i hrs
      cases h
      unfold treeRecords at hrs
      split at hrs
      · cases hrs
      · exact walk_error _ hrs
    · cases h

theorem codeGenBody_ne_raise (s : State) (k : FaultKind) (info : Word64) : codeGenBody s ≠ raise k info := by
  intro h
  unfold codeGenBody at h
  split at h
  · rename_i e he
    rw [codesOf_error he] at h
    cases h
  · cases h

/-- `CODE_GEN` from the phase it requires, when it ends in a next state: its pseudocode completed (R131, R180). -/
theorem codeGenBody_of_exec {s t : State} (he : s.err = 0#8) (htree : s.flags.treeValid = true)
    (h : exec .codeGen s = .next t) : codeGenBody s = .ok t := by
  have hp : phaseReady .codeGen s.flags = true := htree
  rw [exec_eq_accept (by rintro ⟨⟩), accept_ready _ he hp] at h
  rcases settle_next h with hb | ⟨k, info, hb, -⟩
  · exact hb
  · exact absurd hb (codeGenBody_ne_raise s k info)

/-- The table `CODE_GEN` leaves: no code begins with another, and each has 1 to 255 bits (R133, R134). -/
theorem codes_of_exec_codeGen {s t : State} (he : s.err = 0#8) (htree : s.flags.treeValid = true)
    (h : exec .codeGen s = .next t) : PrefixCode t.code ∧ CodeLengths t.code :=
  codesOf_codes (codeGenBody_ok (codeGenBody_of_exec he htree h)).1

/-- Settles O30: the codes are those of `codesOf_codes`, whatever tree was walked. -/
theorem codeGenLeavesAPrefixCode : Obligations.CodeGenLeavesAPrefixCode :=
  fun _ _ he htree h => (codes_of_exec_codeGen he htree h).1

/-- Settles O31: a code that two byte values share begins with itself, which `PrefixCode` excludes. -/
theorem codeGenLengthsAndUniqueness : Obligations.CodeGenLengthsAndUniqueness := by
  intro s t he htree h
  obtain ⟨hprefix, hlengths⟩ := codes_of_exec_codeGen he htree h
  exact ⟨hlengths, fun b₁ b₂ c h₁ h₂ => by_contra fun hne => hprefix b₁ b₂ c c hne h₁ h₂ List.prefix_rfl⟩

/-- `CODE_GEN` completes with the table of the arena, and discards the tree (R131). -/
theorem exec_codeGen {s : State} (he : s.err = 0#8) (htree : s.flags.treeValid = true) {code : CodeTable}
    {n : BitVec 9} (h : codesOf s.nodes (if s.flags.rootValid then some s.root else none) = .ok (code, n)) :
    exec .codeGen s = .next { s with code := code, ctCnt := n, nodes := [], flags := flagsAfterGen s.flags } := by
  have hp : phaseReady .codeGen s.flags = true := htree
  refine exec_of_body (by rintro ⟨⟩) he hp ?_
  rw [bodyOf, codeGenBody, h]

/-- The table of a root is what is recorded of its tree (R131). -/
theorem codesOf_of_treeRecords {nodes : List Node} {ix : NodeIx} {rs : List (Byte × Code)}
    (h : treeRecords nodes ix = .ok rs) : codesOf nodes (some ix) = .ok (recordAll rs emptyCode 0#9) := by
  rw [codesOf, h]

/-- Of distinct byte values `CT_CNT` counts the valid entries (R131). -/
theorem recordAll_count_eq_valid {rs : List (Byte × Code)} (h : (rs.map Prod.fst).Nodup) :
    (recordAll rs emptyCode 0#9).2.toNat =
      (byteValues.filter fun b => (ctLookup (recordAll rs emptyCode 0#9).1 b).isSome).length := by
  have hvalid : (byteValues.filter fun b => (ctLookup (recordAll rs emptyCode 0#9).1 b).isSome).Perm
      (rs.map Prod.fst) := by
    refine (List.perm_ext_iff_of_nodup (nodup_byteValues.filter _) h).2 fun b => ?_
    simp [mem_byteValues, Option.isSome_iff_exists, ctLookup_recordAll_nodup h]
  have hle := length_le_of_nodup h
  rw [hvalid.length_eq, recordAll_count, BitVec.zero_add, BitVec.toNat_ofNat]
  rw [List.length_map] at hle ⊢
  omega

/-- Below an internal root, what is recorded for a byte value is the descents that reach its leaf (R131, R67). -/
theorem mem_treeRecords_iff_descend {nodes : List Node} {ix l r : NodeIx} {f : Word64} {rs : List (Byte × Code)}
    (hroot : nodes[ix.toNat]? = some (.internal f l r)) (h : treeRecords nodes ix = .ok rs) (b : Byte) (c : Code) :
    (b, c) ∈ rs ↔ ∃ w, descend nodes ix c = some (.leaf b w) := by
  rcases treeRecords_ok h with ⟨_, _, hleaf, -⟩ | ⟨_, _, _, hrep, -, rfl⟩
  · rw [hroot] at hleaf
    cases hleaf
  · exact mem_records_iff_descend hrep [] c b

/-- Settles O28: the table holds exactly the pairs recorded, which are the paths of `mem_treeRecords_iff_descend`. -/
theorem codeGenRecordsPathsToLeaves : Obligations.CodeGenRecordsPathsToLeaves := by
  intro s f l r he htree hvalid hroot ⟨rs, hrs, hnodup⟩
  refine ⟨(recordAll rs emptyCode 0#9).1, (recordAll rs emptyCode 0#9).2, exec_codeGen he htree ?_, fun b c => ?_,
    recordAll_count_eq_valid hnodup⟩
  · rw [if_pos hvalid, codesOf_of_treeRecords hrs]
  · rw [ctLookup_recordAll_nodup hnodup, mem_treeRecords_iff_descend hroot hrs]

/-- Settles O29: a root that is a leaf is recorded alone, with the code `"0"` (R132); without a root nothing is. -/
theorem codeGenSingleLeafAndEmptyTree : Obligations.CodeGenSingleLeafAndEmptyTree := by
  refine fun s he htree => ⟨fun hvalid b w hroot => ?_, fun hvalid => ?_⟩
  · have hrs : treeRecords s.nodes s.root = .ok [(b, [false])] := by rw [treeRecords, hroot]
    refine ⟨tset emptyCode b (some [false]), exec_codeGen he htree ?_, fun x => ?_⟩
    · rw [if_pos hvalid, codesOf_of_treeRecords hrs]
      rfl
    · rw [ctLookup, tget_tset, ← ctLookup, ctLookup_emptyCode]
      simp only [eq_comm]
  · refine ⟨emptyCode, exec_codeGen he htree ?_, ctLookup_emptyCode⟩
    rw [hvalid]
    rfl

/-- The rows "Writes" that name `CODE` or `CT_CNT` are those of `CODE_GEN`, `ENCODE` and `CLR` (R136). -/
theorem codeTable_of_frame {i : Instr} {s t : State} (hf : Frame s t i) (hgen : i ≠ .codeGen) (henc : i ≠ .encode)
    (hclr : i ≠ .clr) : t.code = s.code ∧ t.ctCnt = s.ctCnt := by
  cases i with
  | codeGen => exact absurd rfl hgen
  | encode => exact absurd rfl henc
  | clr => exact absurd rfl hclr
  | _ => rw [show t = _ from hf]; exact ⟨rfl, rfl⟩

/-- Settles O32: a command by its frame, a load by `hostLoad_next`. -/
theorem codeTableIsWrittenOnce : Obligations.CodeTableIsWrittenOnce := by
  refine ⟨fun i s t h ht => codeTable_of_frame (frame_of_body (exec_completed h ht).1), ?_, ?_⟩
  · intro i s t h ht hi
    have hf : Frame s t i := frame_of_body (exec_completed h ht).1
    rcases hi with rfl | rfl <;> rw [show t = _ from hf]
  · intro S s t h
    obtain ⟨-, -, rfl⟩ := hostLoad_next h
    exact ⟨rfl, rfl, rfl⟩

end Sys2Proof.Proofs

namespace Sys2Proof.Proofs

open Sys2Proof.Machine Sys2Proof.Laws

/-! ## The length of a container (spec/44_encoder.md R143) -/

theorem length_bitSection (t : CodeTable) (S : List Byte) :
    (bitSection t S).length = (S.map fun b => ((ctLookup t b).getD []).length).sum := by
  simp only [bitSection, bitChars, List.length_flatMap, List.length_map]

theorem length_marker : marker.length = 22 := rfl

/-- The length of what an entry of the code table adds to a container: its record, where it is valid (R71). -/
def recordLength : Option Code → Nat
  | none => 0
  | some c => 3 + c.length

theorem length_metadataRecords (t : CodeTable) :
    (metadataRecords t).length = (byteValues.map fun b => recordLength (ctLookup t b)).sum := by
  rw [metadataRecords, List.length_flatMap]
  refine congrArg List.sum (List.map_congr_left fun b _ => ?_)
  cases ctLookup t b with
  | none => rfl
  | some c => exact length_metadataRecord b c

/-- The bits of the bit section, the marker between its two newlines, the records (R143). -/
theorem length_container (t : CodeTable) (S : List Byte) :
    (container t S).length = (S.map fun b => ((ctLookup t b).getD []).length).sum + 24 +
      (byteValues.map fun b => recordLength (ctLookup t b)).sum := by
  simp only [container, List.length_append, List.length_singleton, length_bitSection, length_marker,
    length_metadataRecords]

/-- Settles O37: `length_container`, with `recordLength` written out. -/
theorem containerLength : Obligations.ContainerLength := length_container

/-- The most a container can need: 255 bytes for each encoded byte and 258 for each record (R134, R143). -/
theorem length_container_le {t : CodeTable} (ht : CodeLengths t) (S : List Byte) :
    (container t S).length ≤ 255 * S.length + 24 + 256 * 258 := by
  have hbits : ∀ n ∈ S.map (fun b => ((ctLookup t b).getD []).length), n ≤ 255 := by
    simp only [List.mem_map]
    rintro _ ⟨b, -, rfl⟩
    cases hb : ctLookup t b with
    | none => exact Nat.zero_le _
    | some c => exact (ht b c hb).2
  have hrecords : ∀ n ∈ byteValues.map (fun b => recordLength (ctLookup t b)), n ≤ 258 := by
    simp only [List.mem_map]
    rintro _ ⟨b, -, rfl⟩
    cases hb : ctLookup t b with
    | none => exact Nat.zero_le _
    | some c => exact Nat.add_le_add_left (ht b c hb).2 3
  have hbitsSum := List.sum_le_card_nsmul _ _ hbits
  have hrecordsSum := List.sum_le_card_nsmul _ _ hrecords
  rw [List.length_map, smul_eq_mul] at hbitsSum hrecordsSum
  rw [length_byteValues] at hrecordsSum
  rw [length_container]
  omega

end Sys2Proof.Proofs

namespace Sys2Proof.Proofs

open Sys2Proof.Machine Sys2Proof.Laws

/-! ## `EMIT` (spec/44_encoder.md R140, R141) -/

section
variable {s : State} {S : List Byte} (hS : Loaded s S) (hp : s.inPos ≤ s.inLen) (hr : Readable s s.inPos s.inLen)
include hS hp hr

/-- With room for the container `EMIT` completes, and the host reads the container (R141, R184). -/
theorem emitBody_completes (hc : ∀ b ∈ S.drop s.inPos.toNat, (ctLookup s.code b).isSome = true)
    (hroom : (container s.code (S.drop s.inPos.toNat)).length ≤ s.outCap.toNat) :
    ∃ o, emitBody s = .ok { s with inPos := s.inLen, out := o } ∧
      o.len.toNat = (container s.code (S.drop s.inPos.toNat)).length ∧
      hostReadOut { s with inPos := s.inLen, out := o } = container s.code (S.drop s.inPos.toNat) := by
  have hfits : s.out.restart.len.toNat + (container s.code (S.drop s.inPos.toNat)).length ≤ s.outCap.toNat :=
    (Nat.zero_add _).trans_le hroom
  obtain ⟨o, ho, hlen, -⟩ := puts_ok _ _ _ hfits
  refine ⟨o, ?_, hlen.trans (Nat.zero_add _), readOut_puts hfits ho⟩
  rw [emitBody_loaded hS hp hr hc, ho]
  rfl

/-- A byte with no code, after bytes whose codes fit in the output, ends `EMIT` (R140). -/
theorem emitBody_noCode {pre post : List Byte} {b : Byte} (hsplit : S.drop s.inPos.toNat = pre ++ b :: post)
    (hpre : ∀ x ∈ pre, (ctLookup s.code x).isSome = true) (hb : ctLookup s.code b = none)
    (hroom : (bitSection s.code pre).length ≤ s.outCap.toNat) : emitBody s = raise .sequenceError 0x23#64 := by
  obtain ⟨o, ho, -⟩ := puts_ok s.outCap s.out.restart (bitSection s.code pre) ((Nat.zero_add _).trans_le hroom)
  have hcode : emitCode s o b = raise .sequenceError 0x23#64 := by rw [emitCode, hb]
  have hlist : emitList s s.out.restart (S.drop s.inPos.toNat) = raise .sequenceError 0x23#64 := by
    rw [hsplit, emitList_append, emitList_eq_puts _ _ _ hpre, ho]
    simp only [emitList, hcode]
    rfl
  have hturns : s.inLen.toNat - s.inPos.toNat = (S.drop s.inPos.toNat).length := by
    rw [List.length_drop, toNat_inLen hS]
  rw [emitBody, hturns, emitLoop_loaded hS _ s.inPos _ hp rfl hr, hlist]
  rfl

end

/-- Settles O33: the pseudocode completes by `emitBody_completes`. -/
theorem emitWritesTheContainer : Obligations.EmitWritesTheContainer := by
  intro s S he hct hS hp hr hc hroom
  obtain ⟨o, hbody, hlen, hread⟩ := emitBody_completes hS hp hr hc hroom
  exact ⟨o, exec_of_body (i := .emit) (by rintro ⟨⟩) he hct hbody, hlen, hread⟩

/-- A command that is ready and whose pseudocode raises a fault ends with it (R201). -/
theorem faultsWith_of_body {i : Instr} (hi : i ≠ .clr) {s : State} (he : s.err = 0#8)
    (hp : phaseReady i s.flags = true) {k : FaultKind} {info : Word64} (hb : bodyOf i s = raise k info) :
    FaultsWith (exec i s) s k.number info := by
  rw [exec_eq_accept hi, accept_ready _ he hp, hb]
  exact faultsWith_raise s k info

/-- Settles O34: the pseudocode raises the fault by `emitBody_noCode`. -/
theorem emitFaultsOnByteWithoutCode : Obligations.EmitFaultsOnByteWithoutCode := by
  intro s S pre post b he hct hS hp hr hsplit hpre hb hroom
  obtain ⟨t, ht, herr, hinfo, hlen, -⟩ :=
    faultsWith_of_body (i := .emit) (by rintro ⟨⟩) he hct (emitBody_noCode hS hp hr hsplit hpre hb hroom)
  exact ⟨t, ht, herr, hinfo, hlen⟩

end Sys2Proof.Proofs

namespace Sys2Proof.Proofs

open Sys2Proof.Machine Sys2Proof.Laws

/-! ## Composite commands (spec/30_encoding.md R66, spec/44_encoder.md R142, spec/46_decoder.md R163)

The parts of a composite command, issued one after another, against their pseudocode run as one piece. -/

/-- The pseudocode of the parts, one after another, as one piece. -/
def partsBody (parts : List Instr) (s : State) : Res State := parts.foldlM (fun u i => bodyOf i u) s

theorem partsBody_cons (i : Instr) (is : List Instr) (s : State) :
    partsBody (i :: is) s = bodyOf i s >>= partsBody is := List.foldlM_cons

/-- None of the commands is `CLR`, and each finds the phase it requires where those before it complete (R26). -/
def InPhase : List Instr → State → Prop
  | [], _ => True
  | i :: is, s => i ≠ .clr ∧ phaseReady i s.flags = true ∧ ∀ t, bodyOf i s = .ok t → InPhase is t

/-- Commands that find their phase, issued one after another, end as their pseudocode does as one piece; only the state
in which a fault is entered may be another (R66). -/
theorem runParts_cases {parts : List Instr} {s : State} (h : InPhase parts s) (he : s.err = 0#8) :
    (∃ t, partsBody parts s = .ok t ∧ t.err = 0#8 ∧ runParts parts s = .next t) ∨
    (∃ k info u, partsBody parts s = raise k info ∧ runParts parts s = .next (enterFault u k info)) ∨
    (∃ f, partsBody parts s = stop f ∧ runParts parts s = .fault f) := by
  induction parts generalizing s with
  | nil => exact .inl ⟨s, rfl, he, rfl⟩
  | cons i is ih =>
    obtain ⟨hi, hp, hrest⟩ := h
    have hkeep : ∀ t, bodyOf i s = .ok t → t.err = 0#8 := fun t ht => keeps_noFault i s t hi hp ht he
    rw [partsBody_cons, runParts_accept is (exec_eq_accept hi s) he hp hkeep]
    match hb : bodyOf i s with
    | .ok t => exact ih (hrest t hb) (hkeep t hb)
    | .error (.raise k info) => exact .inr (.inl ⟨k, info, s, rfl, rfl⟩)
    | .error (.stop f) => exact .inr (.inr ⟨f, rfl, rfl⟩)

/-- A command whose pseudocode is that of its parts ends where they end, with the fault of the first that faults
(R66, R201). -/
theorem exec_of_runParts {i : Instr} {parts : List Instr} {s t : State} (hi : i ≠ .clr) (he : s.err = 0#8)
    (hp : phaseReady i s.flags = true) (hbody : bodyOf i s = partsBody parts s) (h : InPhase parts s)
    (ht : runParts parts s = .next t) :
    (t.err = 0#8 → exec i s = .next t) ∧ (t.err ≠ 0#8 → FaultsWith (exec i s) s t.err t.errInfo) := by
  rcases runParts_cases h he with ⟨u, hb, hu, e⟩ | ⟨k, info, u, hb, e⟩ | ⟨f, -, e⟩ <;> rw [ht] at e <;> cases e
  · exact ⟨fun _ => exec_of_body hi he hp (hbody.trans hb), fun hne => absurd hu hne⟩
  · exact ⟨fun h0 => absurd h0 (number_ne_zero k), fun _ => faultsWith_of_body hi he hp (hbody.trans hb)⟩

/-- Each part of `ENCODE` before `EMIT` sets the flag that the next part tests, and `CODE_GEN` the one that `EMIT`
tests (R142). -/
theorem inPhase_encode {more : List Instr} (hmore : ∀ t, phaseReady .emit t.flags = true → InPhase more t) (s : State) :
    InPhase (.inRewind :: .freqCount :: .inRewind :: .treeBuild :: .codeGen :: more) s := by
  refine ⟨by rintro ⟨⟩, rfl, fun s₁ _ => ⟨by rintro ⟨⟩, rfl, fun s₂ h₂ => ⟨by rintro ⟨⟩, rfl, fun s₃ h₃ => ?_⟩⟩⟩
  have hcounted : phaseReady .treeBuild s₂.flags = true := ready_of_freqCount h₂
  have hfreq : phaseReady .treeBuild s₃.flags = true := by rwa [rewindBody_ok h₃]
  exact ⟨by rintro ⟨⟩, hfreq, fun s₄ h₄ => ⟨by rintro ⟨⟩, ready_of_treeBuild h₄, fun s₅ h₅ =>
    hmore s₅ (ready_of_codeGen h₅)⟩⟩

theorem inPhase_decode (s : State) : InPhase [.decParse, .decScan] s :=
  ⟨by rintro ⟨⟩, rfl, fun _ h => ⟨by rintro ⟨⟩, ready_of_decParse h, fun _ _ => trivial⟩⟩

/-- Settles O35: the pseudocode of each composite command is that of its parts (R142, R163), which find their phase. -/
theorem compositesAreTheSequenceOfTheirParts : Obligations.CompositesAreTheSequenceOfTheirParts := by
  intro s he
  have hencode : bodyOf .encode s = partsBody [.inRewind, .freqCount, .inRewind, .treeBuild, .codeGen, .emit] s := by
    simp [bodyOf, encodeBody, partsBody]
  have hdecode : bodyOf .decode s = partsBody [.decParse, .decScan] s := by simp [bodyOf, decodeBody, partsBody]
  refine ⟨fun t => exec_of_runParts (by rintro ⟨⟩) he rfl hencode (inPhase_encode (fun u hu => ?_) s),
    fun t => exec_of_runParts (by rintro ⟨⟩) he rfl hdecode (inPhase_decode s)⟩
  exact ⟨by rintro ⟨⟩, hu, fun _ _ => trivial⟩

end Sys2Proof.Proofs

namespace Sys2Proof.Proofs

open Sys2Proof.Machine Sys2Proof.Laws

/-! ## `ENCODE` completes (spec/44_encoder.md R142) -/

/-- What `TREE_BUILD` leaves, when it leaves a root, is a tree (R15, R121). -/
theorem treeOk_of_treeBuildBody {s t : State} (h : treeBuildBody s = .ok t) (hroot : t.flags.rootValid = true) :
    TreeOk t.nodes t.root := by
  obtain ⟨root, hbuild, e⟩ := treeBuildBody_ok h
  rw [e] at hroot
  obtain ⟨ix, rfl⟩ := Option.isSome_iff_exists.1 hroot
  rw [e]
  exact ((buildTree_arena hbuild).2 ix rfl).2

/-- Over an arena that is a tree `CODE_GEN` completes (R131). -/
theorem codeGenBody_completes {s : State} (hT : s.flags.rootValid = true → TreeOk s.nodes s.root) :
    ∃ t, codeGenBody s = .ok t := by
  rcases answers_codeGenBody hT with ht | ⟨k, info, e⟩
  · exact ht
  · exact absurd e (codeGenBody_ne_raise s k info)

theorem treeBuildBody_completes (s : State) : ∃ t, treeBuildBody s = .ok t := by
  obtain ⟨_, hb⟩ := buildTree_completes s.freq
  rw [treeBuildBody, hb]
  exact ⟨_, rfl⟩

/-- Over a readable input the parts of `ENCODE` before `EMIT` complete, and leave a prefix code (R142, R133, R134). -/
theorem encodeParts_complete {s : State} {S : List Byte} (he : s.err = 0#8) (hS : Loaded s S)
    (hr : Readable s 0#64 s.inLen) :
    ∃ t, runParts [.inRewind, .freqCount, .inRewind, .treeBuild, .codeGen] s = .next t ∧ t.err = 0#8 ∧
      PrefixCode t.code ∧ CodeLengths t.code := by
  obtain ⟨u, hu⟩ : ∃ u, freqCountBody { s with inPos := 0#64 } = .ok u :=
    ⟨_, freqCountBody_loaded hS (zero_le_word _) hr⟩
  obtain ⟨v, hv⟩ := treeBuildBody_completes { u with inPos := 0#64 }
  obtain ⟨w, hw⟩ := codeGenBody_completes (treeOk_of_treeBuildBody hv)
  have hbody : partsBody [.inRewind, .freqCount, .inRewind, .treeBuild, .codeGen] s = .ok w := by
    simp [partsBody, bodyOf, rewindBody, bind, Except.bind, hu, hv, hw, pure, Except.pure]
  rcases runParts_cases (inPhase_encode (more := []) (fun _ _ => trivial) s) he with
    ⟨t, hb, ht, e⟩ | ⟨_, _, _, hb, -⟩ | ⟨_, hb, -⟩ <;> cases hbody.symm.trans hb
  exact ⟨w, e, ht, codesOf_codes (codeGenBody_ok hw).1⟩

/-- Settles O36: the parts before `EMIT` complete by `encodeParts_complete`, every byte then has a code by
`encodeBody_of_parts`, and `EMIT` has room by `length_container_le`; the flags, the queue and the arena are those of
the frame of `ENCODE`. -/
theorem encodeWritesTheContainerOfItsInput : Obligations.EncodeWritesTheContainerOfItsInput := by
  intro s S he hS hr hcap
  obtain ⟨u, hparts, hu, hprefix, hlengths⟩ := encodeParts_complete he hS hr
  obtain ⟨hemit, ⟨hmem, hlen, hout, hfault, -⟩, hpos, hcodes⟩ := encodeBody_of_parts hS hr hparts hu
  have hall : S.drop u.inPos.toNat = S := by rw [hpos]; rfl
  have hS' : Loaded u S := by rwa [Loaded, hmem, hlen]
  have hr' : Readable u u.inPos u.inLen := by rwa [Readable, hpos, hlen, hfault]
  obtain ⟨o, hbody, holen, hread⟩ := emitBody_completes hS' (hpos ▸ zero_le_word _) hr'
    (fun b hb => (hcodes b).2 (hall ▸ hb)) (by rw [hall, hout]; exact (length_container_le hlengths S).trans hcap)
  rw [hall] at holen hread
  rw [hbody] at hemit
  have hframe : Frame s { u with inPos := u.inLen, out := o } .encode := frame_of_body (i := .encode) hemit
  exact ⟨_, exec_of_body (i := .encode) (by rintro ⟨⟩) he rfl hemit, hu, congrArg State.flags hframe, hlen,
    congrArg State.heap hframe, congrArg State.nodes hframe, hcodes, hprefix, hlengths, hread, holen⟩

end Sys2Proof.Proofs

namespace Sys2Proof.Proofs

open Sys2Proof.Machine Sys2Proof.Laws

/-! ## The reverse lookup (spec/45_matcher.md R150, R154) -/

/-- Settles O39: what is found is in the table, and in a table with no key twice an entry is found by its key. -/
theorem rltFindIsExactMatch : Obligations.RltFindIsExactMatch :=
  fun _ _ _ hkeys => ⟨mem_of_rltFind, fun hmem => rltFind_of_mem hkeys hmem⟩

/-- A key that begins the grown candidate and did not begin the candidate is the whole of it. -/
theorem eq_grown_of_prefix {key cand : Code} {bit : Bool} (hcand : ¬ key <+: cand) (h : key <+: cand ++ [bit]) :
    key = cand ++ [bit] :=
  (List.prefix_concat_iff.1 h).resolve_right hcand

/-- Where no key began the candidate, no other key begins the key that matches (R154). -/
theorem matchable_of_rltFind {t : List RltEntry} {cand : Code} {bit : Bool} {r : Byte}
    (hkeys : (t.map RltEntry.code).Nodup) (hcand : ∀ e ∈ t, ¬ e.code <+: cand)
    (hfind : rltFind t (cand ++ [bit]) = some r) : Matchable t ⟨cand ++ [bit], r⟩ := by
  refine ⟨mem_of_rltFind hfind, fun x hx hprefix => ?_⟩
  obtain ⟨key, sym⟩ := x
  obtain rfl : key = cand ++ [bit] := eq_grown_of_prefix (hcand _ hx) hprefix
  have hsym : some sym = some r := (rltFind_of_mem hkeys hx).symm.trans hfind
  rw [Option.some.inj hsym]

/-! ## `VM_PUSH` (spec/45_matcher.md R152, R153) -/

/-- `VM_PUSH`, ready, of a character whose step of the scan completes (R153). -/
theorem exec_vmPush_of_vmStep {s : State} {ch : Byte} {r : Scan} (he : s.err = 0#8)
    (hrlt : s.flags.rltValid = true) (h : vmStep s s.inPos s.cand s.out ch = .ok r) :
    exec (.vmPush ch) s =
      .next { s with cand := r.cand, out := r.out, resA := 0#64, resB := matchResult r.hit } := by
  refine exec_of_body (by rintro ⟨⟩) he hrlt ?_
  rw [bodyOf, vmPushBody, h]

/-- `VM_PUSH`, ready, of a character whose step of the scan raises a fault (R153, R201). -/
theorem faultsWith_vmPush_of_vmStep {s : State} {ch : Byte} {k : FaultKind} {info : Word64} (he : s.err = 0#8)
    (hrlt : s.flags.rltValid = true) (h : vmStep s s.inPos s.cand s.out ch = raise k info) :
    FaultsWith (exec (.vmPush ch) s) s k.number info := by
  refine faultsWith_of_body (i := .vmPush ch) (by rintro ⟨⟩) he hrlt ?_
  rw [bodyOf, vmPushBody, h]
  rfl

/-- Settles O40: the step of the scan skips the character. -/
theorem vmPushSkipsNonBits : Obligations.VmPushSkipsNonBits := by
  intro s ch he hrlt hzero hone
  have hskip : bitOfChar ch = none := (bitOfChar_eq_none ch).2 ⟨hzero, hone⟩
  exact exec_vmPush_of_vmStep he hrlt (vmStep_skip s s.inPos s.cand s.out hskip)

/-- `RES_B` of a match: bit 8 above the symbol (R153). -/
theorem matchResult_some (r : Byte) : matchResult (some r) = 0x100#16 ||| r.setWidth 16 := rfl

/-- What the host reads after one `Out` with room for it (R45, R184). -/
theorem hostReadOut_put {s : State} {o : OutStream} {v : Byte} (hroom : s.out.len < s.outCap)
    (h : OutStream.put s.outCap s.out v = .ok o) : hostReadOut { s with out := o } = hostReadOut s ++ [v] :=
  readOut_puts (cap := s.outCap) (BitVec.lt_def.1 hroom) (by rw [OutStream.puts, h]; rfl)

/-- Settles O41: the matched symbol is stored by one `Out`, and the entry that matches is `matchable_of_rltFind`. -/
theorem vmPushEmitsOnMatch : Obligations.VmPushEmitsOnMatch := by
  intro s ch bit r he hrlt hch hfind hroom
  have hput := put_ok r hroom
  have hstep := vmStep_match s s.inPos s.out (bitOfChar_eq_some.2 hch) hfind
  rw [hput] at hstep
  refine ⟨_, ?_, rfl, hostReadOut_put hroom hput, fun a ha => read_write_other _ _ (Ne.symm ha),
    fun hkeys hcand => matchable_of_rltFind hkeys.1 hcand hfind⟩
  rw [exec_vmPush_of_vmStep he hrlt hstep, matchResult_some]

/-- Settles O42: the step of the scan grows the candidate up to `MAXLEN` and raises the fault beyond it. -/
theorem vmPushGrowsOrFaultsWithoutMatch : Obligations.VmPushGrowsOrFaultsWithoutMatch := by
  intro s ch bit he hrlt hch hnone
  have hstep := vmStep_noMatch s s.inPos s.out (bitOfChar_eq_some.2 hch) hnone
  split
  next hfits =>
    rw [if_neg (Nat.not_lt.2 hfits)] at hstep
    refine ⟨exec_vmPush_of_vmStep he hrlt hstep, fun hcand e hmem hprefix => ?_⟩
    exact (rltFind_eq_none _ _).1 hnone e hmem (eq_grown_of_prefix (hcand e hmem) hprefix)
  next hlong =>
    rw [if_pos (Nat.not_le.1 hlong)] at hstep
    obtain ⟨t, ht, herr, hinfo, hlen, -⟩ := faultsWith_vmPush_of_vmStep he hrlt hstep
    exact ⟨t, ht, herr, hinfo, hlen⟩

end Sys2Proof.Proofs

namespace Sys2Proof.Proofs

open Sys2Proof.Machine Sys2Proof.Laws

/-! ## The search for the marker (spec/46_decoder.md R161) -/

/-- Where the marker stands at all, it stands somewhere first. -/
theorem firstMarker_or_none (S : List Byte) : (∃ m, FirstMarker S m) ∨ ∀ m, ¬ MarkerAt S m := by
  by_cases hex : ∃ m, MarkerAt S m
  · exact .inl ⟨Nat.find hex, Nat.find_spec hex, fun _ => Nat.find_min hex⟩
  · exact .inr (not_exists.1 hex)

theorem findMarker_of_noMarker {s : State} {S : List Byte} (hS : Loaded s S) (hr : ReadableFrom s 0)
    (hnone : ∀ m, ¬ MarkerAt S m) : findMarker s = .ok none := by
  obtain ⟨r, hfind, hspec⟩ := markerFrom_loaded hS (S.length + 1 - 22) hr (Nat.le_refl _)
  rw [findMarker, toNat_inLen hS, length_marker, hfind]
  cases r with
  | none => rfl
  | some k =>
    obtain ⟨-, -, hk, -⟩ := hspec
    exact absurd hk (hnone k)

/-- What the search answers is the first place of the marker, whether or not the whole input is readable. -/
theorem firstMarker_of_findMarker {s : State} {S : List Byte} {m : Nat} (hS : Loaded s S)
    (h : findMarker s = .ok (some m)) : FirstMarker S m := by
  rw [findMarker, toNat_inLen hS, length_marker] at h
  obtain ⟨-, hat, hbefore⟩ := markerFrom_ok hS _ (Nat.le_refl _) h
  exact ⟨hat, fun k hk => hbefore k (Nat.zero_le k) hk⟩

/-- Settles O43: the two cases of `firstMarker_or_none`. -/
theorem findMarkerIsTheFirstOccurrence : Obligations.FindMarkerIsTheFirstOccurrence := by
  intro s S hS hr
  have hr0 := readableFrom_zero hr
  rcases firstMarker_or_none S with ⟨k, hk⟩ | hnone
  · have hfind := findMarker_of_firstMarker hS hr0 hk
    refine ⟨some k, hfind, fun m => ⟨fun e => Option.some.inj e ▸ hk, fun hm => ?_⟩, iff_of_false (by rintro ⟨⟩)
      fun hnone => hnone k hk.1⟩
    exact Except.ok.inj (hfind.symm.trans (findMarker_of_firstMarker hS hr0 hm))
  · exact ⟨none, findMarker_of_noMarker hS hr0 hnone,
      fun m => iff_of_false (by rintro ⟨⟩) fun hm => hnone m hm.1, iff_of_true rfl hnone⟩

/-! ## Sections and the newline before the marker (spec/30_encoding.md R73) -/

/-- Whatever stands before the marker is a section and a newline, or a section that ends in none. -/
theorem exists_section (before : List Byte) :
    ∃ sec nl, before = sec ++ sectionNL nl ∧ (nl = false → sec.getLast? ≠ some charNL) := by
  by_cases hlast : before.getLast? = some charNL
  · obtain ⟨sec, rfl⟩ := List.getLast?_eq_some_iff.1 hlast
    exact ⟨sec, true, rfl, by rintro ⟨⟩⟩
  · exact ⟨before, false, (List.append_nil _).symm, fun _ => hlast⟩

/-- What a read of the section's end that completes has answered, whether or not the whole input is readable. -/
theorem sectionEnd_ok {s : State} {sec rest : List Byte} {nl : Bool} {e : Nat}
    (hS : Loaded s (sec ++ sectionNL nl ++ rest)) (hnl : nl = false → sec.getLast? ≠ some charNL)
    (h : sectionEnd s (sec ++ sectionNL nl).length = .ok e) : e = sec.length := by
  have hquiet : sectionEnd (unfailing s) (sec ++ sectionNL nl).length = .ok sec.length :=
    sectionEnd_loaded (s := unfailing s) hS (fun _ hx => absurd hx List.not_mem_nil) hnl
  unfold sectionEnd at h hquiet
  split at h
  next hzero =>
    rw [if_pos hzero] at hquiet
    exact Except.ok.inj (h.symm.trans hquiet)
  next hpos =>
    rw [if_neg hpos] at hquiet
    have hlt : (sec ++ sectionNL nl).length - 1 < (sec ++ sectionNL nl ++ rest).length := by
      rw [List.length_append (bs := rest)]
      omega
    split at h
    · cases h
    next b hb =>
      have hbyte := memReadAt_ok hS hlt hb
      rw [memReadAt_loaded (s := unfailing s) hS (fun _ hx => absurd hx List.not_mem_nil) hbyte] at hquiet
      exact Except.ok.inj (h.symm.trans hquiet)

/-! ## Malformed containers (spec/46_decoder.md R160, spec/60_exceptions.md R194, R196, R199) -/

/-- A parse that raises a fault ends `DEC_PARSE` and `DECODE` with it (R66, R201). -/
theorem faultsWith_of_parseContainer {s : State} (he : s.err = 0#8) {k : FaultKind} {info : Word64}
    (h : parseContainer s = raise k info) :
    FaultsWith (exec .decParse s) s k.number info ∧ FaultsWith (exec .decode s) s k.number info := by
  have hbody : decParseBody s = raise k info := by
    unfold decParseBody
    rw [h]
    rfl
  exact ⟨faultsWith_of_body (i := .decParse) (by rintro ⟨⟩) he rfl hbody,
    faultsWith_of_body (i := .decode) (by rintro ⟨⟩) he rfl (decodeBody_of_decParseBody_raise hbody)⟩

section
variable {s : State} {before rest : List Byte} (hS : Loaded s (before ++ marker ++ rest)) (hr : ReadableFrom s 0)
  (hfirst : FirstMarker (before ++ marker ++ rest) before.length)
include hS hr hfirst

/-- Once the marker is found, the parse is that of what follows it (R160). -/
theorem parseContainer_of_firstMarker :
    ∃ e, parseContainer s = (do
      let p ← recordsStart s (before ++ marker).length
      let t ← readRecords s (s.inLen.toNat - p) p ⟨[], 0#8⟩
      .ok (t, e)) := by
  obtain ⟨sec, nl, rfl, hnl⟩ := exists_section before
  have hend : sectionEnd s (sec ++ sectionNL nl).length = .ok sec.length :=
    sectionEnd_loaded (rest := marker ++ rest) (by rw [← List.append_assoc]; exact hS) hr hnl
  refine ⟨sec.length, ?_⟩
  rw [List.length_append (bs := marker)]
  simp only [parseContainer, bind, Except.bind, findMarker_of_firstMarker hS hr hfirst, hend]

/-- A byte other than a newline just after the marker (R160). -/
theorem parseContainer_noNewline {b : Byte} {after : List Byte} (hrest : rest = b :: after) (hb : b ≠ charNL) :
    parseContainer s = raise .malformedMetadata (BitVec.ofNat 64 (before ++ marker).length) := by
  subst hrest
  obtain ⟨e, hparse⟩ := parseContainer_of_firstMarker hS hr hfirst
  have hbyte : (before ++ marker ++ b :: after)[(before ++ marker).length]? = some b := by simp
  have hlt : (before ++ marker).length < s.inLen.toNat := by
    rw [toNat_inLen hS, List.length_append (bs := b :: after), List.length_cons]
    omega
  rw [hparse, recordsStart, if_pos hlt, memReadAt_loaded hS (hr.mono (Nat.zero_le _)) hbyte]
  simp only [if_neg hb]
  rfl

/-- A record that raises, after records that are in order (R160). -/
theorem parseContainer_badRecord {recs : List RltEntry} {more : List Byte}
    (hrest : rest = tailBytes (some recs) ++ more) (hmore : more ≠ []) (hok : RecordsOk recs) {k : FaultKind}
    {info : Word64}
    (hrec : ∀ t : Rlt, t.entries = recs →
      readRecord s (before ++ marker ++ tailBytes (some recs)).length t = raise k info) :
    parseContainer s = raise k info := by
  obtain ⟨e, hparse⟩ := parseContainer_of_firstMarker hS hr hfirst
  have hcut : before ++ marker ++ rest = before ++ marker ++ charNL :: (recordsBytes recs ++ more) := by
    rw [hrest]
    rfl
  have hbyte : (before ++ marker ++ rest)[(before ++ marker).length]? = some charNL := by simp [hcut]
  have hlt : (before ++ marker).length < s.inLen.toNat := by
    rw [toNat_inLen hS, hcut, List.length_append (bs := charNL :: _), List.length_cons]
    omega
  have hstart : recordsStart s (before ++ marker).length = .ok ((before ++ marker).length + 1) := by
    rw [recordsStart, if_pos hlt, memReadAt_loaded hS (hr.mono (Nat.zero_le _)) hbyte]
    rfl
  have hdrop : (before ++ marker ++ rest).drop ((before ++ marker).length + 1) = recordsBytes recs ++ more := by
    rw [hcut, List.drop_length_add_append]
    rfl
  have hpos : (before ++ marker ++ tailBytes (some recs)).length =
      (before ++ marker).length + 1 + (recordsBytes recs).length := by
    rw [List.length_append, Nat.add_assoc, Nat.add_comm 1]
    rfl
  have hrecs := readRecords_raises hS recs more (hr.mono (Nat.zero_le _)) hdrop hmore hok k info (hpos ▸ hrec)
  simp only [hparse, bind, Except.bind, hstart, hrecs]
  rfl

end

/-- A record with an empty code, one that is there already, or one record too many is not inserted (R151). -/
theorem rltInsert_raises {t : Rlt} {c : Code}
    (h : c = [] ∨ c ∈ t.entries.map RltEntry.code ∨ t.entries.length = 256) (sym : Byte) (p : Nat) :
    rltInsert t c sym p = raise .malformedMetadata (BitVec.ofNat 64 p) := by
  rcases rltInsert_cases t c sym p with ⟨-, hraise⟩ | ⟨hpos, -, hnew, hroom, -⟩
  · exact hraise
  · exfalso
    rcases h with rfl | hmem | hfull
    · exact absurd hpos (by decide)
    · obtain ⟨e, he, hcode⟩ := List.mem_map.1 hmem
      exact hnew e he hcode
    · omega

/-- The byte after a code ends it when it is neither of the bits' characters (R69). -/
theorem bind_bitOfChar_eq_none {h : Option Byte} (hzero : h ≠ some charZero) (hone : h ≠ some charOne) :
    h.bind bitOfChar = none := by
  cases h with
  | none => rfl
  | some b => exact (bitOfChar_eq_none b).2 ⟨fun e => hzero (congrArg some e), fun e => hone (congrArg some e)⟩

theorem bind_bitOfChar_eq_some {h : Option Byte} (hbit : h = some charZero ∨ h = some charOne) :
    ∃ x, h.bind bitOfChar = some x := by
  rcases hbit with rfl | rfl
  · exact ⟨false, rfl⟩
  · exact ⟨true, rfl⟩

/-- Settles O44: each clause by what the parse raises. -/
theorem missingMarkerOrNewlineFaults : Obligations.MissingMarkerOrNewlineFaults := by
  intro s S he hS hr faulted
  have hr0 := readableFrom_zero hr
  refine ⟨fun hnone => ?_, fun before after b hsplit hfirst hb => ?_, fun before recs sym rest hfirst hok => ?_⟩
  · refine faultsWith_of_parseContainer (k := .metadataMarkerNotFound) he ?_
    simp only [parseContainer, bind, Except.bind, findMarker_of_noMarker hS hr0 hnone]
  · subst hsplit
    refine faultsWith_of_parseContainer (k := .malformedMetadata) he ?_
    rw [parseContainer_noNewline hS hr0 hfirst rfl hb, List.length_append, length_marker]
  · intro good
    have hbad : ∀ {more info}, S = good ++ more → more ≠ [] →
        (∀ t : Rlt, t.entries = recs → readRecord s good.length t = raise .malformedMetadata info) →
        faulted 6#8 info := by
      intro more info hsplit hmore hrec
      rw [hsplit, List.append_assoc] at hS hfirst
      exact faultsWith_of_parseContainer (k := .malformedMetadata) he
        (parseContainer_badRecord hS hr0 hfirst rfl hmore hok hrec)
    refine ⟨fun hsplit hcolon => ?_, fun c hsplit hc => ?_⟩
    · have hdrop : S.drop good.length = sym :: rest := by rw [hsplit, List.drop_left]
      exact hbad hsplit (List.cons_ne_nil _ _) fun t _ => readRecord_noColon hS (hr0.mono (Nat.zero_le _)) t hdrop hcolon
    · have hsplit' : S = good ++ ([sym, charColon] ++ bitChars c ++ rest) := by
        rw [hsplit]
        simp only [List.append_assoc]
        rfl
      have hdrop : S.drop good.length = [sym, charColon] ++ bitChars c ++ rest := by rw [hsplit', List.drop_left]
      refine ⟨fun hnl hzero hone => ?_, fun hlong hbit => ?_, fun hnl hkey => ?_⟩
      · exact hbad hsplit' (List.cons_ne_nil _ _) fun t _ =>
          readRecord_noNewline hS (hr0.mono (Nat.zero_le _)) t hdrop hc (bind_bitOfChar_eq_none hzero hone) hnl
      · obtain ⟨x, hx⟩ := bind_bitOfChar_eq_some hbit
        exact hbad hsplit' (List.cons_ne_nil _ _) fun t _ =>
          readRecord_long hS (hr0.mono (Nat.zero_le _)) t hdrop hlong hx
      · obtain ⟨rest, rfl⟩ := List.head?_eq_some_iff.1 hnl
        refine hbad hsplit' (List.cons_ne_nil _ _) fun t ht => ?_
        have hrecord : S.drop good.length = metadataRecord sym c ++ rest := by
          rw [hdrop, metadataRecord, List.append_assoc _ [charNL]]
          rfl
        rw [readRecord_loaded hS (hr0.mono (Nat.zero_le _)) t sym c hrecord hc,
          rltInsert_raises (by rwa [ht])]
        rfl

end Sys2Proof.Proofs

namespace Sys2Proof.Proofs

open Sys2Proof.Machine Sys2Proof.Laws

/-! ## `DEC_PARSE` and the grammar of containers (spec/46_decoder.md R160, spec/30_encoding.md R73) -/

/-- Settles O45: `decParseBody_loaded`, with `MAXLEN` written as a byte. -/
theorem decParseReadsEveryContainer : Obligations.DecParseReadsEveryContainer := by
  intro s sec nl tail he hS hr hsec hok
  obtain ⟨m, hlongest, hbody⟩ := decParseBody_loaded hS (readableFrom_zero hr) hsec hok
  have hm : m = BitVec.ofNat 8 (longestKey (tail.getD [])) := by
    rw [← hlongest, BitVec.ofNat_toNat, BitVec.setWidth_eq]
  subst hm
  exact ⟨s.out.restart, exec_of_body (i := .decParse) (by rintro ⟨⟩) he rfl hbody, rfl, rfl⟩

/-- What follows the marker, when the reading of the newline there completes: nothing, or a newline (R160). -/
theorem recordsStart_ok {s : State} {S : List Byte} (hS : Loaded s S) {p q : Nat}
    (h : recordsStart s p = .ok q) : (q = p ∧ S.drop p = []) ∨ (q = p + 1 ∧ S.drop p = charNL :: S.drop (p + 1)) := by
  rw [recordsStart, toNat_inLen hS] at h
  split at h
  next hlt =>
    split at h
    · cases h
    next b hb =>
      obtain ⟨_, hbyte⟩ := List.getElem?_eq_some_iff.1 (memReadAt_ok hS hlt hb)
      split at h
      next hnl =>
        refine .inr ⟨(Except.ok.inj h).symm, ?_⟩
        rw [List.drop_eq_getElem_cons hlt, hbyte, hnl]
      next => cases h
  next hend => exact .inl ⟨(Except.ok.inj h).symm, List.drop_eq_nil_of_le (Nat.le_of_not_lt hend)⟩

/-- A run of records is empty when its bytes are. -/
theorem recordsBytes_eq_nil {recs : List RltEntry} (h : recordsBytes recs = []) : recs = [] := by
  cases recs with
  | nil => rfl
  | cons e recs => cases h

/-- What follows the marker of a container that is parsed is a tail of the grammar, and its records are loaded
(R73, R160). -/
theorem tail_of_readRecords {s : State} {S : List Byte} (hS : Loaded s S) {p q : Nat} (hp : p ≤ S.length) {t : Rlt}
    (hstart : recordsStart s p = .ok q) (hrecs : readRecords s (s.inLen.toNat - q) q ⟨[], 0#8⟩ = .ok t) :
    ∃ tail, S.drop p = tailBytes tail ∧ t.entries = tail.getD [] ∧ RecordsOk (tail.getD []) ∧
      t.maxLen.toNat = longestKey (tail.getD []) := by
  have hcases := recordsStart_ok hS hstart
  have hq : q ≤ S.length := by
    rcases hcases with ⟨rfl, -⟩ | ⟨rfl, hdrop⟩
    · exact hp
    · have hlen := congrArg List.length hdrop
      rw [List.length_drop, List.length_cons] at hlen
      omega
  obtain ⟨recs, hentries, hbytes, hok, hlongest⟩ :=
    readRecords_ok hS _ (by rw [toNat_inLen hS]) hq hrecs (by decide) rfl
  rw [List.nil_append] at hentries
  rw [hentries] at hok hlongest
  rcases hcases with ⟨rfl, hdrop⟩ | ⟨rfl, hdrop⟩
  · obtain rfl := recordsBytes_eq_nil (hbytes.symm.trans hdrop)
    exact ⟨none, hdrop, hentries, hok, hlongest⟩
  · exact ⟨some recs, by rw [hdrop, hbytes]; rfl, hentries, hok, hlongest⟩

/-- What is parsed is a container of the grammar (R73, R160). -/
theorem containerForm_of_parseContainer {s : State} {S : List Byte} (hS : Loaded s S) {t : Rlt} {e : Nat}
    (h : parseContainer s = .ok (t, e)) :
    ∃ sec nl tail, S = containerForm sec nl tail ∧ SectionMeant sec nl S ∧ RecordsOk (tail.getD []) ∧
      t.entries = tail.getD [] ∧ t.maxLen.toNat = longestKey (tail.getD []) ∧ e = sec.length := by
  obtain ⟨m, p, hfind, hend, hstart, hrecs⟩ := parseContainer_ok h
  have hfirst := firstMarker_of_findMarker hS hfind
  have hle := markerAt_le hfirst.1
  obtain ⟨tail, htail, hentries, hok, hlongest⟩ :=
    tail_of_readRecords hS (by rw [length_marker]; exact hle) hstart hrecs
  obtain ⟨sec, nl, hbefore, hnl⟩ := exists_section (S.take m)
  have hm : (sec ++ sectionNL nl).length = m := by rw [← hbefore, List.length_take]; omega
  have hmarker : S.drop m = marker ++ S.drop (m + marker.length) := by
    rw [← List.drop_drop]
    conv_lhs => rw [← List.take_append_drop marker.length (S.drop m), hfirst.1]
  have hsplit : S = containerForm sec nl tail := by
    rw [containerForm, ← hbefore, ← htail, List.append_assoc, ← hmarker, List.take_append_drop]
  have hS' : Loaded s (sec ++ sectionNL nl ++ (marker ++ tailBytes tail)) := by
    rw [← List.append_assoc]
    exact hsplit.subst (motive := Loaded s) hS
  subst hm
  have he := sectionEnd_ok hS' hnl hend
  exact ⟨sec, nl, tail, hsplit, ⟨hnl, hfirst⟩, hok, hentries, hlongest, he⟩

/-- Settles O46: `DEC_PARSE` completed its pseudocode, and what it parsed is `containerForm_of_parseContainer`. -/
theorem decParseAcceptsOnlyContainers : Obligations.DecParseAcceptsOnlyContainers := by
  intro s t S _ hS hexec ht
  obtain ⟨e, hparse, hstate⟩ := decParseBody_ok (exec_completed hexec ht).1
  obtain ⟨sec, nl, tail, hform, hsec, hok, hrlt, hlongest, rfl⟩ := containerForm_of_parseContainer hS hparse
  refine ⟨sec, nl, tail, hform, hsec, hok, hrlt, hlongest, ?_⟩
  have hlen : sec.length ≤ S.length := by simp [hform, containerForm]
  have h64 := hS.2.2
  rw [hstate, BitVec.toNat_ofNat]
  omega

end Sys2Proof.Proofs

namespace Sys2Proof.Proofs

open Sys2Proof.Machine Sys2Proof.Laws

/-! ## The end of `DEC_SCAN` (spec/46_decoder.md R162) -/

section
variable {s : State} {S : List Byte} (hS : Loaded s S) (he : s.secEnd ≤ s.inLen) (hp : s.inPos ≤ s.secEnd)
  (hr : Readable s s.inPos s.secEnd)
include hS he hp hr

/-- Where the characters of the section are scanned, `DEC_SCAN` ends by whether bits are left over. -/
theorem decScanBody_of_scanList {c : Code} {o : OutStream}
    (h : scanList s s.inPos s.cand s.out (charsLeft s S) = .ok (c, o)) :
    decScanBody s =
      if c = [] then .ok { s with inPos := s.secEnd, cand := [], out := o } else raise .malformedStream s.secEnd := by
  rw [decScanBody, scanLoop_charsLeft hS he hp hr, h]
  by_cases hc : c = []
  · subst hc
    rfl
  · simp only [ne_eq, hc, not_false_eq_true, if_true, if_false]

/-- `DEC_SCAN` ends as the scan of the section's characters does, where that does not complete. -/
theorem decScanBody_of_scanList_error {x : Abort}
    (h : scanList s s.inPos s.cand s.out (charsLeft s S) = .error x) : decScanBody s = .error x := by
  rw [decScanBody, scanLoop_charsLeft hS he hp hr, h]

end

/-- With the cursor at or past `SEC_END` nothing is read. -/
theorem decScanBody_pastEnd {s : State} (h : s.secEnd ≤ s.inPos) :
    decScanBody s = if s.cand = [] then .ok s else raise .malformedStream s.inPos := by
  have hturns : s.secEnd.toNat - s.inPos.toNat = 0 := Nat.sub_eq_zero_of_le (BitVec.le_def.1 h)
  rw [decScanBody, hturns, scanLoop]
  exact ite_not ..

/-! ## Sections spelled by keys (spec/45_matcher.md R152, R154) -/

/-- Characters that spell the keys of symbols with room in the output are scanned: the symbols are stored and the
bits after the keys are the candidate. -/
theorem scanList_of_scanSplit {s : State} {chs : List Byte} {syms : List RltEntry} {rest : Code}
    (hready : ScanReady s) (hsplit : ScanSplit s chs syms rest) (hrest : rest.length ≤ s.maxLen.toNat) :
    ∃ o, OutStream.puts s.outCap s.out (syms.map RltEntry.sym) = .ok o ∧
      scanList s s.inPos s.cand s.out chs = .ok (rest, o) := by
  obtain ⟨hkeys, hlong, hcand⟩ := hready
  obtain ⟨hbits, hmatch, hnokey, hroom⟩ := hsplit
  obtain ⟨o, ho, -⟩ := puts_ok s.outCap s.out (syms.map RltEntry.sym) (by rwa [List.length_map])
  have hscan := scanList_keys s hkeys hlong syms rest chs s.inPos s.cand s.out hmatch hcand hbits hrest hnokey
  rw [ho] at hscan
  exact ⟨o, ho, hscan⟩

/-- A section that is the keys of symbols one after another is decoded to the symbols. -/
theorem decScanBody_symbols {s : State} {S : List Byte} (hS : Loaded s S) (he : s.secEnd ≤ s.inLen)
    (hp : s.inPos ≤ s.secEnd) (hr : Readable s s.inPos s.secEnd) {syms : List RltEntry} (hready : ScanReady s)
    (hmatch : ∀ e ∈ syms, Matchable s.rlt e)
    (hbits : s.cand ++ sectionBits (charsLeft s S) = syms.flatMap RltEntry.code)
    (hroom : s.out.len.toNat + syms.length ≤ s.outCap.toNat) :
    ∃ o, decScanBody s = .ok { s with inPos := s.secEnd, cand := [], out := o } ∧
      o.len.toNat = s.out.len.toNat + syms.length ∧
      hostReadOut { s with out := o } = hostReadOut s ++ syms.map RltEntry.sym := by
  have hsplit : ScanSplit s (charsLeft s S) syms [] :=
    ⟨by rw [hbits, List.append_nil], hmatch, not_prefix_nil hready.1, hroom⟩
  obtain ⟨o, ho, hscan⟩ := scanList_of_scanSplit hready hsplit (Nat.zero_le _)
  have hfits : s.out.len.toNat + (syms.map RltEntry.sym).length ≤ s.outCap.toNat := by rwa [List.length_map]
  obtain ⟨o', ho', hlen, -⟩ := puts_ok s.outCap s.out (syms.map RltEntry.sym) hfits
  cases ho.symm.trans ho'
  rw [List.length_map] at hlen
  exact ⟨o, decScanBody_of_scanList hS he hp hr hscan, hlen, readOut_puts hfits ho⟩

/-! ## `DEC_SCAN` and `VM_PUSH` (spec/45_matcher.md R152, R153, spec/46_decoder.md R162) -/

/-- What a step of the matcher and its phase test use of the state is the same in `u` as in `s`. -/
structure SameTable (s u : State) : Prop where
  rlt : u.rlt = s.rlt
  maxLen : u.maxLen = s.maxLen
  outCap : u.outCap = s.outCap
  flags : u.flags = s.flags

theorem SameTable.refl (s : State) : SameTable s s := ⟨rfl, rfl, rfl, rfl⟩

theorem SameTable.vmStep_eq {s u : State} (h : SameTable s u) (pos : Word64) (c : Code) (o : OutStream) (ch : Byte) :
    vmStep u pos c o ch = vmStep s pos c o ch :=
  vmStep_congr h.rlt h.maxLen h.outCap pos c o ch

/-- Pushing characters one after another scans them. -/
theorem scanList_of_runParts {s : State} (chs : List Byte) {u t : State} (pos : Word64) (hu : SameTable s u)
    (h : runParts (chs.map .vmPush) u = .next t) (ht : t.err = 0#8) :
    scanList s pos u.cand u.out chs = .ok (t.cand, t.out) ∧ SameTable s t := by
  induction chs generalizing u pos with
  | nil =>
    cases h
    exact ⟨rfl, hu⟩
  | cons ch chs ih =>
    obtain ⟨v, hv, hrest⟩ := runParts_cons_completed h ht
    obtain ⟨r, hr, rfl⟩ := vmPushBody_ok hv
    have hstep : vmStep s (pos + 1#64) u.cand u.out ch = .ok r := (hu.vmStep_eq ..).symm.trans (vmStep_pos hr _)
    rw [scanList, hstep]
    exact ih (u := { u with cand := r.cand, out := r.out, resA := 0#64, resB := matchResult r.hit }) (pos + 1#64)
      ⟨hu.rlt, hu.maxLen, hu.outCap, hu.flags⟩ hrest

/-- Settles O47: `decScanBody_symbols`, `scanList_of_runParts` and `decScanBody_pastEnd`. -/
theorem decScanDecodesConcatenatedCodes : Obligations.DecScanDecodesConcatenatedCodes := by
  refine ⟨fun s S he hrlt hS hp hse hr => ⟨fun syms hready hmatch hbits hroom => ?_, fun t hparts ht hcand => ?_⟩,
    fun s he hrlt hend hcand => ?_⟩
  · obtain ⟨o, hbody, hlen, hread⟩ := decScanBody_symbols hS hse hp hr hready hmatch hbits hroom
    exact ⟨o, exec_of_body (i := .decScan) (by rintro ⟨⟩) he hrlt hbody, hlen, hread, (decScanBody_appends hbody).2⟩
  · obtain ⟨hscan, -⟩ := scanList_of_runParts _ s.inPos (SameTable.refl s) hparts ht
    rw [hcand] at hscan
    exact exec_of_body (i := .decScan) (by rintro ⟨⟩) he hrlt (decScanBody_of_scanList hS hse hp hr hscan)
  · exact exec_of_body (i := .decScan) (by rintro ⟨⟩) he hrlt ((decScanBody_pastEnd hend).trans (if_pos hcand))

/-- What a step that raises a fault raises with the cursor elsewhere: a malformed stream the cursor, a full output the
same. -/
theorem vmStep_raise {s : State} {pos : Word64} {c : Code} {o : OutStream} {ch : Byte} {k : FaultKind} {info : Word64}
    (h : vmStep s pos c o ch = raise k info) (pos' : Word64) :
    vmStep s pos' c o ch = raise k (if k.number = 5#8 then pos' else info) := by
  cases hbit : bitOfChar ch with
  | none =>
    rw [vmStep_skip _ _ _ _ hbit] at h
    cases h
  | some bit =>
    cases hfind : rltFind s.rlt (c ++ [bit]) with
    | some r =>
      rw [vmStep_match _ _ _ hbit hfind] at h ⊢
      rcases put_cases s.outCap o r with ⟨-, e⟩ | ⟨-, e⟩ | ⟨-, e⟩ <;> rw [e] at h ⊢ <;> cases h
      rfl
    | none =>
      rw [vmStep_noMatch _ _ _ hbit hfind] at h ⊢
      split at h
      next hlong =>
        cases h
        rw [if_pos hlong]
        rfl
      next => cases h

/-- A `VM_PUSH`, ready, that ends in a fault raised it in its step of the scan. -/
theorem vmStep_of_exec_vmPush {s t : State} {ch : Byte} (he : s.err = 0#8) (hrlt : s.flags.rltValid = true)
    (h : exec (.vmPush ch) s = .next t) (ht : t.err ≠ 0#8) :
    ∃ k info, vmStep s s.inPos s.cand s.out ch = raise k info ∧ t = enterFault s k info := by
  have hready : phaseReady (.vmPush ch) s.flags = true := hrlt
  rw [exec_eq_accept (by rintro ⟨⟩), accept_ready _ he hready] at h
  rcases settle_next h with hbody | ⟨k, info, hbody, hfault⟩
  · exact absurd (keeps_noFault (.vmPush ch) s t (by rintro ⟨⟩) hrlt hbody he) ht
  · refine ⟨k, info, ?_, hfault⟩
    rw [bodyOf, vmPushBody] at hbody
    split at hbody
    next e hstep => exact hstep.trans (congrArg Except.error (Except.error.inj hbody))
    next => cases hbody

/-- A bit character after a candidate as long as the longest key, with which no key begins, raises (R152, R195). -/
theorem vmStep_tooLong {s : State} {c : Code} {ch : Byte} (hlong : ∀ e ∈ s.rlt, e.code.length ≤ s.maxLen.toNat)
    (hc : c.length = s.maxLen.toNat) (hch : ch = 0x30#8 ∨ ch = 0x31#8) (pos : Word64) (o : OutStream) :
    vmStep s pos c o ch = raise .malformedStream pos := by
  obtain ⟨bit, hbit⟩ : ∃ bit, bitOfChar ch = some bit :=
    bind_bitOfChar_eq_some (hch.imp (congrArg some) (congrArg some))
  have hnone : rltFind s.rlt (c ++ [bit]) = none := by
    refine (rltFind_eq_none _ _).2 fun e hmem hcode => ?_
    have hle := hlong e hmem
    rw [hcode, List.length_append, List.length_singleton] at hle
    omega
  rw [vmStep_noMatch s pos o hbit hnone, if_pos (by omega)]

/-- A bit that makes the candidate longer than the longest key ends `DEC_SCAN` with that character's index plus 1. -/
theorem decScanBody_tooLong {s : State} {S : List Byte} (hS : Loaded s S) (he : s.secEnd ≤ s.inLen)
    (hready : ScanReady s) {a : Word64} {ch : Byte} (hp : s.inPos ≤ a) (ha : a < s.secEnd)
    (hr : Readable s s.inPos (a + 1#64)) (hbyte : S[a.toNat]? = some ch) (hch : ch = 0x30#8 ∨ ch = 0x31#8)
    {syms : List RltEntry} {rest : Code} (hsplit : ScanSplit s ((S.take a.toNat).drop s.inPos.toNat) syms rest)
    (hrest : rest.length = s.maxLen.toNat) : decScanBody s = raise .malformedStream (a + 1#64) := by
  obtain ⟨hlt, hch'⟩ := List.getElem?_eq_some_iff.1 hbyte
  have hdrop : S.drop a.toNat = ch :: S.drop (a.toNat + 1) := by rw [List.drop_eq_getElem_cons hlt, hch']
  have hnext : (a + 1#64).toNat = a.toNat + 1 := (toNat_next hS hdrop).1
  have hbelow : ∀ x : Word64, x ≤ a → x < a + 1#64 := fun x hx => by
    rw [BitVec.lt_def, hnext]
    exact Nat.lt_succ_of_le (BitVec.le_def.1 hx)
  have hbefore : Readable s s.inPos a := fun x hx hlo => hr x hx ⟨hlo.1, hbelow x (BitVec.le_of_lt hlo.2)⟩
  have hreads : a ∉ s.inFault := fun hf => hr a hf ⟨hp, hbelow a (BitVec.le_refl a)⟩
  obtain ⟨o, -, hscan⟩ := scanList_of_scanSplit hready hsplit (Nat.le_of_eq hrest)
  obtain ⟨n, hloop⟩ := scanLoop_upto hS he hp ha hbefore hscan
  rw [decScanBody, hloop, scanLoop, if_pos ha, memRead_pos hS hdrop hreads]
  simp only [vmStep_tooLong hready.2.1 hrest hch]
  rfl

/-- Settles O48: each clause by what the pseudocode of `DEC_SCAN` raises. -/
theorem decScanFaultsOnLeftoverBits : Obligations.DecScanFaultsOnLeftoverBits := by
  intro s S he hrlt
  have hfaults : ∀ {k info}, decScanBody s = raise k info → FaultsWith (exec .decScan s) s k.number info :=
    fun h => faultsWith_of_body (i := .decScan) (by rintro ⟨⟩) he hrlt h
  refine ⟨fun hend hcand => hfaults (k := .malformedStream) ((decScanBody_pastEnd hend).trans (if_neg hcand)),
    fun hS hse => ?_⟩
  have hleft : s.inPos ≤ s.secEnd → Readable s s.inPos s.secEnd → ∀ {c o}, c ≠ [] →
      scanList s s.inPos s.cand s.out (charsLeft s S) = .ok (c, o) →
      FaultsWith (exec .decScan s) s 5#8 s.secEnd := fun hp hr _ _ hc hscan =>
    hfaults (k := .malformedStream) ((decScanBody_of_scanList hS hse hp hr hscan).trans (if_neg hc))
  refine ⟨?noKey, ?afterSymbols, ?pushed⟩
  case noKey =>
    intro hp hr bits hbits hlen hnokey
    exact hleft hp hr hbits (scanList_noKey s _ s.inPos s.cand s.out hlen hnokey)
  case afterSymbols =>
    refine fun hready syms rest => ⟨fun hp hr hrest hlen hsplit => ?_,
      fun a ch hp ha hr hbyte hch hsplit hlen => ?_⟩
    · obtain ⟨o, -, hscan⟩ := scanList_of_scanSplit hready hsplit hlen
      exact hleft hp hr hrest hscan
    · exact hfaults (k := .malformedStream) (decScanBody_tooLong hS hse hready hp ha hr hbyte hch hsplit hlen)
  case pushed =>
    refine fun hp hr t => ⟨fun hparts ht hcand => ?_, fun pre ch post u hchars hparts hu hexec ht => ?_⟩
    · exact hleft hp hr hcand (scanList_of_runParts _ s.inPos (SameTable.refl s) hparts ht).1
    · obtain ⟨hscan, hsame⟩ := scanList_of_runParts pre s.inPos (SameTable.refl s) hparts hu
      obtain ⟨k, info, hstep, rfl⟩ := vmStep_of_exec_vmPush hu (hsame.flags ▸ hrlt) hexec ht
      rw [hsame.vmStep_eq] at hstep
      refine hfaults (decScanBody_of_scanList_error hS hse hp hr ?_)
      rw [hchars, scanList_append, hscan]
      simp only [scanList, vmStep_raise hstep, BitVec.add_assoc, BitVec.ofNat_add]
      rfl

end Sys2Proof.Proofs

namespace Sys2Proof.Proofs

open Sys2Proof.Machine Sys2Proof.Laws

/-! ## `DECODE` of a container (spec/46_decoder.md R163, R165) -/

/-- What `DEC_PARSE` leaves of a container with the section `sec` and the records `recs`, `m` being the longest code
(R160). -/
def afterParse (s : State) (sec : List Byte) (recs : List RltEntry) (m : BitVec 8) : State := { s with
  inPos := 0#64, out := s.out.restart, rlt := recs, maxLen := m, cand := [], secEnd := BitVec.ofNat 64 sec.length,
  flags := flagsAfterParse s.flags }

/-- `DECODE` of a readable container of the grammar scans its section over its records (R163). -/
theorem decodeBody_eq_scan {s : State} {sec : List Byte} {nl : Bool} {tail : Option (List RltEntry)}
    (hS : Loaded s (containerForm sec nl tail)) (hr : Readable s 0#64 s.inLen)
    (hsec : SectionMeant sec nl (containerForm sec nl tail)) (hok : RecordsOk (tail.getD [])) :
    ∃ m, let u := afterParse s sec (tail.getD []) m
      decodeBody s = decScanBody u ∧ ScanReady u ∧ u.secEnd ≤ u.inLen ∧ Readable u u.inPos u.secEnd ∧
        charsLeft u (containerForm sec nl tail) = sec := by
  obtain ⟨m, hlongest, hparse⟩ := decParseBody_loaded hS (readableFrom_zero hr) hsec hok
  have hlen : sec.length ≤ (containerForm sec nl tail).length := by simp [containerForm]
  have hend : (BitVec.ofNat 64 sec.length).toNat = sec.length := by
    have h64 := hS.2.2
    rw [BitVec.toNat_ofNat]
    omega
  have hle : BitVec.ofNat 64 sec.length ≤ s.inLen := by rw [BitVec.le_def, hend, toNat_inLen hS]; exact hlen
  refine ⟨m, decodeBody_eq_decScanBody hparse, scanReady_parsed hok.2 hlongest rfl, hle, fun x hx ⟨hlo, hhi⟩ =>
    hr x hx ⟨hlo, BitVec.lt_def.2 ((BitVec.lt_def.1 hhi).trans_le (BitVec.le_def.1 hle))⟩, ?_⟩
  rw [charsLeft, afterParse, hend, containerForm, List.append_assoc, List.append_assoc, List.take_left]
  rfl

/-- Settles O49: the scan of `decodeBody_eq_scan` gives the symbols by `decScanBody_symbols`. -/
theorem decodeReadsEveryContainer : Obligations.DecodeReadsEveryContainer := by
  intro s sec nl tail syms he hS hr hsec hok hmatch hbits hroom
  obtain ⟨m, hscan, hready, hle, hr', hchars⟩ := decodeBody_eq_scan hS hr hsec hok
  obtain ⟨o, hbody, hlen, hread⟩ := decScanBody_symbols (s := afterParse s sec (tail.getD []) m) hS hle
    (zero_le_word _) hr' hready hmatch (hchars.symm ▸ hbits) ((Nat.zero_add _).trans_le hroom)
  exact ⟨_, exec_of_body (i := .decode) (by rintro ⟨⟩) he rfl (hscan.trans hbody), he, rfl, rfl, rfl, rfl, rfl, hread,
    hlen.trans (Nat.zero_add _)⟩

/-! ## Containers the encoder writes are containers of the grammar (spec/30_encoding.md R70 to R73) -/

/-- The records of a code table, in ascending order of byte value (R70, R71). -/
def recordsOf (t : CodeTable) : List RltEntry :=
  byteValues.filterMap fun b => (ctLookup t b).map fun c => ⟨c, b⟩

theorem mem_recordsOf {t : CodeTable} {e : RltEntry} : e ∈ recordsOf t ↔ ctLookup t e.sym = some e.code := by
  simp only [recordsOf, List.mem_filterMap, mem_byteValues, true_and, Option.map_eq_some_iff]
  constructor
  · rintro ⟨b, c, hlookup, rfl⟩
    exact hlookup
  · exact fun hlookup => ⟨e.sym, e.code, hlookup, rfl⟩

theorem recordsBytes_recordsOf (t : CodeTable) : recordsBytes (recordsOf t) = metadataRecords t := by
  rw [recordsBytes, recordsOf, metadataRecords, List.filterMap_eq_flatMap_toList, List.flatMap_assoc]
  refine congrArg (byteValues.flatMap ·) (funext fun b => ?_)
  cases ctLookup t b with
  | none => rfl
  | some c => exact List.append_nil _

theorem container_eq_containerForm (t : CodeTable) (S : List Byte) :
    container t S = containerForm (bitSection t S) true (some (recordsOf t)) := by
  rw [container, ← recordsBytes_recordsOf, List.append_assoc]
  rfl

/-- In a prefix code only an entry's own key begins its key (R133, R154). -/
theorem entry_eq_of_prefix {t : CodeTable} (hp : PrefixCode t) {x e : RltEntry} (hx : x ∈ recordsOf t)
    (he : e ∈ recordsOf t) (h : x.code <+: e.code) : x = e := by
  rw [mem_recordsOf] at hx he
  have hsym : x.sym = e.sym := by
    by_contra hne
    exact hp x.sym e.sym x.code e.code hne hx he h
  rw [hsym, he, Option.some.injEq] at hx
  cases x
  cases e
  cases hsym
  cases hx
  rfl

/-- The records of a prefix code with lengths 1 to 255 are records of the grammar (R73). -/
theorem recordsOk_recordsOf {t : CodeTable} (hp : PrefixCode t) (hl : CodeLengths t) : RecordsOk (recordsOf t) := by
  refine ⟨(List.length_filterMap_le _ _).trans_eq length_byteValues, ?_, fun e he => hl _ _ (mem_recordsOf.1 he)⟩
  have hnodup : (recordsOf t).Nodup := by
    refine nodup_byteValues.filterMap fun a b e ha hb => ?_
    obtain ⟨_, -, rfl⟩ := Option.map_eq_some_iff.1 ha
    obtain ⟨_, -, h⟩ := Option.map_eq_some_iff.1 hb
    exact (congrArg RltEntry.sym h).symm
  exact hnodup.map_on fun x hx e he hcode => entry_eq_of_prefix hp hx he (hcode ▸ List.prefix_refl _)

/-- Where the first character of the marker does not stand before it, the marker stands first there. -/
theorem firstMarker_of_noDash {before : List Byte} (rest : List Byte) (h : 0x2D#8 ∉ before) :
    FirstMarker (before ++ (marker ++ rest)) before.length := by
  refine ⟨by rw [MarkerAt, List.drop_left, List.take_left], fun k hk hat => h ?_⟩
  have hhead := congrArg List.head? hat
  rw [List.head?_take, if_neg (by rw [length_marker]; decide), List.head?_drop, List.getElem?_append_left hk] at hhead
  exact List.mem_of_getElem? hhead

theorem noDash_bitSection (t : CodeTable) (S : List Byte) : 0x2D#8 ∉ bitSection t S ++ [charNL] := by
  rw [List.mem_append, not_or]
  refine ⟨fun hmem => ?_, by decide⟩
  obtain ⟨b, -, hmem⟩ := List.mem_flatMap.1 hmem
  obtain ⟨bit, -, hchar⟩ := List.mem_map.1 hmem
  cases bit with
  | false => exact absurd hchar (by decide)
  | true => exact absurd hchar (by decide)

theorem sectionMeant_bitSection (t : CodeTable) (S : List Byte) (tail : Option (List RltEntry)) :
    SectionMeant (bitSection t S) true (containerForm (bitSection t S) true tail) := by
  refine ⟨by rintro ⟨⟩, ?_⟩
  rw [containerForm, List.append_assoc (bitSection t S ++ sectionNL true)]
  exact firstMarker_of_noDash _ (noDash_bitSection t S)

/-! ## The round trip (spec/46_decoder.md R164) -/

/-- The records of the bytes of an input, one after another. -/
def symbolsOf (t : CodeTable) (S : List Byte) : List RltEntry := S.map fun b => ⟨(ctLookup t b).getD [], b⟩

theorem map_sym_symbolsOf (t : CodeTable) (S : List Byte) : (symbolsOf t S).map RltEntry.sym = S := by
  rw [symbolsOf, List.map_map]
  exact List.map_id S

/-- The bits of the bit section are the codes of the input's bytes (R70, R73). -/
theorem sectionBits_bitSection (t : CodeTable) (S : List Byte) :
    sectionBits (bitSection t S) = (symbolsOf t S).flatMap RltEntry.code := by
  induction S with
  | nil => rfl
  | cons b S ih =>
    have hcons : bitSection t (b :: S) = bitChars ((ctLookup t b).getD []) ++ bitSection t S := List.flatMap_cons
    rw [hcons, sectionBits_append, sectionBits_bitChars, ih]
    rfl

/-- Where every byte of the input has a code of a prefix code, its entry can match (R154). -/
theorem matchable_of_mem_symbolsOf {t : CodeTable} (hp : PrefixCode t) {S : List Byte}
    (hcodes : ∀ b ∈ S, (ctLookup t b).isSome = true) {e : RltEntry} (he : e ∈ symbolsOf t S) :
    Matchable (recordsOf t) e := by
  have hmem : e ∈ recordsOf t := by
    obtain ⟨b, hb, rfl⟩ := List.mem_map.1 he
    obtain ⟨c, hc⟩ := Option.isSome_iff_exists.1 (hcodes b hb)
    rw [mem_recordsOf, hc]
    rfl
  exact ⟨hmem, fun x hx h => entry_eq_of_prefix hp hx hmem h⟩

/-- A load that is allowed leaves the bytes loaded and the parameters as they were (R183, log 2). -/
theorem hostLoad_loads {s : State} {S : List Byte} (he : s.err = 0#8) (hlen : S.length < 2 ^ 64) :
    ∃ u, hostLoad S s = .next u ∧ Loaded u S ∧ u.err = 0#8 ∧ u.inFault = s.inFault ∧ u.outCap = s.outCap := by
  exact ⟨_, if_neg (not_or.2 ⟨not_not.2 he, Nat.not_le.2 hlen⟩), ⟨rfl, rfl, hlen⟩, he, rfl, rfl⟩

/-- Settles O50: `ENCODE` writes the container of its input by `encodeWritesTheContainerOfItsInput`, which is a
container of the grammar with a prefix code, and `DECODE` of it is `decodeReadsEveryContainer`. -/
theorem roundTrip : Obligations.RoundTrip := by
  intro s S he hS hfault hcap
  have hr : Readable s 0#64 s.inLen := fun a ha => by rw [hfault] at ha; exact absurd ha List.not_mem_nil
  obtain ⟨t, hencode, ht, -, -, -, -, hcodes, hprefix, hlengths, hread, -⟩ :=
    encodeWritesTheContainerOfItsInput s S he hS hr hcap
  obtain ⟨-, -, hcapKept, hfaultKept, -⟩ := noCommandWritesTheInput _ _ _ hencode
  have hlen : (container t.code S).length < 2 ^ 64 :=
    ((length_container_le hlengths S).trans hcap).trans_lt s.outCap.isLt
  obtain ⟨u, hload, hloaded, hu, hfaultLoad, hcapLoad⟩ := hostLoad_loads ht hlen
  rw [container_eq_containerForm] at hloaded
  rw [← hread] at hload
  have hreadable : Readable u 0#64 u.inLen := fun a ha => by
    rw [hfaultLoad, hfaultKept, hfault] at ha
    exact absurd ha List.not_mem_nil
  have hroom : (symbolsOf t.code S).length ≤ u.outCap.toNat := by
    rw [hcapLoad, hcapKept, symbolsOf, List.length_map]
    omega
  obtain ⟨v, hdecode, hv, -, -, -, -, -, hout, -⟩ :=
    decodeReadsEveryContainer u _ true _ (symbolsOf t.code S) hu hloaded hreadable (sectionMeant_bitSection _ _ _)
      (recordsOk_recordsOf hprefix hlengths)
      (fun e hmem => matchable_of_mem_symbolsOf hprefix (fun b hb => (hcodes b).2 hb) hmem)
      (sectionBits_bitSection _ _) hroom
  exact ⟨t, u, v, hencode, ht, hload, hdecode, hv, hout.trans (map_sym_symbolsOf _ _)⟩

end Sys2Proof.Proofs

namespace Sys2Proof.Proofs

open Sys2Proof.Machine Sys2Proof.Laws

/-! ## The output of a faulted block (spec/47_control.md R184, spec/60_exceptions.md R201 to R204) -/

/-- A command that ends with a fault recorded was discarded, found its required flag clear, or raised the fault in its
pseudocode (R180). -/
theorem exec_faulted {i : Instr} {s t : State} (h : exec i s = .next t) (ht : t.err ≠ 0#8) :
    (s.err ≠ 0#8 ∧ t = s) ∨
    (s.err = 0#8 ∧ ∃ k info, t = enterFault s k info ∧
      ((phaseReady i s.flags = false ∧ k = .sequenceError ∧ info = i.opcode.setWidth 64) ∨
        bodyOf i s = raise k info)) := by
  by_cases hi : i = .clr
  · subst hi
    cases h
    exact absurd rfl ht
  rw [exec_eq_accept hi] at h
  by_cases he : s.err = 0#8
  · refine .inr ⟨he, ?_⟩
    cases hp : phaseReady i s.flags with
    | false =>
      rw [accept_unready _ he hp] at h
      cases h
      exact ⟨_, _, rfl, .inl ⟨rfl, rfl, rfl⟩⟩
    | true =>
      rw [accept_ready _ he hp] at h
      rcases settle_next h with hb | ⟨k, info, hb, rfl⟩
      · exact absurd (keeps_noFault i s t hi hp hb he) ht
      · exact ⟨k, info, rfl, .inr hb⟩
  · rw [accept_faulted _ _ he] at h
    cases h
    exact .inl ⟨he, rfl⟩

/-- The block has no output while a fault is recorded (R184, R201). -/
def FaultedOutputEmpty (s : State) : Prop := s.err ≠ 0#8 → s.out.len = 0#64

theorem faultedOutputEmpty_of_noFault {s : State} (h : s.err = 0#8) : FaultedOutputEmpty s :=
  fun hne => absurd h hne

theorem faultedOutputEmpty_enterFault (s : State) (k : FaultKind) (info : Word64) :
    FaultedOutputEmpty (enterFault s k info) := fun _ => rfl

/-- A discarded command leaves the output empty, and a fault that is raised empties it (R201, R204). -/
theorem exec_keeps_faultedOutputEmpty {i : Instr} {s t : State} (h : exec i s = .next t)
    (hs : FaultedOutputEmpty s) : FaultedOutputEmpty t := by
  intro ht
  rcases exec_faulted h ht with ⟨-, rfl⟩ | ⟨-, k, info, rfl, -⟩
  · exact hs ht
  · exact faultedOutputEmpty_enterFault s k info ht

/-- Settles O55: a command and a rejected word are discarded or enter a fault, which empties the output; a load and a
reset leave no fault recorded. -/
theorem stepKeepsFaultedOutputEmpty : Obligations.StepKeepsFaultedOutputEmpty := by
  intro s t h hs
  rcases step_cases h with ⟨-, rfl⟩ | ⟨rest, ⟨w, i, -, -, h⟩ | ⟨w, e, -, -, h⟩ | ⟨S, -, h⟩ | ⟨-, rfl⟩⟩
  · exact hs
  · exact exec_keeps_faultedOutputEmpty h hs
  · rcases rejectWord_cases w { s with port := rest } with ⟨-, e⟩ | ⟨-, e⟩ <;> rw [e] at h <;> cases h
    · exact hs
    · exact faultedOutputEmpty_enterFault _ _ _
  · obtain ⟨he, -, rfl⟩ := hostLoad_next h
    exact faultedOutputEmpty_of_noFault he
  · exact faultedOutputEmpty_of_noFault rfl

/-- Of a stream without output the host reads nothing (R184). -/
theorem hostReadOut_of_len_zero {s : State} (h : s.out.len = 0#64) : hostReadOut s = [] := by
  rw [hostReadOut, h]
  rfl

/-- Settles O10: with no fault recorded before, a command that ends with one entered it. -/
theorem faultingCommandLeavesNoOutput : Obligations.FaultingCommandLeavesNoOutput := by
  intro i s t h he ht
  rcases exec_faulted h ht with ⟨hne, -⟩ | ⟨-, k, info, rfl, -⟩
  · exact absurd he hne
  · exact ⟨rfl, hostReadOut_of_len_zero rfl, rfl, rfl⟩

/-- Settles O9: a raise is a fault entry (`settle_raise`), and `STATUS.ERRV` is read from `ERR` by `getLsbD_status`. -/
theorem faultEntryWritesFaultRegisters : Obligations.FaultEntryWritesFaultRegisters := by
  intro s k info
  have herrv : (enterFault s k info).status.getLsbD 1 = true :=
    (getLsbD_status _ 1).trans (bne_iff_ne.2 (number_ne_zero k))
  refine ⟨_, settle_raise s k info, ?_, rfl, herrv, getLsbD_status _ 0, rfl, hostReadOut_of_len_zero rfl⟩
  cases k <;> rfl

end Sys2Proof.Proofs

namespace Sys2Proof.Proofs

open Sys2Proof.Machine Sys2Proof.Laws

/-! ## Words at the command port (spec/47_control.md R180, spec/60_exceptions.md R198, R204, R207) -/

/-- A row of the opcode table that decodes is a word that decodes. -/
theorem decode_of_decodeTableWord {n w : Nat} {i : Instr} (h : decodeTableWord n w = some i) :
    decode (tableWord n w) = .ok i := by
  unfold decodeTableWord at h
  cases hd : decode (tableWord n w) with
  | ok j => rw [hd] at h; exact congrArg Except.ok (Option.some.inj h)
  | error e => rw [hd] at h; cases h

/-- Settles O5: each clause is what a step does with the host's next move, or without one. -/
theorem stepRunsDecodedCommand : Obligations.StepRunsDecodedCommand :=
  ⟨fun _ _ _ _ => step_present,
    fun s n w _ hd => step_present (withFetchWord_port s n w) (decode_of_decodeTableWord hd),
    fun _ => step_idle⟩

/-- The decoder refuses a word that is not legal (R63). -/
theorem decode_error_of_not_legal {w : CommandWord} (h : legal w = false) : ∃ e, decode w = .error e := by
  cases hd : decode w with
  | ok i => exact absurd ((decoderAcceptsExactlyLegalWords w).1 ⟨i, hd⟩) (by simp [h])
  | error e => exact ⟨e, rfl⟩

/-- Settles O6: such a word does not decode, so it is rejected. -/
theorem illegalWordRaisesIllegalCommand : Obligations.IllegalWordRaisesIllegalCommand := by
  intro s w rest hport he hw
  obtain ⟨e, hd⟩ := decode_error_of_not_legal hw
  rw [step_present_illegal hport hd]
  rcases rejectWord_cases w { s with port := rest } with ⟨hne, -⟩ | ⟨-, hreject⟩
  · exact absurd he hne
  · exact ⟨_, hreject, rfl, rfl, rfl, rfl, rfl, rfl⟩

/-- While a fault is recorded a command other than `CLR` is discarded (R204). -/
theorem exec_discarded {i : Instr} (hi : i ≠ .clr) {s : State} (h : s.err ≠ 0#8) : exec i s = .next s := by
  rw [exec_eq_accept hi, accept_faulted _ _ h]

/-- While a fault is recorded a word that is not legal is discarded too (R180). -/
theorem rejectWord_discarded (w : CommandWord) {s : State} (h : s.err ≠ 0#8) : rejectWord w s = .next s := if_pos h

/-- `CLR` has one word (R61, R62). -/
theorem eq_of_decode_clr {w : CommandWord} (h : decode w = .ok .clr) : w = 0x010000000000000000000000#96 :=
  (encodeOfDecode w .clr h).symm.trans (by decide)

/-- Settles O7: a word is discarded as a command or as a word that is not legal, and only the word of `CLR` decodes to
`CLR`. -/
theorem faultedBlockDiscardsEveryWordButClr : Obligations.FaultedBlockDiscardsEveryWordButClr := by
  intro s he
  refine ⟨fun i hi => exec_discarded hi he, fun w rest hport hw => ?_, fun rest hport => ?_⟩
  · cases hd : decode w with
    | ok i =>
      rw [step_present hport hd]
      refine exec_discarded ?_ he
      rintro rfl
      exact hw (eq_of_decode_clr hd)
    | error e =>
      rw [step_present_illegal hport hd]
      exact rejectWord_discarded w he
  · rw [step_present hport decode_word_clr]
    exact ⟨_, exec_clr _, rfl, rfl⟩

/-! ## Clearing and loading (spec/47_control.md R181, R183, spec/70_reset_and_hazards.md R220, R221) -/

/-- `STATUS` has no bit that `CLR` does not clear (R20, R181): it reads as after reset. -/
theorem status_clearAll (s : State) : (clearAll s).status = 0#32 :=
  calc (clearAll s).status = State.reset.status := by rw [State.status, clearAll_flags, clearAll_err]; rfl
    _ = 0#32 := status_reset

/-- Settles O13: both end in a state with everything cleared, hardware reset that of an emptied input (R221). -/
theorem clrAndResetClearTheState : Obligations.ClrAndResetClearTheState := by
  unfold Obligations.ClrAndResetClearTheState
  intro cleared
  have hcleared : ∀ s, cleared (clearAll s) :=
    fun s => ⟨rfl, rfl, rfl, rfl, rfl, rfl, rfl, rfl, rfl, rfl, status_clearAll s, rfl, rfl, rfl, rfl⟩
  exact ⟨fun s => ⟨_, exec_clr s, hcleared s, rfl, rfl, rfl, rfl, rfl⟩, fun s rest hport =>
    ⟨_, step_reset hport, hcleared { s with port := rest, inMem := [], inLen := 0#64 }, rfl, rfl, rfl, rfl⟩⟩

/-- Settles O14: a load that R183 allows places the bytes, which `read_ofBytes` reads back. -/
theorem hostLoadPlacesInput : Obligations.HostLoadPlacesInput := by
  intro s S rest hport hlen
  rw [step_load hport]
  refine ⟨fun he => ⟨Memory.ofBytes S, if_neg ?_, read_ofBytes S⟩, fun he => if_pos (.inl he)⟩
  exact not_or.2 ⟨not_not.2 he, Nat.not_le.2 hlen⟩

end Sys2Proof.Proofs

namespace Sys2Proof.Proofs

open Sys2Proof.Machine Sys2Proof.Laws

/-! ## The bounds of the queue (spec/60_exceptions.md R192, R193) -/

theorem pqInsertBody_full {s : State} (h : 256 ≤ s.heap.length) (key : Word64) (node : NodeIx) :
    pqInsertBody key node s = raise .capacityExceeded 0#64 := by
  rcases pqInsert_cases s.heap ⟨key, node⟩ with ⟨-, e⟩ | ⟨hroom, -⟩
  · rw [pqInsertBody, e]; rfl
  · omega

theorem pqExtractMinBody_empty {s : State} (h : s.heap = []) : pqExtractMinBody s = raise .emptyQueue 0#64 := by
  rw [pqExtractMinBody, h]; rfl

theorem pqPeekBody_empty {s : State} (h : s.heap = []) : pqPeekBody s = raise .emptyQueue 0#64 := by
  rw [pqPeekBody, h]; rfl

/-- A queue command whose pseudocode raises a fault ends with it: none requires a phase (R26, R201). -/
theorem queueCommand_faults {i : Instr} (hi : i ≠ .clr) (hreq : requiredFlag i = none) {s : State} (he : s.err = 0#8)
    {k : FaultKind} {info : Word64} (hb : bodyOf i s = raise k info) :
    ∃ t, exec i s = .next t ∧ t.err = k.number ∧ t.errInfo = info ∧ t.out.len = 0#64 := by
  have hp : phaseReady i s.flags = true := by rw [phaseReady, hreq]
  obtain ⟨t, ht, herr, hinfo, hlen, -⟩ := faultsWith_of_body hi he hp hb
  exact ⟨t, ht, herr, hinfo, hlen⟩

/-- Settles O21: the pseudocode of each command raises its fault. -/
theorem queueBoundsFault : Obligations.QueueBoundsFault := fun _ he =>
  ⟨fun key node hfull =>
      queueCommand_faults (i := .pqInsert key node) (by rintro ⟨⟩) rfl he (pqInsertBody_full hfull.ge key node),
    fun hempty => ⟨queueCommand_faults (i := .pqExtractMin) (by rintro ⟨⟩) rfl he (pqExtractMinBody_empty hempty),
      queueCommand_faults (i := .pqPeek) (by rintro ⟨⟩) rfl he (pqPeekBody_empty hempty)⟩⟩

end Sys2Proof.Proofs

namespace Sys2Proof.Proofs

open Sys2Proof.Machine Sys2Proof.Laws

/-! ## What a piece of pseudocode can raise (spec/60_exceptions.md R190)

Each piece, in terms of the set of faults it may raise: the pieces that meet a stream may raise `IOFailure`, the parser
`MalformedMetadata` too, and so on. -/

/-- Every fault the piece of pseudocode raises is one of `P`. -/
def OnlyRaises {α : Type} (P : FaultKind → Word64 → Prop) (r : Res α) : Prop := ∀ k info, r = raise k info → P k info

section
variable {P : FaultKind → Word64 → Prop}

theorem onlyRaises_ok {α : Type} (a : α) : OnlyRaises P (.ok a : Res α) := by rintro k info ⟨⟩

theorem onlyRaises_stop {α : Type} (f : Fault) : OnlyRaises P (stop f : Res α) := by rintro k info ⟨⟩

theorem onlyRaises_raise {α : Type} {k : FaultKind} {info : Word64} (h : P k info) :
    OnlyRaises P (raise k info : Res α) := by
  rintro _ _ ⟨⟩
  exact h

/-- A piece that ends where one of its parts does raises what that part raises. -/
theorem OnlyRaises.of_error {α β : Type} {r : Res α} {e : Abort} (h : OnlyRaises P r) (he : r = .error e) :
    OnlyRaises P (.error e : Res β) := by
  rintro k info ⟨⟩
  exact h k info he

theorem OnlyRaises.bind {α β : Type} {r : Res α} {f : α → Res β} (h : OnlyRaises P r)
    (hf : ∀ a, r = .ok a → OnlyRaises P (f a)) : OnlyRaises P (r >>= f) := by
  cases hr : r with
  | ok a => exact hf a hr
  | error e => exact h.of_error hr

theorem onlyRaises_rltInsert (hmeta : ∀ info, P .malformedMetadata info) (t : Rlt) (c : Code) (b : Byte) (p : Nat) :
    OnlyRaises P (rltInsert t c b p) := by
  rcases rltInsert_cases t c b p with ⟨-, e⟩ | ⟨-, -, -, -, e⟩ <;> rw [e]
  · exact onlyRaises_raise (hmeta _)
  · exact onlyRaises_ok _

/-! ### The streams -/

section
variable (hio : ∀ info, P .ioFailure info)
include hio

theorem onlyRaises_memRead (s : State) (a : Word64) : OnlyRaises P (memRead s a) := by
  rcases memRead_cases s a with ⟨-, e⟩ | ⟨-, -, e⟩ | ⟨-, -, -, e⟩ | ⟨b, -, -, -, e⟩ <;> rw [e]
  · exact onlyRaises_stop _
  · exact onlyRaises_raise (hio _)
  · exact onlyRaises_stop _
  · exact onlyRaises_ok _

theorem onlyRaises_put (cap : Word64) (o : OutStream) (v : Byte) : OnlyRaises P (OutStream.put cap o v) := by
  rcases put_cases cap o v with ⟨-, e⟩ | ⟨-, e⟩ | ⟨-, e⟩ <;> rw [e]
  · exact onlyRaises_raise (hio _)
  · exact onlyRaises_stop _
  · exact onlyRaises_ok _

theorem onlyRaises_puts (cap : Word64) (o : OutStream) (vs : List Byte) : OnlyRaises P (OutStream.puts cap o vs) := by
  induction vs generalizing o with
  | nil => exact onlyRaises_ok _
  | cons v vs ih =>
    rw [OutStream.puts]
    split
    next e he => exact (onlyRaises_put hio cap o v).of_error he
    next => exact ih _

theorem onlyRaises_countLoop (s : State) (n : Nat) (pos : Word64) (f : FreqTable) :
    OnlyRaises P (countLoop s n pos f) := by
  induction n generalizing pos f with
  | zero => exact onlyRaises_ok _
  | succ n ih =>
    rw [countLoop]
    split
    · split
      next e he => exact (onlyRaises_memRead hio s pos).of_error he
      next => exact ih _ _
    · exact onlyRaises_ok _

/-- The emitting loop raises `SequenceError` only at a byte of the input without a code (R140). -/
theorem onlyRaises_emitLoop {s : State}
    (hcode : ∀ a b, memRead s a = .ok b → ctLookup s.code b = none → P .sequenceError 0x23#64)
    (n : Nat) (pos : Word64) (o : OutStream) : OnlyRaises P (emitLoop s n pos o) := by
  induction n generalizing pos o with
  | zero => exact onlyRaises_ok _
  | succ n ih =>
    rw [emitLoop]
    split
    · split
      next e he => exact (onlyRaises_memRead hio s pos).of_error he
      next b hb =>
        have hemit : OnlyRaises P (emitCode s o b) := by
          unfold emitCode
          split
          next hnone => exact onlyRaises_raise (hcode pos b hb hnone)
          next c _ => exact onlyRaises_puts hio s.outCap o (c.map charOfBit)
        split
        next e he => exact hemit.of_error he
        next => exact ih _ _
    · exact onlyRaises_ok _

theorem onlyRaises_emitBody {s : State}
    (hcode : ∀ a b, memRead s a = .ok b → ctLookup s.code b = none → P .sequenceError 0x23#64) :
    OnlyRaises P (emitBody s) := by
  unfold emitBody
  split
  next e he => exact (onlyRaises_emitLoop hio hcode _ _ _).of_error he
  next =>
    split
    next e he => exact (onlyRaises_puts hio _ _ _).of_error he
    next => exact onlyRaises_ok _

theorem onlyRaises_freqCountBody (s : State) : OnlyRaises P (freqCountBody s) := by
  unfold freqCountBody
  split
  next e he => exact (onlyRaises_countLoop hio _ _ _ _).of_error he
  next => exact onlyRaises_ok _

/-! ### Reading a container -/

theorem onlyRaises_readSpan (s : State) (n p : Nat) : OnlyRaises P (readSpan s n p) := by
  induction n generalizing p with
  | zero => exact onlyRaises_ok _
  | succ n ih =>
    rw [readSpan]
    split
    next e he => exact (onlyRaises_memRead hio s _).of_error he
    next =>
      split
      next e he => exact (ih _).of_error he
      next => exact onlyRaises_ok _

theorem onlyRaises_markerFrom (s : State) (n m : Nat) : OnlyRaises P (markerFrom s n m) := by
  induction n generalizing m with
  | zero => exact onlyRaises_ok _
  | succ n ih =>
    rw [markerFrom]
    split
    next e he => exact (onlyRaises_readSpan hio s _ _).of_error he
    next =>
      split
      · exact onlyRaises_ok _
      · exact ih _

theorem onlyRaises_nextIs (s : State) (p : Nat) (v : Byte) : OnlyRaises P (nextIs s p v) := by
  unfold nextIs
  split
  · split
    next e he => exact (onlyRaises_memRead hio s _).of_error he
    next => exact onlyRaises_ok _
  · exact onlyRaises_ok _

theorem onlyRaises_nextBit (s : State) (p : Nat) : OnlyRaises P (nextBit s p) := by
  unfold nextBit
  split
  · split
    next e he => exact (onlyRaises_memRead hio s _).of_error he
    next => exact onlyRaises_ok _
  · exact onlyRaises_ok _

theorem onlyRaises_sectionEnd (s : State) (m : Nat) : OnlyRaises P (sectionEnd s m) := by
  unfold sectionEnd
  split
  · exact onlyRaises_ok _
  · split
    next e he => exact (onlyRaises_memRead hio s _).of_error he
    next => exact onlyRaises_ok _

section
variable (hmeta : ∀ info, P .malformedMetadata info)
include hmeta

theorem onlyRaises_recordsStart (s : State) (p : Nat) : OnlyRaises P (recordsStart s p) := by
  unfold recordsStart
  split
  · split
    next e he => exact (onlyRaises_memRead hio s _).of_error he
    next =>
      split
      · exact onlyRaises_ok _
      · exact onlyRaises_raise (hmeta _)
  · exact onlyRaises_ok _

theorem onlyRaises_readCode (s : State) (n p : Nat) (c : Code) : OnlyRaises P (readCode s n p c) := by
  induction n generalizing p c with
  | zero =>
    rw [readCode]
    split
    next e he => exact (onlyRaises_nextBit hio s p).of_error he
    next => exact onlyRaises_ok _
    next => exact onlyRaises_raise (hmeta _)
  | succ n ih =>
    rw [readCode]
    split
    next e he => exact (onlyRaises_nextBit hio s p).of_error he
    next => exact onlyRaises_ok _
    next => exact ih _ _

theorem onlyRaises_readRecord (s : State) (p : Nat) (t : Rlt) : OnlyRaises P (readRecord s p t) := by
  refine (onlyRaises_memRead hio s _).bind fun sym _ => (onlyRaises_nextIs hio s _ _).bind fun colon _ => ?_
  split
  · exact onlyRaises_raise (hmeta _)
  refine (onlyRaises_readCode hio hmeta s _ _ _).bind fun x _ => (onlyRaises_nextIs hio s _ _).bind fun nl _ => ?_
  split
  · exact onlyRaises_raise (hmeta _)
  exact (onlyRaises_rltInsert hmeta _ _ _ _).bind fun t' _ => onlyRaises_ok _

theorem onlyRaises_readRecords (s : State) (n p : Nat) (t : Rlt) : OnlyRaises P (readRecords s n p t) := by
  induction n generalizing p t with
  | zero => exact onlyRaises_ok _
  | succ n ih =>
    rw [readRecords]
    split
    · split
      next e he => exact (onlyRaises_readRecord hio hmeta s p t).of_error he
      next => exact ih _ _
    · exact onlyRaises_ok _

theorem onlyRaises_parseContainer {s : State} (hmarker : P .metadataMarkerNotFound s.inLen) :
    OnlyRaises P (parseContainer s) := by
  refine (onlyRaises_markerFrom hio s _ _).bind fun m _ => ?_
  cases m with
  | none => exact onlyRaises_raise hmarker
  | some m =>
    exact (onlyRaises_sectionEnd hio s m).bind fun e _ =>
      (onlyRaises_recordsStart hio hmeta s _).bind fun p _ =>
      (onlyRaises_readRecords hio hmeta s _ _ _).bind fun t _ => onlyRaises_ok _

theorem onlyRaises_decParseBody {s : State} (hmarker : P .metadataMarkerNotFound s.inLen) :
    OnlyRaises P (decParseBody s) := by
  unfold decParseBody
  split
  next e he => exact (onlyRaises_parseContainer hio hmeta hmarker).of_error he
  next => exact onlyRaises_ok _

end

/-! ### Scanning -/

section
variable (hstream : ∀ info, P .malformedStream info)
include hstream

theorem onlyRaises_vmStep (s : State) (pos : Word64) (c : Code) (o : OutStream) (ch : Byte) :
    OnlyRaises P (vmStep s pos c o ch) := by
  cases hbit : bitOfChar ch with
  | none => rw [vmStep_skip _ _ _ _ hbit]; exact onlyRaises_ok _
  | some bit =>
    cases hfind : rltFind s.rlt (c ++ [bit]) with
    | some r =>
      rw [vmStep_match _ _ _ hbit hfind]
      split
      next e he => exact (onlyRaises_put hio _ _ _).of_error he
      next => exact onlyRaises_ok _
    | none =>
      rw [vmStep_noMatch _ _ _ hbit hfind]
      split
      · exact onlyRaises_raise (hstream _)
      · exact onlyRaises_ok _

theorem onlyRaises_vmPushBody (ch : Byte) (s : State) : OnlyRaises P (vmPushBody ch s) := by
  unfold vmPushBody
  split
  next e he => exact (onlyRaises_vmStep hio hstream _ _ _ _ _).of_error he
  next => exact onlyRaises_ok _

theorem onlyRaises_scanLoop (s : State) (n : Nat) (pos : Word64) (c : Code) (o : OutStream) :
    OnlyRaises P (scanLoop s n pos c o) := by
  induction n generalizing pos c o with
  | zero => exact onlyRaises_ok _
  | succ n ih =>
    rw [scanLoop]
    split
    · split
      next e he => exact (onlyRaises_memRead hio s pos).of_error he
      next =>
        split
        next e he => exact (onlyRaises_vmStep hio hstream _ _ _ _ _).of_error he
        next => exact ih _ _ _
    · exact onlyRaises_ok _

theorem onlyRaises_decScanBody (s : State) : OnlyRaises P (decScanBody s) := by
  unfold decScanBody
  split
  next e he => exact (onlyRaises_scanLoop hio hstream _ _ _ _ _).of_error he
  next =>
    split
    · exact onlyRaises_raise (hstream _)
    · exact onlyRaises_ok _

end

end

/-! ### The queue and the tree -/

theorem onlyRaises_pqInsertBody {key : Word64} {node : NodeIx} {s : State}
    (hfull : 256 ≤ s.heap.length → P .capacityExceeded 0#64) : OnlyRaises P (pqInsertBody key node s) := by
  unfold pqInsertBody
  rcases pqInsert_cases s.heap ⟨key, node⟩ with ⟨hlen, e⟩ | ⟨-, h, e, -⟩ <;> rw [e]
  · exact onlyRaises_raise (hfull hlen)
  · exact onlyRaises_ok _

theorem onlyRaises_pqExtractMinBody {s : State} (hempty : s.heap = [] → P .emptyQueue 0#64) :
    OnlyRaises P (pqExtractMinBody s) := by
  unfold pqExtractMinBody
  rcases pqExtract_cases s.heap with ⟨hnil, e⟩ | ⟨r, rest, -, e, -⟩ <;> rw [e]
  · exact onlyRaises_raise (hempty hnil)
  · exact onlyRaises_ok _

theorem onlyRaises_pqPeekBody {s : State} (hempty : s.heap = [] → P .emptyQueue 0#64) :
    OnlyRaises P (pqPeekBody s) := by
  unfold pqPeekBody
  split
  next hnil => exact onlyRaises_raise (hempty (List.head?_eq_none_iff.1 hnil))
  next => exact onlyRaises_ok _

/-- The queue never overflows or runs empty while a tree is built (R123). -/
theorem onlyRaises_treeBuildBody (s : State) : OnlyRaises P (treeBuildBody s) := by
  obtain ⟨t, ht⟩ := treeBuildBody_completes s
  rw [ht]
  exact onlyRaises_ok t

theorem onlyRaises_codeGenBody (s : State) : OnlyRaises P (codeGenBody s) :=
  fun k info h => absurd h (codeGenBody_ne_raise s k info)

end

/-! ## Every byte that `ENCODE` reads has a code (spec/40_frequency_counter.md R90, spec/44_encoder.md R142)

`FREQ_COUNT` reads the whole input, so what it counted is what `EMIT` reads, in any state: `ENCODE` raises no
`SequenceError`. -/

/-- A counter that does not wrap (R90). -/
theorem toNat_tget_bump {f : FreqTable} {x : Byte} (h : (tget f x).toNat + 1 < 2 ^ 64) (b : Byte) :
    (tget (bump f x) b).toNat = (tget f b).toNat + if x = b then 1 else 0 := by
  rw [tget_bump]
  split
  next e =>
    subst e
    rw [BitVec.toNat_add, BitVec.toNat_ofNat]
    exact Nat.mod_eq_of_lt h
  next => rfl

/-- A byte that is read lies in the input (R43). -/
theorem lt_inLen_of_memRead {s : State} {a : Word64} {b : Byte} (h : memRead s a = .ok b) : a < s.inLen := by
  rcases memRead_cases s a with ⟨-, e⟩ | ⟨-, -, e⟩ | ⟨-, -, -, e⟩ | ⟨_, hlt, -⟩
  · rw [e] at h; cases h
  · rw [e] at h; cases h
  · rw [e] at h; cases h
  · exact hlt

/-- Of the state a read uses the input and its failing positions. -/
theorem memRead_of_sameInput {s t : State} (h : SameInput s t) (a : Word64) : memRead t a = memRead s a := by
  obtain ⟨hmem, hlen, -, hfault, -⟩ := h
  rw [memRead, memRead, hmem, hlen, hfault]

/-- A counting loop that runs to the end of the input lowers no counter, and counts every byte from the cursor on: no
counter is past the cursor, so none wraps (R90). -/
theorem countLoop_counts {s : State} (n : Nat) {pos pos' : Word64} {f f' : FreqTable}
    (h : countLoop s n pos f = .ok (pos', f')) (hn : s.inLen.toNat ≤ pos.toNat + n)
    (hf : ∀ b, (tget f b).toNat ≤ pos.toNat) (b : Byte) :
    (tget f b).toNat ≤ (tget f' b).toNat ∧ ∀ a, pos ≤ a → memRead s a = .ok b → 0 < (tget f' b).toNat := by
  induction n generalizing pos f with
  | zero =>
    cases h
    refine ⟨Nat.le_refl _, fun a hle hread => ?_⟩
    have hlt := lt_inLen_of_memRead hread
    bv_omega
  | succ n ih =>
    rw [countLoop] at h
    split at h
    next hlt =>
      split at h
      next => cases h
      next x hx =>
        have hnext : (pos + 1#64).toNat = pos.toNat + 1 := by bv_omega
        have hbump := toNat_tget_bump (f := f) (x := x) (by have := hf x; bv_omega)
        obtain ⟨hmono, hcounted⟩ := ih h (by omega) fun y => by rw [hbump, hnext]; have := hf y; split <;> omega
        rw [hbump] at hmono
        refine ⟨by omega, fun a hle hread => ?_⟩
        by_cases ha : a = pos
        · subst ha
          rw [hx] at hread
          cases hread
          rw [if_pos rfl] at hmono
          omega
        · exact hcounted a (by bv_omega) hread
    next hge =>
      cases h
      refine ⟨Nat.le_refl _, fun a hle hread => ?_⟩
      have hlt := lt_inLen_of_memRead hread
      bv_omega

/-- From the start of the input `FREQ_COUNT` counts every byte that can be read (R90). -/
theorem mem_presentBytes_of_memRead {s t : State} (h : freqCountBody s = .ok t) (hpos : s.inPos = 0#64) {a : Word64}
    {b : Byte} (hread : memRead s a = .ok b) : b ∈ presentBytes t.freq := by
  have hzero : ∀ x, (tget zeroFreq x).toNat ≤ s.inPos.toNat := fun x => by
    rw [zeroFreq, tget_replicate]
    exact Nat.zero_le _
  have hcount := (countLoop_counts _ (freqCountBody_ok h).1 (by omega) hzero b).2 a (hpos ▸ zero_le_word a) hread
  refine List.mem_filter.2 ⟨mem_byteValues b, decide_eq_true fun h0 => ?_⟩
  rw [h0] at hcount
  cases hcount

/-- Where the parts of `ENCODE` before `EMIT` complete, every byte that `EMIT` can read has a code (R142). -/
theorem isSome_ctLookup_of_encodeParts {s u v w : State} (hu : freqCountBody { s with inPos := 0#64 } = .ok u)
    (hv : treeBuildBody { u with inPos := 0#64 } = .ok v) (hw : codeGenBody v = .ok w) {a : Word64} {b : Byte}
    (hread : memRead w a = .ok b) : (ctLookup w.code b).isSome = true := by
  have hsame : SameInput s w := by
    obtain ⟨_, -, ev⟩ := treeBuildBody_ok hv
    rw [(codeGenBody_ok hw).2, ev, (freqCountBody_ok hu).2]
    exact ⟨rfl, rfl, rfl, rfl, rfl⟩
  rw [memRead_of_sameInput hsame] at hread
  exact (codeGenBody_isSome_iff hv hw b).2 (mem_presentBytes_of_memRead hu rfl hread)

theorem onlyRaises_encodeBody {P : FaultKind → Word64 → Prop} (hio : ∀ info, P .ioFailure info) (s : State) :
    OnlyRaises P (encodeBody s) := by
  refine (onlyRaises_ok _).bind fun s₁ h₁ => (onlyRaises_freqCountBody hio s₁).bind fun u hu => ?_
  refine (onlyRaises_ok _).bind fun s₃ h₃ => (onlyRaises_treeBuildBody s₃).bind fun v hv => ?_
  refine (onlyRaises_codeGenBody v).bind fun w hw => onlyRaises_emitBody hio fun a b hread hnone => ?_
  cases h₁
  cases h₃
  have hcode := isSome_ctLookup_of_encodeParts hu hv hw hread
  rw [hnone] at hcode
  cases hcode

theorem onlyRaises_decodeBody {P : FaultKind → Word64 → Prop} (hio : ∀ info, P .ioFailure info)
    (hmeta : ∀ info, P .malformedMetadata info) (hstream : ∀ info, P .malformedStream info) {s : State}
    (hmarker : P .metadataMarkerNotFound s.inLen) : OnlyRaises P (decodeBody s) :=
  (onlyRaises_decParseBody hio hmeta hmarker).bind fun u _ => onlyRaises_decScanBody hio hstream u

/-! ## Which commands raise which fault (spec/60_exceptions.md R190) -/

/-- The command `i`, issued in `s`, is one that R190 lists for the fault, in a state that R192 and R193 ask for, with
the `ERR_INFO` of R194 and R197. -/
def RaisedBy (i : Instr) (s : State) : FaultKind → Word64 → Prop
  | .ioFailure, _ => i = .freqCount ∨ i = .emit ∨ i = .encode ∨ i = .decParse ∨ i = .decScan ∨ i = .decode ∨
      ∃ ch, i = .vmPush ch
  | .capacityExceeded, _ => ∃ key node, i = .pqInsert key node ∧ 256 ≤ s.heap.length
  | .emptyQueue, _ => (i = .pqExtractMin ∨ i = .pqPeek) ∧ s.heap = []
  | .metadataMarkerNotFound, info => (i = .decParse ∨ i = .decode) ∧ info = s.inLen
  | .malformedStream, _ => i = .decScan ∨ i = .decode ∨ ∃ ch, i = .vmPush ch
  | .malformedMetadata, _ => i = .decParse ∨ i = .decode
  | .sequenceError, info =>
      (i = .treeBuild ∨ i = .codeGen ∨ i = .emit ∨ i = .decScan ∨ ∃ ch, i = .vmPush ch) ∧
        info = i.opcode.setWidth 64
  | .illegalCommand, _ => False

/-- The pseudocode of each command raises only faults that R190 lists for the command. -/
theorem onlyRaises_bodyOf (i : Instr) (s : State) : OnlyRaises (RaisedBy i s) (bodyOf i s) := by
  cases i with
  | clr | inRewind => exact onlyRaises_ok _
  | pqInsert key node => exact onlyRaises_pqInsertBody fun hfull => ⟨key, node, rfl, hfull⟩
  | pqExtractMin => exact onlyRaises_pqExtractMinBody fun hempty => ⟨.inl rfl, hempty⟩
  | pqPeek => exact onlyRaises_pqPeekBody fun hempty => ⟨.inr rfl, hempty⟩
  | freqCount => exact onlyRaises_freqCountBody (fun _ => by simp [RaisedBy]) s
  | treeBuild => exact onlyRaises_treeBuildBody s
  | codeGen => exact onlyRaises_codeGenBody s
  | emit => exact onlyRaises_emitBody (fun _ => by simp [RaisedBy]) fun _ _ _ _ => ⟨by simp, rfl⟩
  | encode => exact onlyRaises_encodeBody (fun _ => by simp [RaisedBy]) s
  | decParse =>
    exact onlyRaises_decParseBody (fun _ => by simp [RaisedBy]) (fun _ => by simp [RaisedBy]) ⟨.inl rfl, rfl⟩
  | decScan => exact onlyRaises_decScanBody (fun _ => by simp [RaisedBy]) (fun _ => by simp [RaisedBy]) s
  | vmPush ch => exact onlyRaises_vmPushBody (fun _ => by simp [RaisedBy]) (fun _ => by simp [RaisedBy]) ch s
  | decode =>
    exact onlyRaises_decodeBody (fun _ => by simp [RaisedBy]) (fun _ => by simp [RaisedBy])
      (fun _ => by simp [RaisedBy]) ⟨.inr rfl, rfl⟩

/-- Only a command that requires a flag can find it clear (R26, R197). -/
theorem raisedBy_of_not_ready {i : Instr} {s : State} (hp : phaseReady i s.flags = false) :
    RaisedBy i s .sequenceError (i.opcode.setWidth 64) := by
  cases i with
  | treeBuild | codeGen | emit | decScan | vmPush => exact ⟨by simp, rfl⟩
  | _ => cases hp

/-- A command that ends in a fault, with none recorded before, entered one that R190 lists for it. -/
theorem exec_raisedBy {i : Instr} {s t : State} (h : exec i s = .next t) (he : s.err = 0#8) (ht : t.err ≠ 0#8) :
    ∃ k info, t = enterFault s k info ∧ RaisedBy i s k info := by
  rcases exec_faulted h ht with ⟨hne, -⟩ | ⟨-, k, info, rfl, ⟨hp, rfl, rfl⟩ | hb⟩
  · exact absurd he hne
  · exact ⟨_, _, rfl, raisedBy_of_not_ready hp⟩
  · exact ⟨k, info, rfl, onlyRaises_bodyOf i s k info hb⟩

/-- Each kind has a number of its own (R190). -/
theorem number_injective : Function.Injective FaultKind.number :=
  Function.LeftInverse.injective (g := fun n => FaultKind.ofNat (n.toNat - 1)) fun k => by cases k <;> rfl

/-- Settles O11: a command that completes leaves `ERR = 0`; of one that faults the number in `ERR` tells the kind, and
`exec_raisedBy` says what the kind asks. -/
theorem eachFaultComesOnlyFromItsCommands : Obligations.EachFaultComesOnlyFromItsCommands := by
  intro i s t h he
  by_cases ht : t.err = 0#8
  · simp [ht]
  obtain ⟨k, info, rfl, hk⟩ := exec_raisedBy h he ht
  have hkind : ∀ k' : FaultKind, k.number = k'.number → RaisedBy i s k' info :=
    fun k' e => number_injective e ▸ hk
  refine ⟨hkind .ioFailure, hkind .capacityExceeded, hkind .emptyQueue, hkind .metadataMarkerNotFound,
    hkind .malformedStream, hkind .malformedMetadata, hkind .sequenceError, ?_⟩
  rw [enterFault_err]
  cases k with
  | illegalCommand => exact hk.elim
  | _ => decide

end Sys2Proof.Proofs
